-- ==== Sys2Proof/Word.lean ====
section
/-! DEFINITION. The word types of the block (00_scope.md R9). -/

namespace Sys2Proof

/-- Every block register, command word, argument word, address and handle is 32 bits wide (R9). -/
abbrev Word := BitVec 32

/-- One byte of data memory (R60), and the width of a command word's four fields (R92). -/
abbrev Byte := BitVec 8

end Sys2Proof
end

