-- ==== Sys2Proof/Config.lean ====
section
/-! DEFINITION. What a launch fixes (the parameters of 00_scope.md R8) and the free values of the spec (`draw()` of R14
and the free interleaving of R81, R245, R290). -/

namespace Sys2Proof.Config

/-- The two directions of the interrupt lifecycle (R161), and of the handler (R57). -/
inductive Dir where
  | rx
  | tx
deriving DecidableEq, Repr, Inhabited

/-- RX_STREAM_MAP: how one received frame becomes FIFO entries (R8, R185). -/
inductive StreamMap where
  | dummyInterleaved
  | plain
deriving DecidableEq, Repr

/-- A range of byte addresses `base .. base + size - 1`. -/
structure Region where
  base : Nat
  size : Nat
deriving DecidableEq, Repr

/-- A register field: its lowest bit and its width (R10, R22). -/
structure Field where
  lo : Nat
  width : Nat
deriving DecidableEq, Repr

/-- A field of one bit. -/
def Field.bit (i : Nat) : Field := ⟨i, 1⟩

/-- The register addresses of a REGMAP (R22). -/
structure RegAddresses where
  clkgate : Word
  mcr : Word
  mdr : Word
  rcsr : Word
  rcr1 : Word
  rcr2 : Word
  rcr4 : Word
  rcr5 : Word
  rdr : Word
deriving DecidableEq, Repr

/-- REGMAP (R8, R11, R22): the addresses of the registers, the place and the width of every field of several bits, and the
bit of every field of one bit (R10). -/
structure RegMap where
  addresses : RegAddresses
  /-- CLKGATE.GATE. -/
  gate : Nat
  /-- MCR.DUF. -/
  duf : Nat
  /-- MCR.MOE. -/
  moe : Nat
  /-- MCR.MICS. -/
  mics : Field
  /-- MDR.FRACT. -/
  fract : Field
  /-- MDR.DIVIDE. -/
  divide : Field
  /-- RCSR.RE. -/
  re : Nat
  /-- RCSR.BCE. -/
  bce : Nat
  /-- RCSR.FR. -/
  fr : Nat
  /-- RCSR.FEF. -/
  fef : Nat
  /-- RCSR.FRF. -/
  frf : Nat
  /-- RCSR.FRIE. -/
  frie : Nat
  /-- RCR1.RFW. -/
  rfw : Field
  /-- RCR2.SYNC. -/
  sync : Field
  /-- RCR2.MSEL. -/
  msel : Field
  /-- RCR2.BCP. -/
  bcp : Nat
  /-- RCR2.BCD. -/
  bcd : Nat
  /-- RCR2.DIV. -/
  div : Field
  /-- RCR4.FRSZ. -/
  frsz : Field
  /-- RCR4.SYWD. -/
  sywd : Field
  /-- RCR4.MF. -/
  mf : Nat
  /-- RCR4.FSE. -/
  fse : Nat
  /-- RCR4.FSP. -/
  fsp : Nat
  /-- RCR4.FSD. -/
  fsd : Nat
  /-- RCR5.WNW. -/
  wnw : Field
  /-- RCR5.W0W. -/
  w0w : Field
  /-- RCR5.FBT. -/
  fbt : Field
deriving DecidableEq, Repr

/-- The default REGMAP: the table of R22, with the widths of R10 (PRESUMED, log 9). -/
def RegMap.default : RegMap where
  addresses := ⟨0x4004803C, 0x4002F100, 0x4002F104, 0x4002F080, 0x4002F084, 0x4002F088, 0x4002F090, 0x4002F094, 0x4002F0A0⟩
  gate := 15
  duf := 31
  moe := 30
  mics := ⟨24, 2⟩
  fract := ⟨12, 8⟩
  divide := ⟨0, 12⟩
  re := 31
  bce := 28
  fr := 25
  fef := 18
  frf := 16
  frie := 8
  rfw := ⟨0, 3⟩
  sync := ⟨30, 2⟩
  msel := ⟨26, 2⟩
  bcp := 25
  bcd := 24
  div := ⟨0, 8⟩
  frsz := ⟨16, 4⟩
  sywd := ⟨8, 5⟩
  mf := 4
  fse := 3
  fsp := 1
  fsd := 0
  wnw := ⟨24, 5⟩
  w0w := ⟨16, 5⟩
  fbt := ⟨8, 5⟩

/-- The launch parameters of R8. RATE_TABLE and INSTANCE_COUNT are fixed (R123, R252). -/
structure Params where
  /-- REGMAP (R11, R22, D3). -/
  regMap : RegMap
  /-- F_MCLK_IN in hertz, an exact rational (R15). -/
  fMclkIn : Rat
  /-- MDR_ENC_OFFSET, 0 or 1 (R27, D4). -/
  mdrEncOffset : Fin 2
  /-- RX_FIFO_DEPTH, in 32-bit entries (R51, D15). -/
  rxFifoDepth : Nat
  /-- RX_STREAM_MAP (R185, D13). -/
  rxStreamMap : StreamMap
  /-- C_MAX (R143, D30). -/
  cMax : Nat
  /-- B_MIN (R143, D30). -/
  bMin : Nat
  /-- B_MAX (R143, D30). -/
  bMax : Nat
  /-- IRQ_RX_ID, opaque (R251, D46). -/
  irqRxId : Nat
  /-- IRQ_TX_ID, opaque (R251, D46). -/
  irqTxId : Nat
  /-- MEM_WRITABLE: the byte addresses that accept a write (R74, D22). -/
  writable : List Region
deriving DecidableEq, Repr

/-- The defaults of R8. PRESUMED (log 10): 29 and 28 are R8's candidates. DESIGN CHOICE (log 7): R8 gives
MEM_WRITABLE no default, and here every address of the 32-bit space is writable. -/
def Params.default : Params where
  regMap := RegMap.default
  fMclkIn := 96000000
  mdrEncOffset := 0
  rxFifoDepth := 8
  rxStreamMap := .dummyInterleaved
  cMax := 8
  bMin := 8
  bMax := 32
  irqRxId := 29
  irqTxId := 28
  writable := [⟨0, 4294967296⟩]

/-- One turn of the schedule (R290): which agent is offered the next step. A dispatcher turn carries its two free
inputs: the draw of `tx_req` (R243) and the choice taken when both lines request (R244). -/
inductive Turn where
  | host
  | handler
  | receiver
  | dispatcher (txReq : Bool) (pick : Dir)
deriving DecidableEq, Repr, Inhabited

/-- The value of the n-th `draw()` that no given input supplies (R14): any 32-bit value, under no law (log 2). -/
opaque freeWord : Nat → Word

/-- The agent offered the n-th turn that no given schedule supplies (R81, R245): any turn at all (log 1). -/
opaque freeTurn : Nat → Turn

end Sys2Proof.Config
end

