-- ==== Sys2Proof/Syntax.lean ====
section
/-! DEFINITION. The sixteen commands of spec/opcode_table.json (30_encoding.md R97) with their operands, and the reasons
a command can be refused (60_exceptions.md R241). -/

namespace Sys2Proof

open Sys2Proof.Config

/-- The nine block registers of 10_state.md R22. -/
inductive Reg where
  | clkgate
  | mcr
  | mdr
  | rcsr
  | rcr1
  | rcr2
  | rcr4
  | rcr5
  | rdr
deriving DecidableEq, Repr

/-- The read index `K` of `h.rd` (R93): the channel-0 read, the discarded read, the channel-1 read. -/
inductive DrainPos where
  | ch0
  | skip
  | ch1
deriving DecidableEq, Repr

/-- The refusal reasons of R241. -/
inductive RefuseReason where
  | xOpcode
  | xInstance
  | xReg
  | xContext
  | xField
  | xMode
deriving DecidableEq, Repr

/-- The commands of R97, one constructor per row of the opcode table, operands in the order of R105. -/
inductive Instr where
  | gateEn
  | mclkRate (rate : Word)
  | mclkPair (fract divide : Word)
  | frameCfg (c b : Word)
  | beginRate (rate c b : Word)
  | beginPair (fract divide c b : Word)
  | startRx (cb d0 d1 : Word)
  | stopRx
  | startTx (cb : Word)
  | stopTx
  | regwr (reg : Reg) (value : Word)
  | regrd (reg : Reg)
  | hRd (k : DrainPos)
  | hFr
  | hCall (dir : Dir)
  | hRet
deriving DecidableEq, Repr

end Sys2Proof
end

