-- ==== Sys2Proof/WellFormed.lean ====
section
/-! DEFINITION. Which terms of Instr the encoding can write. -/

namespace Sys2Proof

/-- A command is well formed when 30_encoding.md R97 gives it a command word. The one term it excludes is a `regwr` of
RDR, which is read-only: R93 and R98 admit the register ids 0 to 7 there. -/
def Instr.wf : Instr → Bool
  | .gateEn => true
  | .mclkRate _ => true
  | .mclkPair _ _ => true
  | .frameCfg _ _ => true
  | .beginRate _ _ _ => true
  | .beginPair _ _ _ _ => true
  | .startRx _ _ _ => true
  | .stopRx => true
  | .startTx _ => true
  | .stopTx => true
  | .regwr reg _ => decide (reg ≠ .rdr)
  | .regrd _ => true
  | .hRd _ => true
  | .hFr => true
  | .hCall _ => true
  | .hRet => true

end Sys2Proof
end

