-- ==== Sys2Proof/Decode.lean ====
section
/-! DEFINITION. Decoding of the command words (30_encoding.md R91 to R99), total on any word list and refusing by name, and
after it the encoder, written from the same table. -/

namespace Sys2Proof

open Sys2Proof.Config

/-- The sixteen opcodes of R97. -/
inductive Opcode where
  | gateEn
  | mclkRate
  | mclkPair
  | frameCfg
  | beginRate
  | beginPair
  | startRx
  | stopRx
  | startTx
  | stopTx
  | regwr
  | regrd
  | hRd
  | hFr
  | hCall
  | hRet
deriving DecidableEq, Repr

/-- The OPC column of R97. -/
def Opcode.code : Opcode → Byte
  | .gateEn => 0x01
  | .mclkRate => 0x02
  | .mclkPair => 0x03
  | .frameCfg => 0x04
  | .beginRate => 0x05
  | .beginPair => 0x06
  | .startRx => 0x08
  | .stopRx => 0x09
  | .startTx => 0x0A
  | .stopTx => 0x0B
  | .regwr => 0x10
  | .regrd => 0x11
  | .hRd => 0x20
  | .hFr => 0x21
  | .hCall => 0x22
  | .hRet => 0x23

/-- The NARG column of R97. -/
def Opcode.narg : Opcode → Nat
  | .gateEn => 0
  | .mclkRate => 1
  | .mclkPair => 2
  | .frameCfg => 2
  | .beginRate => 3
  | .beginPair => 4
  | .startRx => 3
  | .stopRx => 0
  | .startTx => 1
  | .stopTx => 0
  | .regwr => 1
  | .regrd => 0
  | .hRd => 0
  | .hFr => 0
  | .hCall => 0
  | .hRet => 0

/-- The rows of R97, in the table's order. -/
def Opcode.all : List Opcode :=
  [.gateEn, .mclkRate, .mclkPair, .frameCfg, .beginRate, .beginPair, .startRx, .stopRx, .startTx, .stopTx, .regwr,
    .regrd, .hRd, .hFr, .hCall, .hRet]

/-- The row of R97 whose OPC is `c`; none for a reserved OPC (R99). -/
def Opcode.ofCode? (c : Byte) : Option Opcode :=
  Opcode.all.find? fun o => o.code == c

/-- The longest command is the command word and four argument words (R91). -/
def maxCommandWords : Nat := 5

/-- The fields of a command word (R92). -/
def opcField (w : Word) : Byte := w.extractLsb' 24 8

def subField (w : Word) : Byte := w.extractLsb' 16 8

def instField (w : Word) : Byte := w.extractLsb' 8 8

def nargField (w : Word) : Byte := w.extractLsb' 0 8

/-- The register id of 10_state.md R22 (the `REG` of R93). -/
def Reg.id : Reg → Byte
  | .clkgate => 0
  | .mcr => 1
  | .mdr => 2
  | .rcsr => 3
  | .rcr1 => 4
  | .rcr2 => 5
  | .rcr4 => 6
  | .rcr5 => 7
  | .rdr => 8

def Reg.all : List Reg := [.clkgate, .mcr, .mdr, .rcsr, .rcr1, .rcr2, .rcr4, .rcr5, .rdr]

/-- The register of an id; none for the reserved ids 9 to 255 (R99). -/
def Reg.ofId? (b : Byte) : Option Reg := Reg.all.find? fun r => r.id == b

/-- The read index `K` of R93. -/
def DrainPos.index : DrainPos → Byte
  | .ch0 => 0
  | .skip => 1
  | .ch1 => 2

def DrainPos.ofIndex? (b : Byte) : Option DrainPos := [DrainPos.ch0, .skip, .ch1].find? fun k => k.index == b

/-- The direction number of R93. -/
def dirIndex : Dir → Byte
  | .rx => 0
  | .tx => 1

def dirOfIndex? (b : Byte) : Option Dir := [Dir.rx, .tx].find? fun d => dirIndex d == b

/-- The verdict of R98's case on SUB: none where the sub-operand is admitted. -/
def subRefusal (o : Opcode) (sub : Byte) : Option RefuseReason :=
  match o with
  | .regwr => if sub.toNat ≥ 8 then some .xReg else none
  | .regrd => if sub.toNat > 8 then some .xReg else none
  | .hRd => if sub.toNat > 2 then some .xOpcode else none
  | .hCall => if sub.toNat > 1 then some .xOpcode else none
  | .gateEn | .mclkRate | .mclkPair | .frameCfg | .beginRate | .beginPair | .startRx | .stopRx | .startTx | .stopTx
  | .hFr | .hRet => if sub.toNat ≠ 0 then some .xOpcode else none

/-- The command an opcode, its sub-operand and the words after the command word make (R97); none where too few words
remain (R98's last line). -/
def assemble (o : Opcode) (sub : Byte) (args : List Word) : Option Instr :=
  match o, args with
  | .gateEn, _ => some .gateEn
  | .mclkRate, rate :: _ => some (.mclkRate rate)
  | .mclkPair, f :: d :: _ => some (.mclkPair f d)
  | .frameCfg, c :: b :: _ => some (.frameCfg c b)
  | .beginRate, rate :: c :: b :: _ => some (.beginRate rate c b)
  | .beginPair, f :: d :: c :: b :: _ => some (.beginPair f d c b)
  | .startRx, cb :: d0 :: d1 :: _ => some (.startRx cb d0 d1)
  | .stopRx, _ => some .stopRx
  | .startTx, cb :: _ => some (.startTx cb)
  | .stopTx, _ => some .stopTx
  | .regwr, v :: _ => (Reg.ofId? sub).map fun r => .regwr r v
  | .regrd, _ => (Reg.ofId? sub).map .regrd
  | .hRd, _ => (DrainPos.ofIndex? sub).map .hRd
  | .hFr, _ => some .hFr
  | .hCall, _ => (dirOfIndex? sub).map .hCall
  | .hRet, _ => some .hRet
  | .mclkRate, [] | .mclkPair, [] | .mclkPair, [_] | .frameCfg, [] | .frameCfg, [_] | .beginRate, []
  | .beginRate, [_] | .beginRate, [_, _] | .beginPair, [] | .beginPair, [_] | .beginPair, [_, _]
  | .beginPair, [_, _, _] | .startRx, [] | .startRx, [_] | .startRx, [_, _] | .startTx, [] | .regwr, [] => none

/-- What decoding answers: a command, or a refusal by name. -/
inductive Decoded where
  | command (i : Instr)
  | refused (x : RefuseReason)
deriving DecidableEq, Repr

/-- Decoding of the words that remain from the host's position on, its checks in the order of R98. An empty list is a
command cut short (R241). -/
def decode : List Word → Decoded
  | [] => .refused .xOpcode
  | w :: args =>
    match Opcode.ofCode? (opcField w) with
    | none => .refused .xOpcode
    | some o =>
      if (nargField w).toNat ≠ o.narg then .refused .xOpcode
      else if instField w ≠ 0 then .refused .xInstance
      else
        match subRefusal o (subField w) with
        | some x => .refused x
        | none =>
          match assemble o (subField w) args with
          | none => .refused .xOpcode
          | some i => .command i

/-- The opcode of a command (R97). -/
def Instr.opcode : Instr → Opcode
  | .gateEn => .gateEn
  | .mclkRate _ => .mclkRate
  | .mclkPair _ _ => .mclkPair
  | .frameCfg _ _ => .frameCfg
  | .beginRate _ _ _ => .beginRate
  | .beginPair _ _ _ _ => .beginPair
  | .startRx _ _ _ => .startRx
  | .stopRx => .stopRx
  | .startTx _ => .startTx
  | .stopTx => .stopTx
  | .regwr _ _ => .regwr
  | .regrd _ => .regrd
  | .hRd _ => .hRd
  | .hFr => .hFr
  | .hCall _ => .hCall
  | .hRet => .hRet

/-- The SUB field a command is written with (R93). -/
def Instr.sub : Instr → Byte
  | .gateEn => 0
  | .mclkRate _ => 0
  | .mclkPair _ _ => 0
  | .frameCfg _ _ => 0
  | .beginRate _ _ _ => 0
  | .beginPair _ _ _ _ => 0
  | .startRx _ _ _ => 0
  | .stopRx => 0
  | .startTx _ => 0
  | .stopTx => 0
  | .regwr r _ => r.id
  | .regrd r => r.id
  | .hRd k => k.index
  | .hFr => 0
  | .hCall d => dirIndex d
  | .hRet => 0

/-- The argument words of a command, in the order of R97. -/
def Instr.args : Instr → List Word
  | .gateEn => []
  | .mclkRate rate => [rate]
  | .mclkPair f d => [f, d]
  | .frameCfg c b => [c, b]
  | .beginRate rate c b => [rate, c, b]
  | .beginPair f d c b => [f, d, c, b]
  | .startRx cb d0 d1 => [cb, d0, d1]
  | .stopRx => []
  | .startTx cb => [cb]
  | .stopTx => []
  | .regwr _ v => [v]
  | .regrd _ => []
  | .hRd _ => []
  | .hFr => []
  | .hCall _ => []
  | .hRet => []

/-- The command word OPC, SUB, INST = 0, NARG from the high byte down (R92, R105). -/
def commandWord (o : Opcode) (sub : Byte) : Word :=
  o.code ++ sub ++ (0 : Byte) ++ BitVec.ofNat 8 o.narg

/-- The words of a command (R91). -/
def encode (i : Instr) : List Word := commandWord i.opcode i.sub :: i.args

/-- The words of a table row: bit 0 of `w` is bit 0 of the command word, and each later word's bits count on. The
operand words the row gives no bits are zero. -/
def tableWords (nbits w : Nat) : List Word :=
  (List.range maxCommandWords).map fun k => BitVec.ofNat 32 ((w % 2 ^ nbits) / 2 ^ (32 * k))

/-- The command the decoder reads from a table row's bits. -/
def decodeTableWord (nbits w : Nat) : Option Instr :=
  match decode (tableWords nbits w) with
  | .command i => some i
  | .refused _ => none

end Sys2Proof
end

