-- ==== Sys2Proof/Machine/State.lean ====
section
/-! DEFINITION. The state of the block as plain data (10_state.md R20), the reasons a step can stop, and the state right
after reset (70_reset_and_hazards.md R270). -/

namespace Sys2Proof.Machine

open Sys2Proof.Config

/-- MCR (R24, R25). DUF holds no state (R26). Here and below, a field of several bits is a natural number (R15) that fits
the width REGMAP gives the field (R10, R11; `FieldsFit`). -/
structure Mcr where
  moe : Bool
  mics : Nat
deriving DecidableEq, Repr

/-- MDR: the raw fields (R27). -/
structure Mdr where
  fract : Nat
  divide : Nat
deriving DecidableEq, Repr

/-- RCSR (R29, R30, R31, R33). FR and FRF hold no state (R32, R34). -/
structure Rcsr where
  re : Bool
  bce : Bool
  frie : Bool
  fef : Bool
deriving DecidableEq, Repr

/-- RCR1 (R36). -/
structure Rcr1 where
  rfw : Nat
deriving DecidableEq, Repr

/-- RCR2 (R37 to R41). -/
structure Rcr2 where
  sync : Nat
  msel : Nat
  bcp : Bool
  bcd : Bool
  div : Nat
deriving DecidableEq, Repr

/-- RCR4 (R43 to R48). -/
structure Rcr4 where
  frsz : Nat
  sywd : Nat
  mf : Bool
  fse : Bool
  fsp : Bool
  fsd : Bool
deriving DecidableEq, Repr

/-- RCR5 (R49, R50). -/
structure Rcr5 where
  wnw : Nat
  w0w : Nat
  fbt : Nat
deriving DecidableEq, Repr

/-- The register state of R22: CLKGATE.GATE (R23) and the seven registers behind it. RDR is the head of `rxq` (R51). -/
structure Regs where
  gate : Bool
  mcr : Mcr
  mdr : Mdr
  rcsr : Rcsr
  rcr1 : Rcr1
  rcr2 : Rcr2
  rcr4 : Rcr4
  rcr5 : Rcr5
deriving DecidableEq, Repr

/-- The execution context (R57): the foreground, or a handler of a direction at a micro-program index. -/
inductive Ctx where
  | fg
  | handler (dir : Dir) (hpc : Nat)
deriving DecidableEq, Repr

/-- The agents of 00_scope.md R7. -/
inductive Agent where
  | host
  | handler
  | receiver
  | dispatcher
  | txSource
deriving DecidableEq, Repr

/-- The events of R58. A callback event carries the stored handle as it stands, which is none only in states no run
reaches (R194; log 12). -/
inductive Event where
  | regWr (reg : Reg) (v : Word)
  | regRd (reg : Reg) (v : Word)
  | memWr (addr : Word) (n : Nat) (v : Word)
  | frame (words : List Word)
  | dispatch (dir : Dir)
  | callback (dir : Dir) (handle : Option Word)
  | ret (dir : Dir)
  | status (v : Word)
deriving DecidableEq, Repr

/-- The fault codes of 60_exceptions.md R240. -/
inductive FaultCode where
  | fGate
  | fRange
  | fSeq
  | fCfgLive
  | fDest
deriving DecidableEq, Repr

/-- The `info` column of R240: a register id, the opcode of the command whose argument failed a check, or the destination
address. A destination is none only in states no run reaches (R188; log 12). -/
inductive FaultInfo where
  | reg (r : Reg)
  | opcode (o : Opcode)
  | dest (addr : Option Word)
deriving DecidableEq, Repr

/-- The record `(F, agent, info)` a fault leaves (R240). -/
structure FaultRecord where
  code : FaultCode
  agent : Agent
  info : FaultInfo
deriving DecidableEq, Repr

/-- Data memory (R60): the bytes written or given at launch, addresses strictly rising. An unlisted address holds none
(log 8). -/
abbrev Memory := List Host.Cell

/-- The state of the machine (R20, R68, R246), the launch parameters (R8), and the model's own input fields. -/
structure State where
  /-- The launch parameters (R8). No step changes them. -/
  params : Params
  /-- The register state (R22). -/
  regs : Regs
  /-- The receive FIFO, oldest entry first (R51). -/
  rxq : List Word
  /-- The RX line enable: RX is Running (R52). -/
  irqenRx : Bool
  /-- The TX line enable: TX is Running (R52). -/
  irqenTx : Bool
  /-- The stored RX callback handle (R53). -/
  cbRx : Option Word
  /-- The stored TX callback handle (R53). -/
  cbTx : Option Word
  /-- The channel-0 destination (R54). -/
  dest0 : Option Word
  /-- The channel-1 destination (R54). -/
  dest1 : Option Word
  /-- The configured sample rate (R55). -/
  cfgRate : Option Nat
  /-- The host result register (R56). -/
  res : Option Word
  /-- The execution context (R57). -/
  ctx : Ctx
  /-- The host position (R68, R102). -/
  hp : Nat
  /-- The position inside a macro-operation (R246): the number of its register writes already made. -/
  mpos : Nat
  /-- The event history (R58). -/
  hist : List Event
  /-- The set of fault records (R59), no record twice (log 11). -/
  faults : List FaultRecord
  /-- The refusal mark and its reason (R59). -/
  refused : Option RefuseReason
  /-- Data memory (R60). -/
  mem : Memory
  /-- The host's command words (R102). -/
  program : List Word
  /-- The model's own: the coming turns of the schedule (R290; log 1). -/
  sched : List Turn
  /-- The model's own: the values of the coming draws (R290; log 2). -/
  draws : List Word
  /-- The model's own: how many free values have been used (log 1, log 2). -/
  freeIdx : Nat
deriving DecidableEq, Repr

/-- The reasons a step stops the whole machine. The spec's own faults are not among them: R240 makes them records of
the state, after which the other agents go on (log 3). -/
inductive Fault where
  /-- Raised by the macro-operations' meanings (`hostMacro`) where `mpos` is past the last register write, and by the
  handler's turn where `hpc` is past its micro-program. Safe: no run reaches such a state, and the spec gives it no
  step (log 15). -/
  | noSuchPosition
deriving DecidableEq, Repr

/-- The reasons a step is given no meaning. The spec's own refusals are not among them: R241 makes them a mark of the
state (log 3). -/
inductive Refusal where
  /-- Raised by `exec` for a command that has no meaning yet. Safe: nothing follows. No arm of `exec` raises it. -/
  | notModelled (mnemonic : String)
deriving DecidableEq, Repr

/-- The register fields at reset: all 0 (R270, D24; PRESUMED, log 9). -/
def Regs.reset : Regs where
  gate := false
  mcr := ⟨false, 0⟩
  mdr := ⟨0, 0⟩
  rcsr := ⟨false, false, false, false⟩
  rcr1 := ⟨0⟩
  rcr2 := ⟨0, 0, false, false, 0⟩
  rcr4 := ⟨0, 0, false, false, false, false⟩
  rcr5 := ⟨0, 0, 0⟩

/-- The reset state of R270, with R8's default parameters, no program (log 6), nothing listed in data memory (log 8) and
no given inputs (log 1, log 2). -/
def State.reset : State where
  params := Params.default
  regs := Regs.reset
  rxq := []
  irqenRx := false
  irqenTx := false
  cbRx := none
  cbTx := none
  dest0 := none
  dest1 := none
  cfgRate := none
  res := none
  ctx := .fg
  hp := 0
  mpos := 0
  hist := []
  faults := []
  refused := none
  mem := []
  program := []
  sched := []
  draws := []
  freeIdx := 0

end Sys2Proof.Machine
end

