-- ==== Sys2Proof/Machine/Operands.lean ====
section
/-! DEFINITION. The operand forms: the fields of a REGMAP (00_scope.md R11; 10_state.md R22), the access masks
(45_register_access.md R212), field packing and unpacking (R217, R221), the rate table and the MDR encoding (41_clock.md
R122, R123), and the register images (42_frame.md R141). -/

namespace Sys2Proof.Machine

open Sys2Proof.Config

/-- The number of a fault code (R240). -/
def FaultCode.num : FaultCode → Nat
  | .fGate => 1
  | .fRange => 2
  | .fSeq => 3
  | .fCfgLive => 4
  | .fDest => 5

/-- Wired peripheral instances (R8, R252). -/
def instanceCount : Nat := 1

/-- The address of a register (R22). No operation reads it: registers are reached by id (R70). -/
def regAddress (m : RegMap) : Reg → Word
  | .clkgate => m.addresses.clkgate
  | .mcr => m.addresses.mcr
  | .mdr => m.addresses.mdr
  | .rcsr => m.addresses.rcsr
  | .rcr1 => m.addresses.rcr1
  | .rcr2 => m.addresses.rcr2
  | .rcr4 => m.addresses.rcr4
  | .rcr5 => m.addresses.rcr5
  | .rdr => m.addresses.rdr

/-! ### REGMAP: fields and masks -/

/-- The modelled fields of a register, in R22's order. RDR is read whole (R222). -/
def fieldsOf (m : RegMap) : Reg → List Field
  | .clkgate => [.bit m.gate]
  | .mcr => [.bit m.duf, .bit m.moe, m.mics]
  | .mdr => [m.fract, m.divide]
  | .rcsr => [.bit m.re, .bit m.bce, .bit m.fr, .bit m.fef, .bit m.frf, .bit m.frie]
  | .rcr1 => [m.rfw]
  | .rcr2 => [m.sync, m.msel, .bit m.bcp, .bit m.bcd, m.div]
  | .rcr4 => [m.frsz, m.sywd, .bit m.mf, .bit m.fse, .bit m.fsp, .bit m.fsd]
  | .rcr5 => [m.wnw, m.w0w, m.fbt]
  | .rdr => []

/-- The number a field holds in a register value. -/
def getField (f : Field) (v : Word) : Nat := (v.extractLsb' f.lo f.width).toNat

/-- A field's number at its place in a register value. -/
def putField (f : Field) (n : Nat) : Word := (BitVec.ofNat f.width n).setWidth 32 <<< f.lo

/-- The bits of a field. -/
def fieldMask (f : Field) : Word := (BitVec.allOnes f.width).setWidth 32 <<< f.lo

/-- The register value that holds these numbers in these fields, and 0 in every other bit. -/
def packFields : List (Field × Nat) → Word
  | [] => 0
  | (f, n) :: rest => putField f n ||| packFields rest

/-- The bits of some fields. -/
def fieldsMask : List Field → Word
  | [] => 0
  | f :: rest => fieldMask f ||| fieldsMask rest

/-- The write-admitted bits of a register (R212): its fields, MCR.DUF and RCSR.FRF among them, whose writes are ignored.
CLKGATE has no such mask: its other bits are ignored. RDR is read-only. -/
def wmask (m : RegMap) (r : Reg) : Word :=
  match r with
  | .clkgate => 0xFFFFFFFF
  | r => fieldsMask (fieldsOf m r)

/-- The bits of a register read from state (R212, R213): its fields but MCR.DUF (R26). RDR is read whole (R222). -/
def rmask (m : RegMap) (r : Reg) : Word :=
  match r with
  | .mcr => fieldsMask [.bit m.moe, m.mics]
  | .rdr => 0xFFFFFFFF
  | r => fieldsMask (fieldsOf m r)

/-- RCR1's field from a written value (R217). -/
def rcr1Of (m : RegMap) (v : Word) : Rcr1 where
  rfw := getField m.rfw v

/-- RCR2's fields from a written value (R217). -/
def rcr2Of (m : RegMap) (v : Word) : Rcr2 where
  sync := getField m.sync v
  msel := getField m.msel v
  bcp := v.getLsbD m.bcp
  bcd := v.getLsbD m.bcd
  div := getField m.div v

/-- RCR4's fields from a written value (R217). -/
def rcr4Of (m : RegMap) (v : Word) : Rcr4 where
  frsz := getField m.frsz v
  sywd := getField m.sywd v
  mf := v.getLsbD m.mf
  fse := v.getLsbD m.fse
  fsp := v.getLsbD m.fsp
  fsd := v.getLsbD m.fsd

/-- RCR5's fields from a written value (R217). -/
def rcr5Of (m : RegMap) (v : Word) : Rcr5 where
  wnw := getField m.wnw v
  w0w := getField m.w0w v
  fbt := getField m.fbt v

/-- MCR's stored fields from a written value (R215): DUF is ignored. -/
def mcrOf (m : RegMap) (v : Word) : Mcr where
  moe := v.getLsbD m.moe
  mics := getField m.mics v

/-- MDR's fields from a written value (R215). -/
def mdrOf (m : RegMap) (v : Word) : Mdr where
  fract := getField m.fract v
  divide := getField m.divide v

/-- What each field of a register reads as, the computed flag FRF given (R221). FR reads 0 (R32); the bit of DUF is outside
`rmask` and is drawn (R26). RDR has no fields: its read is the FIFO's head (R222). -/
def viewFields (m : RegMap) (g : Regs) (frf : Bool) : Reg → List (Field × Nat)
  | .clkgate => [(.bit m.gate, g.gate.toNat)]
  | .mcr => [(.bit m.duf, 0), (.bit m.moe, g.mcr.moe.toNat), (m.mics, g.mcr.mics)]
  | .mdr => [(m.fract, g.mdr.fract), (m.divide, g.mdr.divide)]
  | .rcsr =>
    [(.bit m.re, g.rcsr.re.toNat), (.bit m.bce, g.rcsr.bce.toNat), (.bit m.fr, 0), (.bit m.fef, g.rcsr.fef.toNat),
      (.bit m.frf, frf.toNat), (.bit m.frie, g.rcsr.frie.toNat)]
  | .rcr1 => [(m.rfw, g.rcr1.rfw)]
  | .rcr2 =>
    [(m.sync, g.rcr2.sync), (m.msel, g.rcr2.msel), (.bit m.bcp, g.rcr2.bcp.toNat), (.bit m.bcd, g.rcr2.bcd.toNat),
      (m.div, g.rcr2.div)]
  | .rcr4 =>
    [(m.frsz, g.rcr4.frsz), (m.sywd, g.rcr4.sywd), (.bit m.mf, g.rcr4.mf.toNat), (.bit m.fse, g.rcr4.fse.toNat),
      (.bit m.fsp, g.rcr4.fsp.toNat), (.bit m.fsd, g.rcr4.fsd.toNat)]
  | .rcr5 => [(m.wnw, g.rcr5.wnw), (m.w0w, g.rcr5.w0w), (m.fbt, g.rcr5.fbt)]
  | .rdr => []

/-- The modelled fields of registers 0 to 7 at their REGMAP positions (R221). -/
def regFields (m : RegMap) (g : Regs) (frf : Bool) (r : Reg) : Word := packFields (viewFields m g frf r)

/-! ### Which layouts and parameters a launch may give -/

/-- Two fields share no bit. -/
def fieldsDisjoint (f g : Field) : Bool := decide (f.lo + f.width ≤ g.lo) || decide (g.lo + g.width ≤ f.lo)

/-- Fields that one 32-bit register can have: each of at least one bit, inside the word, no two sharing a bit. -/
def layoutOk : List Field → Bool
  | [] => true
  | f :: fs => decide (1 ≤ f.width) && decide (f.lo + f.width ≤ 32) && fs.all (fieldsDisjoint f) && layoutOk fs

/-- A layout the block's registers can have (R11; log 19). -/
def regMapOk (m : RegMap) : Bool :=
  [Reg.clkgate, .mcr, .mdr, .rcsr, .rcr1, .rcr2, .rcr4, .rcr5].all fun r => layoutOk (fieldsOf m r)

/-- What the clock and frame configuration write fits its fields: the rate table's pair (R123, R130), and the minus-one
values of every C up to C_MAX and every B up to B_MAX (R141, R143). -/
def paramsFit (p : Params) : Bool :=
  decide (16 - p.mdrEncOffset.val < 2 ^ p.regMap.fract.width) &&
    decide (125 - p.mdrEncOffset.val < 2 ^ p.regMap.divide.width) &&
    decide (p.cMax ≤ 2 ^ p.regMap.rfw.width) && decide (p.cMax ≤ 2 ^ p.regMap.frsz.width) &&
    decide (p.bMax ≤ 2 ^ p.regMap.sywd.width) && decide (p.bMax ≤ 2 ^ p.regMap.wnw.width) &&
    decide (p.bMax ≤ 2 ^ p.regMap.w0w.width) && decide (p.bMax ≤ 2 ^ p.regMap.fbt.width)

/-- The parameters a launch may give: a positive input frequency (R8), words of 1 to 32 bits (R183), and a REGMAP whose
fields can stand beside each other and hold what is written to them (R11, R143; log 10, log 19). -/
def paramsOk (p : Params) : Bool :=
  decide (0 < p.fMclkIn) && decide (1 ≤ p.bMin) && decide (p.bMax ≤ 32) && regMapOk p.regMap && paramsFit p

/-! ### The values the clock and frame configuration write -/

/-- RATE_TABLE: exactly one entry (R123). -/
def rateTable (rate : Word) : Option (Nat × Nat) :=
  if rate = 48000 then some (16, 125) else none

/-- `enc_fits(f, d)` (R122): the pair is legal and its raw fields fit; 255 and 4095 are the largest numbers of the default
widths 8 and 12 (log 19). -/
def encFits (m : RegMap) (off : Fin 2) (f d : Nat) : Bool :=
  decide (1 ≤ f) && decide (f ≤ d) && decide (f - off.val < 2 ^ m.fract.width) &&
    decide (d - off.val < 2 ^ m.divide.width)

/-- `enc_mdr(f, d)` (R122). -/
def encMdr (m : RegMap) (off : Fin 2) (f d : Nat) : Word := packFields [(m.fract, f - off.val), (m.divide, d - off.val)]

/-- `frame_ok(C, B)` (R143). -/
def frameOk (p : Params) (c b : Nat) : Bool :=
  decide (1 ≤ c) && decide (c ≤ p.cMax) && decide (p.bMin ≤ b) && decide (b ≤ p.bMax)

/-- CLKGATE with GATE set, as `gate.en` writes it (R120). -/
def gateImg (m : RegMap) : Word := packFields [(.bit m.gate, 1)]

/-- MCR with MOE = 1 and MICS = 0 (R130). -/
def mcrImg (m : RegMap) : Word := packFields [(.bit m.duf, 0), (.bit m.moe, 1), (m.mics, 0)]

/-- `rcr2_img` (R141). -/
def rcr2Img (m : RegMap) : Word :=
  packFields [(m.sync, 0), (m.msel, 1), (.bit m.bcp, 1), (.bit m.bcd, 1), (m.div, 1)]

/-- `rcr4_img(C, B)` (R141). -/
def rcr4Img (m : RegMap) (c b : Nat) : Word :=
  packFields [(m.frsz, c - 1), (m.sywd, b - 1), (.bit m.mf, 1), (.bit m.fse, 1), (.bit m.fsp, 1), (.bit m.fsd, 1)]

/-- `rcr5_img(B)` (R141). -/
def rcr5Img (m : RegMap) (b : Nat) : Word := packFields [(m.wnw, b - 1), (m.w0w, b - 1), (m.fbt, b - 1)]

/-- `rcr1_img(C)` (R141). -/
def rcr1Img (m : RegMap) (c : Nat) : Word := packFields [(m.rfw, c - 1)]

/-- `rcsr_img` (R141): RE, BCE and FRIE set. -/
def rcsrImg (m : RegMap) : Word :=
  packFields [(.bit m.re, 1), (.bit m.bce, 1), (.bit m.fr, 0), (.bit m.fef, 0), (.bit m.frf, 0), (.bit m.frie, 1)]

/-- The FR bit alone, as `h.fr` records its write (R190). -/
def frImg (m : RegMap) : Word := packFields [(.bit m.fr, 1)]

/-- `draw()[B-1:0]`, zero-extended to an entry (R182, R183). -/
def receivedWord (b : Nat) (v : Word) : Word := (v.setWidth b).setWidth 32

end Sys2Proof.Machine
end

