-- ==== Sys2Proof/Machine/Flags.lean ====
section
/-! DEFINITION. The computed flags and the derived predicates of 10_state.md (R28, R34, R55, R61 to R64). -/

namespace Sys2Proof.Machine

open Sys2Proof.Config

/-- `fract_l`: the logical multiplier (R27). -/
def fractL (off : Fin 2) (m : Mdr) : Nat := m.fract + off.val

/-- `divide_l`: the logical divider (R27). -/
def divideL (off : Fin 2) (m : Mdr) : Nat := m.divide + off.val

/-- The legality of a divider ratio (R28). -/
def ratioLegal (off : Fin 2) (m : Mdr) : Bool :=
  decide (1 ≤ fractL off m) && decide (1 ≤ divideL off m) && decide (fractL off m ≤ divideL off m)

/-- `mdr_legal(S)` (R28). -/
def mdrLegal (s : State) : Bool := ratioLegal s.params.mdrEncOffset s.regs.mdr

/-- `clk_ok(S)` (R61). -/
def clkOk (s : State) : Bool := s.regs.gate && s.regs.mcr.moe && mdrLegal s

/-- `mode_admitted(S)` (R62). -/
def modeAdmitted (s : State) : Bool :=
  decide (s.regs.rcr2.sync = 0) && decide (s.regs.rcr2.msel = 1) && s.regs.rcr2.bcd && s.regs.rcr4.fsd &&
    s.regs.rcr4.mf && decide (s.regs.rcr5.w0w = s.regs.rcr5.wnw) && decide (s.regs.rcr5.wnw = s.regs.rcr5.fbt) &&
    decide (s.params.bMin ≤ s.regs.rcr5.w0w + 1) && decide (s.regs.rcr5.w0w + 1 ≤ s.params.bMax) &&
    decide (s.regs.rcr4.sywd ≤ s.regs.rcr5.w0w)

/-- `RCSR.FRF`: the FIFO request flag (R34). -/
def frf (s : State) : Bool := decide (s.rxq.length > s.regs.rcr1.rfw)

/-- `rx_req(S)` (R63). -/
def rxReq (s : State) : Bool := s.regs.rcsr.frie && frf s

/-- `rx_active(S)` (R64). -/
def rxActive (s : State) : Bool := s.regs.rcsr.re

/-- `cfg_C`: the channel count (R55). -/
def cfgC (s : State) : Nat := s.regs.rcr4.frsz + 1

/-- `cfg_B`: the bit width (R55). -/
def cfgB (s : State) : Nat := s.regs.rcr5.w0w + 1

/-- The dispatcher's `rx_ok` (R244). -/
def rxOk (s : State) : Bool := s.irqenRx && rxReq s

/-- Whether an agent has faulted, and so takes no further step (R240). -/
def hasFaulted (a : Agent) (s : State) : Bool := s.faults.any fun r => decide (r.agent = a)

/-- The host has finished (R290). -/
def hostFinished (s : State) : Bool := decide (s.hp = s.program.length) && decide (s.ctx = .fg)

/-- The host may take a step (R57, R240, R241, R290). -/
def hostEnabled (s : State) : Bool :=
  decide (s.ctx = .fg) && !hasFaulted .host s && decide (s.refused = none) && !hostFinished s

end Sys2Proof.Machine
end

