-- ==== Sys2Proof/Machine/Memory.lean ====
section
/-! DEFINITION. Data memory (10_state.md R60; 20_memory.md R72, R74): one canonical form, one read of a byte, one
little-endian word write. -/

namespace Sys2Proof.Machine

open Sys2Proof.Config

/-- The byte at an address, or none (R60). -/
def Memory.readByte (m : Memory) (a : Nat) : Option Byte :=
  match m with
  | [] => none
  | (k, b) :: rest => if k = a then some b else Memory.readByte rest a

/-- Put one byte at an address, keeping the addresses rising. A written byte is never what an unlisted address reads as
(none), so no entry is ever removed. -/
def Memory.writeByte (m : Memory) (a : Nat) (b : Byte) : Memory :=
  match m with
  | [] => [(a, b)]
  | (k, c) :: rest =>
    if a < k then (a, b) :: (k, c) :: rest
    else if a = k then (a, b) :: rest
    else (k, c) :: Memory.writeByte rest a b

/-- Every listed address is above `lo`, and they rise strictly. -/
def Memory.risingFrom (lo : Nat) (m : Memory) : Bool :=
  match m with
  | [] => true
  | (k, _) :: rest => decide (lo ≤ k) && Memory.risingFrom (k + 1) rest

/-- The canonical form: addresses strictly rising, all inside the 32-bit space (R60). -/
def Memory.wf (m : Memory) : Bool :=
  Memory.risingFrom 0 m && m.all fun c => decide (c.1 < 2 ^ 32)

/-- Byte `i` of a word, byte 0 the least significant (R72). -/
def byteOf (v : Word) (i : Nat) : Byte := v.extractLsb' (8 * i) 8

/-- The address of byte `i` of a word stored at `addr`: the additions are modulo 2^32 (R72). -/
def byteAddr (addr : Word) (i : Nat) : Nat := (addr + BitVec.ofNat 32 i).toNat

/-- `MemWrite(addr, 4, v)`, little-endian (R72). -/
def Memory.writeWord (m : Memory) (addr : Word) (v : Word) : Memory :=
  (((m.writeByte (byteAddr addr 0) (byteOf v 0)).writeByte (byteAddr addr 1) (byteOf v 1)).writeByte
    (byteAddr addr 2) (byteOf v 2)).writeByte (byteAddr addr 3) (byteOf v 3)

/-- MEM_WRITABLE: whether byte address `a` accepts a write (R8, R74). -/
def memWritable (p : Params) (a : Nat) : Bool :=
  p.writable.any fun r => decide (r.base ≤ a) && decide (a < r.base + r.size)

/-- Whether a destination write at `d` is admitted: 4-aligned, and four writable bytes (R74). -/
def destAdmitted (p : Params) (d : Word) : Bool :=
  decide (d.toNat % 4 = 0) && (memWritable p (byteAddr d 0) && memWritable p (byteAddr d 1) &&
    memWritable p (byteAddr d 2) && memWritable p (byteAddr d 3))

end Sys2Proof.Machine
end

