-- ==== Sys2Proof/Machine/Ops.lean ====
section
/-! DEFINITION. The shared operations: draws and events (00_scope.md R14), recording a fault or a refusal
(60_exceptions.md R240, R241), entering and leaving a handler (R246, R247), register writes and reads
(45_register_access.md), the FIFO push (44_rx_fifo_drain.md R184), and how a command of each kind runs (30_encoding.md
R100 to R103). -/

namespace Sys2Proof.Machine

open Sys2Proof.Config

/-- What an agent's step meets that it does not get past: a fault (R240) or a refusal (R241). -/
inductive Stop where
  | fault (code : FaultCode) (info : FaultInfo)
  | refuse (x : RefuseReason)
deriving DecidableEq, Repr

/-- `emit(e)` (R14). -/
def emit (e : Event) (s : State) : State := { s with hist := s.hist ++ [e] }

/-- `draw()` (R14): the next given input, or a free value (log 2). -/
def draw (s : State) : Word × State :=
  match s.draws with
  | d :: ds => (d, { s with draws := ds })
  | [] => (freeWord s.freeIdx, { s with freeIdx := s.freeIdx + 1 })

/-- Add a record to `faults` (R240); a record already there is not added twice. -/
def raiseFault (r : FaultRecord) (s : State) : State :=
  if r ∈ s.faults then s else { s with faults := s.faults ++ [r] }

/-- `refuse(X)` (R241). -/
def refuse (x : RefuseReason) (s : State) : State := { s with refused := some x }

/-- What a stop leaves: the record of the agent that met it, or the refusal mark. -/
def stopAgent (a : Agent) (e : Stop) (s : State) : State :=
  match e with
  | .fault code info => raiseFault ⟨code, a, info⟩ s
  | .refuse x => refuse x s

/-- Taking an interrupt: exactly `ctx <- H(dir, 0)` and one event; the foreground's position stays in place (R246). -/
def enterHandler (dir : Dir) (s : State) : State := emit (.dispatch dir) { s with ctx := .handler dir 0 }

/-- The return from a handler: one event and `ctx <- FG` (R195, R247). -/
def leaveHandler (dir : Dir) (s : State) : State := { emit (.ret dir) s with ctx := .fg }

/-- `hpc <- hpc + 1` (R68, R188). -/
def advanceHpc (s : State) : State :=
  match s.ctx with
  | .fg => s
  | .handler dir hpc => { s with ctx := .handler dir (hpc + 1) }

/-- Completion of a host command with `n` argument words: `hp <- hp + 1 + n` (R102); no macro-operation is begun. -/
def hostDone (n : Nat) (s : State) : State := { s with hp := s.hp + 1 + n, mpos := 0 }

/-- Replace the register state. -/
def setRegs (g : Regs) (s : State) : State := { s with regs := g }

/-- Whether the context is a handler of direction `d` (R188, R194). -/
def inHandler (d : Dir) (s : State) : Bool :=
  match s.ctx with
  | .fg => false
  | .handler dir _ => decide (dir = d)

/-! ### Register write -/

/-- The check of a CLKGATE write (R213): the gate is not cleared while the MCLK output or the receiver runs. -/
def clkgateCheck (v : Word) (s : State) : Option Stop :=
  if v.getLsbD s.params.regMap.gate = false ∧ (s.regs.mcr.moe = true ∨ s.regs.rcsr.re = true) then
    some (.fault .fSeq (.reg .clkgate))
  else none

/-- The checks of an MCR write, in order (R215). -/
def mcrCheck (v : Word) (s : State) : Option Stop :=
  if v.getLsbD s.params.regMap.moe = true ∧ mdrLegal s = false then some (.fault .fRange (.reg .mcr))
  else if v.getLsbD s.params.regMap.moe = false ∧ s.regs.rcsr.re = true then some (.fault .fSeq (.reg .mcr))
  else none

/-- The check of an MDR write (R215): the ratio checked is the written one. -/
def mdrCheck (v : Word) (s : State) : Option Stop :=
  if s.regs.mcr.moe = true ∧ ratioLegal s.params.mdrEncOffset (mdrOf s.params.regMap v) = false then
    some (.fault .fRange (.reg .mdr))
  else none

/-- The checks of an RCSR write, in order (R216). -/
def rcsrCheck (v : Word) (s : State) : Option Stop :=
  if v.getLsbD s.params.regMap.re = true ∧ clkOk s = false then some (.fault .fSeq (.reg .rcsr))
  else if v.getLsbD s.params.regMap.re = true ∧ modeAdmitted s = false then some (.refuse .xMode)
  else if v.getLsbD s.params.regMap.bce ≠ v.getLsbD s.params.regMap.re then some (.refuse .xMode)
  else none

/-- The check of a write of RCR1, RCR2, RCR4 or RCR5: only while RE = 0 (R218). -/
def configCheck (r : Reg) (s : State) : Option Stop :=
  if s.regs.rcsr.re = true then some (.fault .fCfgLive (.reg r)) else none

/-- The check of the per-register rule (R213, R215 to R218). RDR is read-only (R98). -/
def ruleCheck (r : Reg) (v : Word) (s : State) : Option Stop :=
  match r with
  | .clkgate => clkgateCheck v s
  | .mcr => mcrCheck v s
  | .mdr => mdrCheck v s
  | .rcsr => rcsrCheck v s
  | .rcr1 => configCheck .rcr1 s
  | .rcr2 => configCheck .rcr2 s
  | .rcr4 => configCheck .rcr4 s
  | .rcr5 => configCheck .rcr5 s
  | .rdr => some (.refuse .xReg)

/-- Every check of a register write, in the order of R214; none where the write is admitted. -/
def writeCheck (r : Reg) (v : Word) (s : State) : Option Stop :=
  if r = .rdr then some (.refuse .xReg)
  else if r ≠ .clkgate ∧ s.regs.gate = false then some (.fault .fGate (.reg r))
  else if v &&& ~~~(wmask s.params.regMap r) ≠ 0 then some (.refuse .xField)
  else ruleCheck r v s

/-- RCSR's stored fields after an admitted write: the enables are stored, FEF is cleared by a 1 (R216, R33). -/
def rcsrAfter (m : RegMap) (v : Word) (old : Rcsr) : Rcsr where
  re := v.getLsbD m.re
  bce := v.getLsbD m.bce
  frie := v.getLsbD m.frie
  fef := old.fef && !v.getLsbD m.fef

/-- The register state after an admitted write (R213, R215 to R217). -/
def regsAfter (m : RegMap) (r : Reg) (v : Word) (g : Regs) : Regs :=
  match r with
  | .clkgate => { g with gate := v.getLsbD m.gate }
  | .mcr => { g with mcr := mcrOf m v }
  | .mdr => { g with mdr := mdrOf m v }
  | .rcsr => { g with rcsr := rcsrAfter m v g.rcsr }
  | .rcr1 => { g with rcr1 := rcr1Of m v }
  | .rcr2 => { g with rcr2 := rcr2Of m v }
  | .rcr4 => { g with rcr4 := rcr4Of m v }
  | .rcr5 => { g with rcr5 := rcr5Of m v }
  | .rdr => g

/-- The receive FIFO after an admitted write: emptied by the FR action of an RCSR write (R32, R216). -/
def rxqAfter (m : RegMap) (r : Reg) (v : Word) (q : List Word) : List Word :=
  if r = .rcsr ∧ v.getLsbD m.fr = true then [] else q

/-- `RegWrite(REG, VALUE)` (R210). A write that does not pass its checks changes no field. -/
def regWrite (r : Reg) (v : Word) (s : State) : Except Stop State :=
  match writeCheck r v s with
  | some e => .error e
  | none => .ok (emit (.regWr r v)
      { s with regs := regsAfter s.params.regMap r v s.regs, rxq := rxqAfter s.params.regMap r v s.rxq })

/-! ### Register read -/

/-- `view(RDR)` (R222): the oldest entry, removed; from an empty FIFO a drawn value. -/
def readRdr (s : State) : Word × State :=
  match s.rxq with
  | v :: rest => (v, { s with rxq := rest })
  | [] => draw s

/-- `view(REG)` for registers 0 to 7 (R221): the modelled fields, and drawn bits outside the mask. -/
def readFields (r : Reg) (s : State) : Word × State :=
  (regFields s.params.regMap s.regs (frf s) r ||| ((draw s).1 &&& ~~~(rmask s.params.regMap r)), (draw s).2)

/-- `RegRead(REG)` (R220). -/
def regRead (r : Reg) (s : State) : Except Stop (Word × State) :=
  if r ≠ .clkgate ∧ s.regs.gate = false then .error (.fault .fGate (.reg r))
  else if r = .rdr then .ok (readRdr s)
  else .ok (readFields r s)

/-! ### The FIFO and the destinations -/

/-- `push(e)` (R184): append, or drop the entry and set FEF. -/
def push (e : Word) (s : State) : State :=
  if s.rxq.length < s.params.rxFifoDepth then { s with rxq := s.rxq ++ [e] }
  else setRegs { s.regs with rcsr := { s.regs.rcsr with fef := true } } s

/-- Push a frame's entries in order (R182). -/
def pushAll (es : List Word) (s : State) : State :=
  match es with
  | [] => s
  | e :: rest => pushAll rest (push e s)

/-- One destination write of the drain with its event (R188), where it is admitted (R74). A destination that is none
holds no address to write, and faults like one that is not writable (log 12). -/
def writeDest (d : Option Word) (v : Word) (s : State) : Except Stop State :=
  match d with
  | none => .error (.fault .fDest (.dest none))
  | some a =>
    if destAdmitted s.params a = true then .ok (emit (.memWr a 4 v) { s with mem := s.mem.writeWord a v })
    else .error (.fault .fDest (.dest (some a)))

/-! ### How the host's and the handler's commands run -/

/-- A host command that is one atomic step (R103): refused outside the foreground (R100, D47), its completion advancing
`hp`. A fault or refusal leaves the state before it, with its record. -/
def hostAtomic (o : Opcode) (body : State → Except Stop State) (s : State) : Host.Outcome State Fault Refusal :=
  if s.ctx ≠ .fg then .next (refuse .xContext s)
  else
    match body s with
    | .error e => .next (stopAgent .host e s)
    | .ok s' => .next (hostDone o.narg s')

/-- What a clock configuration reports when its last write is made (R130, R131). -/
inductive Report where
  | rateOk (rate : Word)
  | pairOk
  | unsupported
deriving DecidableEq, Repr

/-- The report's writes: `cfg_rate`, `res` and the Status event (R130, R131). -/
def applyReport (r : Report) (s : State) : State :=
  match r with
  | .rateOk rate => emit (.status 1) { s with cfgRate := some rate.toNat, res := some 1 }
  | .pairOk => emit (.status 1) { s with cfgRate := none, res := some 1 }
  | .unsupported => emit (.status 0) { s with res := some 0 }

/-- One host step of a macro-operation (R103): the argument check made before the write (`F_RANGE` where it fails), the
register write, and the report that follows it (log 4). -/
structure MacroStep where
  check : Bool
  reg : Reg
  value : Word
  report : Option Report
deriving DecidableEq, Repr

/-- The writes of one macro step past its argument check. -/
def macroWrite (st : MacroStep) (s : State) : Except Stop State :=
  match regWrite st.reg st.value s with
  | .error e => .error e
  | .ok s' =>
    match st.report with
    | none => .ok s'
    | some r => .ok (applyReport r s')

/-- The host step at position `mpos` of a macro-operation whose expansion is `steps` (R103, R246): `hp` advances when the
last step completes. An argument check records the opcode of the command (log 5). -/
def hostMacro (o : Opcode) (steps : List MacroStep) (s : State) : Host.Outcome State Fault Refusal :=
  if s.ctx ≠ .fg then .next (refuse .xContext s)
  else
    match steps.drop s.mpos with
    | [] => .fault .noSuchPosition
    | st :: rest =>
      if st.check = false then .next (stopAgent .host (.fault .fRange (.opcode o)) s)
      else
        match macroWrite st s with
        | .error e => .next (stopAgent .host e s)
        | .ok s' => if rest = [] then .next (hostDone o.narg s') else .next { s' with mpos := s'.mpos + 1 }

/-- A handler micro-operation (R188, R190, R194): refused outside a handler of the directions it runs in (R100). What
the body did before a fault stays (R240); where it completes, `hpc` advances. -/
def handlerOp (admitted : Bool) (body : State → Except (Stop × State) State) (s : State) :
    Host.Outcome State Fault Refusal :=
  if admitted = false then .next (refuse .xContext s)
  else
    match body s with
    | .error (e, s1) => .next (stopAgent .handler e s1)
    | .ok s' => .next (advanceHpc s')

end Sys2Proof.Machine
end

