-- ==== Sys2Proof/Machine/Clock.lean ====
section
/-! DEFINITION. The Clock Configurator (41_clock.md): `gate.en`, `mclk.rate`, `mclk.pair`, and the derived clocks, which
are observables no step reads (R121). -/

namespace Sys2Proof.Machine

open Sys2Proof.Config

/-- The write of CLKGATE that sets GATE (R120). -/
def gateStep (m : RegMap) (report : Option Report) : MacroStep := ⟨true, .clkgate, gateImg m, report⟩

/-- The expansion of `mclk.rate` (R130): an unsupported rate sets the gate and reports, and that is all (D25). -/
def mclkRateSteps (m : RegMap) (off : Fin 2) (rate : Word) : List MacroStep :=
  match rateTable rate with
  | some (f, d) =>
    [gateStep m none, ⟨true, .mdr, encMdr m off f d, none⟩, ⟨true, .mcr, mcrImg m, some (.rateOk rate)⟩]
  | none => [gateStep m (some .unsupported)]

/-- The expansion of `mclk.pair` (R131): the range check follows the gate write. -/
def mclkPairSteps (m : RegMap) (off : Fin 2) (fract divide : Word) : List MacroStep :=
  [gateStep m none,
    ⟨encFits m off fract.toNat divide.toNat, .mdr, encMdr m off fract.toNat divide.toNat, none⟩,
    ⟨true, .mcr, mcrImg m, some .pairOk⟩]

/-- `gate.en` (R120). -/
def execGateEn (s : State) : Host.Outcome State Fault Refusal := hostMacro .gateEn [gateStep s.params.regMap none] s

/-- `mclk.rate RATE` (R130). -/
def execMclkRate (rate : Word) (s : State) : Host.Outcome State Fault Refusal :=
  hostMacro .mclkRate (mclkRateSteps s.params.regMap s.params.mdrEncOffset rate) s

/-- `mclk.pair FRACT, DIVIDE` (R131). -/
def execMclkPair (fract divide : Word) (s : State) : Host.Outcome State Fault Refusal :=
  hostMacro .mclkPair (mclkPairSteps s.params.regMap s.params.mdrEncOffset fract divide) s

/-- `mclk_hz(S)`, defined only for a legal ratio (R121). -/
def mclkHz (s : State) : Option Rat :=
  if mdrLegal s = true then
    some (s.params.fMclkIn * (fractL s.params.mdrEncOffset s.regs.mdr : Rat) /
      (divideL s.params.mdrEncOffset s.regs.mdr : Rat))
  else none

/-- What the MCLK pin carries: `mclk_hz(S)` exactly when `clk_ok(S)`, otherwise no clock (R121). -/
def mclkPin (s : State) : Option Rat := if clkOk s = true then mclkHz s else none

/-- `bclk_hz(S)` (R124). -/
def bclkHz (s : State) : Option Rat :=
  (mclkHz s).map fun m => m / (((s.regs.rcr2.div : Rat) + 1) * 2)

/-- BCLK runs exactly while RE = 1 (R124). -/
def bclkPin (s : State) : Option Rat := if rxActive s = true then bclkHz s else none

/-- A frame's length in bit clocks: early frame sync adds none (R125, R46). -/
def frameBits (s : State) : Nat := cfgC s * cfgB s

/-- The frame-sync width in bit clocks (R44). -/
def frameSyncBits (s : State) : Nat := s.regs.rcr4.sywd + 1

/-- `frame_hz(S)` (R125). -/
def frameHz (s : State) : Option Rat := (bclkHz s).map fun b => b / (frameBits s : Rat)

end Sys2Proof.Machine
end

