-- ==== Sys2Proof/Machine/Drain.lean ====
section
/-! DEFINITION. The FIFO Drain Protocol (44_rx_fifo_drain.md): the handler micro-operations `h.rd`, `h.fr`, `h.call`,
`h.ret`, and the fixed micro-programs of R196. -/

namespace Sys2Proof.Machine

open Sys2Proof.Config

/-- The effect of `h.rd K` (R188): the read and its event, then the destination write of K = 0 or 2. A destination fault
comes after the pop, which stays (R240, C12). -/
def hRdBody (k : DrainPos) (s : State) : Except (Stop × State) State :=
  match regRead .rdr s with
  | .error e => .error (e, s)
  | .ok (v, s1) =>
    let s2 := emit (.regRd .rdr v) s1
    match k with
    | .skip => .ok s2
    | .ch0 =>
      match writeDest s2.dest0 v s2 with
      | .error e => .error (e, s2)
      | .ok s3 => .ok s3
    | .ch1 =>
      match writeDest s2.dest1 v s2 with
      | .error e => .error (e, s2)
      | .ok s3 => .ok s3

/-- `h.rd K` (R188), in an RX handler only. -/
def execHRd (k : DrainPos) (s : State) : Host.Outcome State Fault Refusal :=
  handlerOp (inHandler .rx s) (hRdBody k) s

/-- The effect of `h.fr` (R190): only `rxq` changes; FEF and the enables keep their values (D40). -/
def hFrBody (s : State) : Except (Stop × State) State :=
  if s.regs.gate = false then .error (.fault .fGate (.reg .rcsr), s)
  else .ok (emit (.regWr .rcsr (frImg s.params.regMap)) { s with rxq := [] })

/-- `h.fr` (R190), in an RX handler only. -/
def execHFr (s : State) : Host.Outcome State Fault Refusal :=
  handlerOp (inHandler .rx s) hFrBody s

/-- The stored handle of a direction (R194). -/
def storedHandle (dir : Dir) (s : State) : Option Word :=
  match dir with
  | .rx => s.cbRx
  | .tx => s.cbTx

/-- The effect of `h.call DIR` (R194): the callback is this one event. -/
def hCallBody (dir : Dir) (s : State) : Except (Stop × State) State :=
  .ok (emit (.callback dir (storedHandle dir s)) s)

/-- `h.call DIR` (R194), in a handler of that direction. -/
def execHCall (dir : Dir) (s : State) : Host.Outcome State Fault Refusal :=
  handlerOp (inHandler dir s) (hCallBody dir) s

/-- `h.ret` (R195), in any handler. -/
def execHRet (s : State) : Host.Outcome State Fault Refusal :=
  match s.ctx with
  | .fg => .next (refuse .xContext s)
  | .handler dir _ => .next (leaveHandler dir s)

/-- The fixed micro-program of a direction (R196). -/
def microProgram : Dir → List Instr
  | .rx => [.hRd .ch0, .hRd .skip, .hRd .ch1, .hFr, .hCall .rx, .hRet]
  | .tx => [.hCall .tx, .hRet]

end Sys2Proof.Machine
end

