-- ==== Sys2Proof/Machine/Frame.lean ====
section
/-! DEFINITION. The Frame Configurator and the initialisation entry points (42_frame.md): `frame.cfg`, `begin.rate`,
`begin.pair`. -/

namespace Sys2Proof.Machine

open Sys2Proof.Config

/-- The expansion of `frame.cfg` (R140): the range check before any write, the RCSR write last (R281). -/
def frameCfgSteps (p : Params) (c b : Word) : List MacroStep :=
  [⟨frameOk p c.toNat b.toNat, .rcr2, rcr2Img p.regMap, none⟩,
    ⟨true, .rcr4, rcr4Img p.regMap c.toNat b.toNat, none⟩,
    ⟨true, .rcr5, rcr5Img p.regMap b.toNat, none⟩,
    ⟨true, .rcr1, rcr1Img p.regMap c.toNat, none⟩,
    ⟨true, .rcsr, rcsrImg p.regMap, none⟩]

/-- The expansion of `begin.rate` (R145). `mclk.rate` leaves `res = 1` exactly for a rate of the table (R130), so the
test `res = 1` between the two parts is the test whether the table has the rate. -/
def beginRateSteps (p : Params) (rate c b : Word) : List MacroStep :=
  mclkRateSteps p.regMap p.mdrEncOffset rate ++ (if (rateTable rate).isSome = true then frameCfgSteps p c b else [])

/-- The expansion of `begin.pair` (R146). -/
def beginPairSteps (p : Params) (fract divide c b : Word) : List MacroStep :=
  mclkPairSteps p.regMap p.mdrEncOffset fract divide ++ frameCfgSteps p c b

/-- `frame.cfg C, B` (R140). -/
def execFrameCfg (c b : Word) (s : State) : Host.Outcome State Fault Refusal :=
  hostMacro .frameCfg (frameCfgSteps s.params c b) s

/-- `begin.rate RATE, C, B` (R145). -/
def execBeginRate (rate c b : Word) (s : State) : Host.Outcome State Fault Refusal :=
  hostMacro .beginRate (beginRateSteps s.params rate c b) s

/-- `begin.pair FRACT, DIVIDE, C, B` (R146). -/
def execBeginPair (fract divide c b : Word) (s : State) : Host.Outcome State Fault Refusal :=
  hostMacro .beginPair (beginPairSteps s.params fract divide c b) s

end Sys2Proof.Machine
end

