-- ==== Sys2Proof/Machine/Lifecycle.lean ====
section
/-! DEFINITION. The Interrupt Lifecycle Manager (43_lifecycle.md): `start.rx`, `stop.rx`, `start.tx`, `stop.tx`, each one
atomic host step. -/

namespace Sys2Proof.Machine

/-- The effect of `start.rx` (R160), its two checks in order. -/
def startRxBody (cb d0 d1 : Word) (s : State) : Except Stop State :=
  if s.irqenRx = true then .error (.fault .fSeq (.opcode .startRx))
  else if s.regs.rcsr.re = false then .error (.fault .fSeq (.opcode .startRx))
  else .ok { s with cbRx := some cb, dest0 := some d0, dest1 := some d1, irqenRx := true }

/-- `start.rx CB, D0, D1` (R160). -/
def execStartRx (cb d0 d1 : Word) (s : State) : Host.Outcome State Fault Refusal :=
  hostAtomic .startRx (startRxBody cb d0 d1) s

/-- The effect of `stop.rx` (R162): the stored handle and destinations are kept. -/
def stopRxBody (s : State) : Except Stop State := .ok { s with irqenRx := false }

/-- `stop.rx` (R162). -/
def execStopRx (s : State) : Host.Outcome State Fault Refusal :=
  hostAtomic .stopRx stopRxBody s

/-- The effect of `start.tx` (R164). -/
def startTxBody (cb : Word) (s : State) : Except Stop State :=
  if s.irqenTx = true then .error (.fault .fSeq (.opcode .startTx))
  else .ok { s with cbTx := some cb, irqenTx := true }

/-- `start.tx CB` (R164). -/
def execStartTx (cb : Word) (s : State) : Host.Outcome State Fault Refusal :=
  hostAtomic .startTx (startTxBody cb) s

/-- The effect of `stop.tx` (R166): the stored handle is kept. -/
def stopTxBody (s : State) : Except Stop State := .ok { s with irqenTx := false }

/-- `stop.tx` (R166). -/
def execStopTx (s : State) : Host.Outcome State Fault Refusal :=
  hostAtomic .stopTx stopTxBody s

end Sys2Proof.Machine
end

