-- ==== Sys2Proof/Machine/RegAccess.lean ====
section
/-! DEFINITION. The host's direct register access (45_register_access.md): `regwr`, `regrd`, each one atomic host step. -/

namespace Sys2Proof.Machine

/-- `regwr REG, VALUE` (R210). -/
def execRegwr (reg : Reg) (value : Word) (s : State) : Host.Outcome State Fault Refusal :=
  hostAtomic .regwr (regWrite reg value) s

/-- The effect of `regrd` (R220): the event, then the result register. -/
def regrdBody (reg : Reg) (s : State) : Except Stop State :=
  match regRead reg s with
  | .error e => .error e
  | .ok (v, s1) => .ok { emit (.regRd reg v) s1 with res := some v }

/-- `regrd REG` (R220). -/
def execRegrd (reg : Reg) (s : State) : Host.Outcome State Fault Refusal :=
  hostAtomic .regrd (regrdBody reg) s

end Sys2Proof.Machine
end

