-- ==== Sys2Proof/Machine/Dispatch.lean ====
section
/-! DEFINITION. One arm per command of the opcode table. -/

namespace Sys2Proof.Machine

def exec (i : Instr) (s : State) : Host.Outcome State Fault Refusal :=
  match i with
  | .gateEn => Sys2Proof.Machine.execGateEn s
  | .mclkRate rate => Sys2Proof.Machine.execMclkRate rate s
  | .mclkPair fract divide => Sys2Proof.Machine.execMclkPair fract divide s
  | .frameCfg c b => Sys2Proof.Machine.execFrameCfg c b s
  | .beginRate rate c b => Sys2Proof.Machine.execBeginRate rate c b s
  | .beginPair fract divide c b => Sys2Proof.Machine.execBeginPair fract divide c b s
  | .startRx cb d0 d1 => Sys2Proof.Machine.execStartRx cb d0 d1 s
  | .stopRx => Sys2Proof.Machine.execStopRx s
  | .startTx cb => Sys2Proof.Machine.execStartTx cb s
  | .stopTx => Sys2Proof.Machine.execStopTx s
  | .regwr reg value => Sys2Proof.Machine.execRegwr reg value s
  | .regrd reg => Sys2Proof.Machine.execRegrd reg s
  | .hRd k => Sys2Proof.Machine.execHRd k s
  | .hFr => Sys2Proof.Machine.execHFr s
  | .hCall dir => Sys2Proof.Machine.execHCall dir s
  | .hRet => Sys2Proof.Machine.execHRet s

end Sys2Proof.Machine
end

