-- ==== Sys2Proof/Machine/Environment.lean ====
section
/-! DEFINITION. The environment's steps: the receiver (44_rx_fifo_drain.md R181 to R185) and the dispatcher
(60_exceptions.md R243 to R246). -/

namespace Sys2Proof.Machine

open Sys2Proof.Config

/-- `n` drawn words of `b` bits, word 0 first (R182). -/
def drawWords (n b : Nat) (s : State) : List Word × State :=
  match n with
  | 0 => ([], s)
  | n + 1 =>
    let r := draw s
    let rest := drawWords n b r.2
    (receivedWord b r.1 :: rest.1, rest.2)

/-- `stream(map, C, words)` (R185): the FIFO entries one frame gives, in push order. The entry between the two words of
a two-channel DUMMY_INTERLEAVED frame is drawn. -/
def streamEntries (words : List Word) (s : State) : List Word × State :=
  match s.params.rxStreamMap, words with
  | .dummyInterleaved, [w0, w1] => ([w0, (draw s).1, w1], (draw s).2)
  | .dummyInterleaved, ws => (ws, s)
  | .plain, ws => (ws, s)

/-- One receiver step: one whole frame (R182). -/
def receiveFrame (s : State) : State :=
  let ws := drawWords (cfgC s) (cfgB s) s
  let es := streamEntries ws.1 (emit (.frame ws.1) ws.2)
  pushAll es.1 es.2

/-- The receiver's turn: a step exactly when RE = 1 (R181); otherwise the turn passes (log 1). -/
def receiverTurn (s : State) : State := if rxActive s = true then receiveFrame s else s

/-- The dispatcher's turn (R244), its `tx_req` and its choice given: enabled in the foreground when an enabled line
requests; otherwise the turn passes (log 1). -/
def dispatcherTurn (txReq : Bool) (pick : Dir) (s : State) : State :=
  let txOk := s.irqenTx && txReq
  if s.ctx ≠ .fg then s
  else
    match rxOk s, txOk with
    | true, true => enterHandler pick s
    | true, false => enterHandler .rx s
    | false, true => enterHandler .tx s
    | false, false => s

end Sys2Proof.Machine
end

