-- ==== Sys2Proof/Machine/Agents.lean ====
section
/-! DEFINITION. Whose turn it is and what that agent does with it (00_scope.md R7; 70_reset_and_hazards.md R290): the
host's fetch (30_encoding.md R102), the handler's micro-program (44_rx_fifo_drain.md R196), the environment. -/

namespace Sys2Proof.Machine

open Sys2Proof.Config

/-- The next turn: the schedule's, or a free one (log 1). -/
def nextTurn (s : State) : Turn × State :=
  match s.sched with
  | t :: ts => (t, { s with sched := ts })
  | [] => (freeTurn s.freeIdx, { s with freeIdx := s.freeIdx + 1 })

/-- What the host decodes next: the words from its position on (R102). -/
def fetched (s : State) : Decoded := decode (s.program.drop s.hp)

/-- The host's turn: where it may step, it runs the command at its position, or is refused by the decoder (R98, R101);
where it may not, the turn passes (log 1). -/
def hostTurn (s : State) : Host.Outcome State Fault Refusal :=
  if hostEnabled s = true then
    match fetched s with
    | .refused x => .next (refuse x s)
    | .command i => exec i s
  else .next s

/-- The handler's turn (R196): the micro-operation at `hpc`, unless the handler has faulted (R246) or none runs. -/
def handlerTurn (s : State) : Host.Outcome State Fault Refusal :=
  match s.ctx with
  | .fg => .next s
  | .handler dir hpc =>
    if hasFaulted .handler s = true then .next s
    else
      match (microProgram dir)[hpc]? with
      | none => .fault .noSuchPosition
      | some i => exec i s

/-- The step of the agent whose turn it is. -/
def runTurn (t : Turn) (s : State) : Host.Outcome State Fault Refusal :=
  match t with
  | .host => hostTurn s
  | .handler => handlerTurn s
  | .receiver => .next (receiverTurn s)
  | .dispatcher txReq pick => .next (dispatcherTurn txReq pick s)

/-- Where a handler micro-operation stands in its micro-program (R196); none for a host command. -/
def microPosition : Instr → Option (Dir × Nat)
  | .gateEn => none
  | .mclkRate _ => none
  | .mclkPair _ _ => none
  | .frameCfg _ _ => none
  | .beginRate _ _ _ => none
  | .beginPair _ _ _ _ => none
  | .startRx _ _ _ => none
  | .stopRx => none
  | .startTx _ => none
  | .stopTx => none
  | .regwr _ _ => none
  | .regrd _ => none
  | .hRd .ch0 => some (.rx, 0)
  | .hRd .skip => some (.rx, 1)
  | .hRd .ch1 => some (.rx, 2)
  | .hFr => some (.rx, 3)
  | .hCall .rx => some (.rx, 4)
  | .hCall .tx => some (.tx, 0)
  | .hRet => some (.rx, 5)

/-- `s` with the words `ws` at the host's position and the host's turn next: the host is in the foreground, begins a
command, and is not stopped (log 6). -/
def placeHostWords (ws : List Word) (s : State) : State :=
  { s with
    program := s.program.take s.hp ++ List.replicate (s.hp - s.program.length) 0 ++ ws ++
      s.program.drop (s.hp + ws.length)
    ctx := .fg
    mpos := 0
    faults := s.faults.filter fun r => decide (r.agent ≠ .host)
    refused := none
    sched := .host :: s.sched }

/-- `s` in a handler at a micro-program position with the handler's turn next: the micro-program is fixed and in no
memory (R86), so a micro-operation is selected by the context (log 6). -/
def placeHandler (dir : Dir) (hpc : Nat) (s : State) : State :=
  { s with
    ctx := .handler dir hpc
    faults := s.faults.filter fun r => decide (r.agent ≠ .handler)
    sched := .handler :: s.sched }

/-- `s` prepared so that its very next step fetches the table word `w` and runs it. -/
def placeTableWord (nbits w : Nat) (s : State) : State :=
  match (decodeTableWord nbits w).bind microPosition with
  | some (dir, hpc) => placeHandler dir hpc s
  | none => placeHostWords (tableWords nbits w) s

end Sys2Proof.Machine
end

