-- ==== Sys2Proof/Safety.lean ====
section
/-! DEFINITION. The words claims are made in: runs and schedules (70_reset_and_hazards.md R290), weak fairness (R196, R244),
the invariant of a run (10_state.md R30, R51, R64 and what the rules cited below derive), and the whole frames the FIFO
holds (44_rx_fifo_drain.md R193). -/

namespace Sys2Proof.Machine

open Sys2Proof.Config

/-- Run the turns of a list in order (R290). -/
def runSched : List Turn → State → Host.Outcome State Fault Refusal
  | [], s => .next s
  | t :: ts, s =>
    match runTurn t s with
    | .next s' => runSched ts s'
    | .fault f => .fault f
    | .refused r => .refused r

/-- `n` consecutive host steps of one command (R103). -/
def execTimes (n : Nat) (i : Instr) (s : State) : Host.Outcome State Fault Refusal :=
  match n with
  | 0 => .next s
  | n + 1 =>
    match exec i s with
    | .next s' => execTimes n i s'
    | .fault f => .fault f
    | .refused r => .refused r

/-- The register writes of a command that is a macro-operation (R103, R107); none for an atomic command. -/
def expansion (p : Params) : Instr → List MacroStep
  | .gateEn => [gateStep p.regMap none]
  | .mclkRate rate => mclkRateSteps p.regMap p.mdrEncOffset rate
  | .mclkPair f d => mclkPairSteps p.regMap p.mdrEncOffset f d
  | .frameCfg c b => frameCfgSteps p c b
  | .beginRate rate c b => beginRateSteps p rate c b
  | .beginPair f d c b => beginPairSteps p f d c b
  | .startRx _ _ _ => []
  | .stopRx => []
  | .startTx _ => []
  | .stopTx => []
  | .regwr _ _ => []
  | .regrd _ => []
  | .hRd _ => []
  | .hFr => []
  | .hCall _ => []
  | .hRet => []

/-- Every field of several bits holds a number of its width (R10, R15). -/
def FieldsFit (m : RegMap) (g : Regs) : Prop :=
  g.mcr.mics < 2 ^ m.mics.width ∧ g.mdr.fract < 2 ^ m.fract.width ∧ g.mdr.divide < 2 ^ m.divide.width ∧
    g.rcr1.rfw < 2 ^ m.rfw.width ∧ g.rcr2.sync < 2 ^ m.sync.width ∧ g.rcr2.msel < 2 ^ m.msel.width ∧
    g.rcr2.div < 2 ^ m.div.width ∧ g.rcr4.frsz < 2 ^ m.frsz.width ∧ g.rcr4.sywd < 2 ^ m.sywd.width ∧
    g.rcr5.wnw < 2 ^ m.wnw.width ∧ g.rcr5.w0w < 2 ^ m.w0w.width ∧ g.rcr5.fbt < 2 ^ m.fbt.width

/-- Every 1 of the value stands in a field of the register (R212). -/
def Within (m : RegMap) (r : Reg) (v : Word) : Prop :=
  ∀ n, v.getLsbD n = true → ∃ f ∈ fieldsOf m r, f.lo ≤ n ∧ n < f.lo + f.width

/-- What holds in every state of a run. -/
structure RunInv (s : State) : Prop where
  /-- R8, R11: the launch parameters are ones a launch may give. -/
  parameters : paramsOk s.params = true
  /-- R10, R15: every field holds a number of its width. -/
  fields : FieldsFit s.params.regMap s.regs
  /-- R64: while RE = 1 the clock runs in the one admitted mode. -/
  receiving : s.regs.rcsr.re = true → clkOk s = true ∧ modeAdmitted s = true
  /-- R30: BCE equals RE. -/
  bitClock : s.regs.rcsr.bce = s.regs.rcsr.re
  /-- R51. -/
  fifoBound : s.rxq.length ≤ s.params.rxFifoDepth
  /-- R160, R188: a Running RX line has its handle and both destinations. -/
  rxStored : s.irqenRx = true → s.cbRx.isSome = true ∧ s.dest0.isSome = true ∧ s.dest1.isSome = true
  /-- R164, R194: a Running TX line has its handle. -/
  txStored : s.irqenTx = true → s.cbTx.isSome = true
  /-- R244, R196: an RX handler runs under a Running line, at a position of its micro-program. -/
  rxHandler : ∀ hpc, s.ctx = .handler .rx hpc → s.irqenRx = true ∧ hpc < (microProgram .rx).length
  /-- R244, R196, for TX. -/
  txHandler : ∀ hpc, s.ctx = .handler .tx hpc → s.irqenTx = true ∧ hpc < (microProgram .tx).length
  /-- R246: a handler that has faulted is never left. -/
  stuck : hasFaulted .handler s = true → s.ctx ≠ .fg
  /-- R60: data memory keeps its canonical form. -/
  memory : Memory.wf s.mem = true
  /-- R102: the host's position is inside its program or at its end. -/
  position : s.hp ≤ s.program.length
  /-- R246: the position inside a macro-operation is that of a write the command still has to make. -/
  macroPosition : s.mpos = 0 ∨ ∃ i, fetched s = .command i ∧ s.mpos < (expansion s.params i).length

/-- A state a run may start from (R270, R290): the reset state with the launch's parameters, program, memory contents and
inputs. -/
def Launch (s : State) : Prop :=
  ∃ (p : Params) (prog : List Word) (m : Memory) (ts : List Turn) (ds : List Word) (n : Nat),
    paramsOk p = true ∧ Memory.wf m = true ∧
      s = { State.reset with params := p, program := prog, mem := m, sched := ts, draws := ds, freeIdx := n }

/-- The states a run can reach. -/
inductive Reachable : State → Prop where
  | launch {s : State} : Launch s → Reachable s
  | step {s t : State} : Reachable s → Machine.step s = .next t → Reachable t

/-- A run: one state after another, each a step of the one before. -/
def IsRun (r : Nat → State) : Prop := Launch (r 0) ∧ ∀ n, step (r n) = .next (r (n + 1))

/-- Weak fairness of RX dispatch (R244): a dispatch that stays enabled is not put off for ever. No step enforces it
(log 14): a claim that needs it takes it as a hypothesis. -/
def FairRxDispatch (r : Nat → State) : Prop :=
  ∀ n, ∃ m, n ≤ m ∧ ¬ ((r m).ctx = .fg ∧ rxOk (r m) = true)

/-- Weak fairness of the handler (R196): while it has not faulted, it eventually takes its next step (log 14). -/
def FairHandler (r : Nat → State) : Prop :=
  ∀ n dir hpc, (r n).ctx = .handler dir hpc → hasFaulted .handler (r n) = false →
    ∃ m, n ≤ m ∧ ((r m).ctx ≠ .handler dir hpc ∨ hasFaulted .handler (r m) = true)

/-- One received two-channel frame as DUMMY_INTERLEAVED pushes it: channel 0, the entry between, channel 1 (R185). -/
structure Group where
  w0 : Word
  dummy : Word
  w1 : Word
deriving DecidableEq, Repr

/-- The entries of whole frames, oldest first (R193). -/
def groupEntries : List Group → List Word
  | [] => []
  | g :: gs => g.w0 :: g.dummy :: g.w1 :: groupEntries gs

/-- The FIFO holds whole frame groups, oldest first, possibly followed by a first part of one more (R193): what the depth
leaves of the frames `gs`. -/
def HoldsFrames (gs : List Group) (s : State) : Prop := s.rxq = (groupEntries gs).take s.params.rxFifoDepth

/-- The register state a completed MCLK configuration leaves (R122, R130, R131): the raw fields hold the logical pair
less the offset, MOE = 1 and MICS = 0. -/
def clockedRegs (off : Fin 2) (f d : Nat) (g : Regs) : Regs :=
  { g with
    gate := true
    mcr := ⟨true, 0⟩
    mdr := ⟨f - off.val, d - off.val⟩ }

/-- The history of a completed MCLK configuration (R130, R131). -/
def clockEvents (m : RegMap) (off : Fin 2) (f d : Nat) : List Event :=
  [.regWr .clkgate (gateImg m), .regWr .mdr (encMdr m off f d), .regWr .mcr (mcrImg m), .status 1]

/-- The register state the first four writes of a frame configuration leave (R141): the fields of the images, C - 1 and
B - 1 in the minus-one fields. -/
def framedRegs (c b : Nat) (g : Regs) : Regs :=
  { g with
    rcr1 := ⟨c - 1⟩
    rcr2 := ⟨0, 1, true, true, 1⟩
    rcr4 := ⟨c - 1, b - 1, true, true, true, true⟩
    rcr5 := ⟨b - 1, b - 1, b - 1⟩ }

/-- RCSR after the enabling write of a frame configuration (R141, R216): the three enables set, FEF kept. -/
def enabledRegs (g : Regs) : Regs := { g with rcsr := ⟨true, true, true, g.rcsr.fef⟩ }

/-- The history of the first four writes of a frame configuration (R140, R141). -/
def frameEvents (m : RegMap) (c b : Nat) : List Event :=
  [.regWr .rcr2 (rcr2Img m), .regWr .rcr4 (rcr4Img m c b), .regWr .rcr5 (rcr5Img m b), .regWr .rcr1 (rcr1Img m c)]

/-- `frame_ok(C, B)`, as R143 writes it. -/
def FrameOk (p : Params) (c b : Nat) : Prop := 1 ≤ c ∧ c ≤ p.cMax ∧ p.bMin ≤ b ∧ b ≤ p.bMax

/-- `enc_fits(f, d)`, as R122 writes it, the bounds being the fields' widths (log 19). -/
def EncFits (m : RegMap) (off : Fin 2) (f d : Nat) : Prop :=
  1 ≤ f ∧ f ≤ d ∧ f - off.val < 2 ^ m.fract.width ∧ d - off.val < 2 ^ m.divide.width

/-- A destination the drain may write, as R74 writes it, the byte addresses modulo 2^32 (R72). -/
def Admitted (p : Params) (d : Word) : Prop :=
  d.toNat % 4 = 0 ∧ ∀ i, i < 4 → memWritable p ((d.toNat + i) % 2 ^ 32) = true

/-- The destination a micro-operation stores to, where it stores (R188). -/
def storesTo (i : Instr) (s : State) : Option Word :=
  match i with
  | .hRd .ch0 => s.dest0
  | .hRd .ch1 => s.dest1
  | .hRd .skip => none
  | .gateEn => none
  | .mclkRate _ => none
  | .mclkPair _ _ => none
  | .frameCfg _ _ => none
  | .beginRate _ _ _ => none
  | .beginPair _ _ _ _ => none
  | .startRx _ _ _ => none
  | .stopRx => none
  | .startTx _ => none
  | .stopTx => none
  | .regwr _ _ => none
  | .regrd _ => none
  | .hFr => none
  | .hCall _ => none
  | .hRet => none

/-- A handler micro-operation (R97's context column). -/
def isHandlerOp : Instr → Bool
  | .hRd _ => true
  | .hFr => true
  | .hCall _ => true
  | .hRet => true
  | .gateEn => false
  | .mclkRate _ => false
  | .mclkPair _ _ => false
  | .frameCfg _ _ => false
  | .beginRate _ _ _ => false
  | .beginPair _ _ _ _ => false
  | .startRx _ _ _ => false
  | .stopRx => false
  | .startTx _ => false
  | .stopTx => false
  | .regwr _ _ => false
  | .regrd _ => false

/-- The value of the n-th draw from here (R14): the given inputs in order, then the free values (log 2). -/
def drawn (n : Nat) (s : State) : Word := (s.draws[n]?).getD (freeWord (s.freeIdx + (n - s.draws.length)))

/-- The words of the next received frame (R182): word i is the low B bits of the i-th draw (log 18), held as 32 bits. -/
def frameWords (s : State) : List Word :=
  (List.range (s.regs.rcr4.frsz + 1)).map fun i => BitVec.ofNat 32 ((drawn i s).toNat % 2 ^ (s.regs.rcr5.w0w + 1))

/-- Whether a received frame is pushed with an entry between its two words (R185). -/
def interleaves (s : State) : Bool :=
  decide (s.params.rxStreamMap = .dummyInterleaved) && decide (s.regs.rcr4.frsz + 1 = 2)

/-- The FIFO entries the next received frame gives (R185); the entry between is the draw after the words' (log 18). -/
def frameEntries (s : State) : List Word :=
  if interleaves s = true then
    match frameWords s with
    | [w0, w1] => [w0, drawn 2 s, w1]
    | ws => ws
  else frameWords s

/-- How many draws the next received frame uses (log 18). -/
def frameDraws (s : State) : Nat := s.regs.rcr4.frsz + 1 + (if interleaves s = true then 1 else 0)

/-- How many turns of a schedule are the handler's. -/
def handlerTurns (ts : List Turn) : Nat := (ts.filter fun t => decide (t = .handler)).length

/-- An event of the handler, the host or the dispatcher: every event but a received frame (R197). -/
def isFrame : Event → Bool
  | .frame _ => true
  | .regWr _ _ => false
  | .regRd _ _ => false
  | .memWr _ _ _ => false
  | .dispatch _ => false
  | .callback _ _ => false
  | .ret _ => false
  | .status _ => false

/-- The history without the received frames (R197). -/
def handlerHistory (s : State) : List Event := s.hist.filter fun e => !isFrame e

end Sys2Proof.Machine
end

