-- ==== Sys2Proof/Certificates/Slice0/Obligations.lean ====
section
/-! DEFINITION. The statements about the model, in the order of OBLIGATIONS.json. -/

open Sys2Proof Sys2Proof.Config Sys2Proof.Machine

/-! ### Encoding -/

/-- Decoding the words a well-formed command is written with gives that command, whatever words follow (R91, R92, R97,
R98). -/
def Obligations.DecodeReadsWhatEncodeWrites : Prop :=
  ∀ (i : Instr) (rest : List Word), i.wf = true → decode (encode i ++ rest) = .command i

/-- Words that decode to a command begin with exactly the words that command is written with (R91, R92, R97, R98). -/
def Obligations.DecodedWordsAreTheirEncoding : Prop :=
  ∀ (ws : List Word) (i : Instr), decode ws = .command i → i.wf = true ∧ ∃ rest, ws = encode i ++ rest

/-- The worked encodings of R108, both ways. -/
def Obligations.WorkedEncodings : Prop :=
  (encode (.beginRate 48000 2 32) = [0x05000003, 0x0000BB80, 0x00000002, 0x00000020] ∧
    decode [0x05000003, 0x0000BB80, 0x00000002, 0x00000020] = .command (.beginRate 48000 2 32)) ∧
  (encode (.regwr .rcr2 0x07000001) = [0x10050001, 0x07000001] ∧
    decode [0x10050001, 0x07000001] = .command (.regwr .rcr2 0x07000001)) ∧
  (encode (.regrd .rdr) = [0x11080000] ∧ decode [0x11080000] = .command (.regrd .rdr))

/-- The decoder's checks in the order of R98, with the reserved encodings of R99. -/
def Obligations.DecoderChecksInOrder : Prop :=
  ∀ (w : Word) (args : List Word),
    ((opcField w).toNat = 0x00 ∨ (opcField w).toNat = 0x07 ∨
        (0x0C ≤ (opcField w).toNat ∧ (opcField w).toNat ≤ 0x0F) ∨
        (0x12 ≤ (opcField w).toNat ∧ (opcField w).toNat ≤ 0x1F) ∨ 0x24 ≤ (opcField w).toNat →
      decode (w :: args) = .refused .xOpcode) ∧
    ∀ o : Opcode, opcField w = o.code →
      ((nargField w).toNat ≠ o.narg → decode (w :: args) = .refused .xOpcode) ∧
      ((nargField w).toNat = o.narg → instField w ≠ 0 → decode (w :: args) = .refused .xInstance) ∧
      ((nargField w).toNat = o.narg → instField w = 0 →
        (o = .regwr → 8 ≤ (subField w).toNat → decode (w :: args) = .refused .xReg) ∧
        (o = .regrd → 8 < (subField w).toNat → decode (w :: args) = .refused .xReg) ∧
        (o = .hRd → 2 < (subField w).toNat → decode (w :: args) = .refused .xOpcode) ∧
        (o = .hCall → 1 < (subField w).toNat → decode (w :: args) = .refused .xOpcode) ∧
        (o ≠ .regwr → o ≠ .regrd → o ≠ .hRd → o ≠ .hCall → (subField w).toNat ≠ 0 →
          decode (w :: args) = .refused .xOpcode) ∧
        ((o = .regwr ∧ (subField w).toNat < 8) ∨ (o = .regrd ∧ (subField w).toNat ≤ 8) ∨
            (o = .hRd ∧ (subField w).toNat ≤ 2) ∨ (o = .hCall ∧ (subField w).toNat ≤ 1) ∨
            (o ≠ .regwr ∧ o ≠ .regrd ∧ o ≠ .hRd ∧ o ≠ .hCall ∧ (subField w).toNat = 0) →
          (args.length < o.narg → decode (w :: args) = .refused .xOpcode) ∧
          (o.narg ≤ args.length → ∃ i : Instr, decode (w :: args) = .command i ∧ i.opcode = o ∧
            i.sub = subField w ∧ i.args = args.take o.narg)))

/-- The fixed handler micro-programs, encoded (R104). -/
def Obligations.HandlerProgramsEncoded : Prop :=
  (microProgram .rx).map encode =
    [[0x20000000], [0x20010000], [0x20020000], [0x21000000], [0x22000000], [0x23000000]] ∧
  (microProgram .tx).map encode = [[0x22010000], [0x23000000]]

/-! ### Steps of the agents -/

/-- On the host's turn, where the words at the host's position decode to a command, the step is that command's meaning;
where they do not, it is the refusal mark; where the host may not step, the turn passes with nothing changed (R57, R101,
R102, R290). Taking a turn moves `sched` or `freeIdx` and nothing else. The turn may be given or free. That turns are
taken from a schedule and may pass is the model's choice (log 1). -/
def Obligations.StepRunsTheFetchedCommand : Prop :=
  ∀ s s' : State, nextTurn s = (.host, s') →
    s' = { s with sched := s'.sched, freeIdx := s'.freeIdx } ∧
    (s.ctx = .fg → (∀ r ∈ s.faults, r.agent ≠ .host) → s.refused = none → s.hp ≠ s.program.length →
      (∀ i, decode (s.program.drop s.hp) = .command i → step s = exec i s') ∧
      (∀ x, decode (s.program.drop s.hp) = .refused x → step s = .next { s' with refused := some x })) ∧
    ((s.ctx ≠ .fg ∨ (∃ r ∈ s.faults, r.agent = .host) ∨ s.refused ≠ none ∨ s.hp = s.program.length) →
      step s = .next s')

/-- On the handler's turn the step is the meaning of the micro-operation at `hpc` of R196's fixed program; a handler
that has faulted, and the foreground, take no step (R196, R240, R246). Taking a turn moves `sched` or `freeIdx` and
nothing else. That turns are taken from a schedule and may pass is the model's choice (log 1). -/
def Obligations.StepRunsTheMicroOperation : Prop :=
  ∀ s s' : State, nextTurn s = (.handler, s') →
    s' = { s with sched := s'.sched, freeIdx := s'.freeIdx } ∧
    (∀ n i, s.ctx = .handler .rx n → (∀ r ∈ s.faults, r.agent ≠ .handler) →
      [Instr.hRd .ch0, .hRd .skip, .hRd .ch1, .hFr, .hCall .rx, .hRet][n]? = some i → step s = exec i s') ∧
    (∀ n i, s.ctx = .handler .tx n → (∀ r ∈ s.faults, r.agent ≠ .handler) →
      [Instr.hCall .tx, .hRet][n]? = some i → step s = exec i s') ∧
    ((s.ctx = .fg ∨ ∃ r ∈ s.faults, r.agent = .handler) → step s = .next s')

/-- Recording a fault: the record joins the set, no other record and nothing else changes, and from then on the agent
that raised it takes no step (R240). -/
def Obligations.FaultIsRecordedAndStopsItsAgent : Prop :=
  ∀ (r : FaultRecord) (s : State),
    (∀ x, x ∈ (raiseFault r s).faults ↔ x ∈ s.faults ∨ x = r) ∧
    raiseFault r s = { s with faults := (raiseFault r s).faults } ∧
    (r.agent = .host → ∀ t, r ∈ t.faults → runTurn .host t = .next t) ∧
    (r.agent = .handler → ∀ t, r ∈ t.faults → runTurn .handler t = .next t)

/-- A command run in the wrong context is refused X_CONTEXT, and nothing else changes (R100). -/
def Obligations.WrongContextIsRefused : Prop :=
  ∀ (s : State) (i : Instr),
    (isHandlerOp i = false → s.ctx ≠ .fg → exec i s = .next { s with refused := some .xContext }) ∧
    (isHandlerOp i = true → s.ctx = .fg → exec i s = .next { s with refused := some .xContext }) ∧
    (∀ n, s.ctx = .handler .tx n → (∀ k, exec (.hRd k) s = .next { s with refused := some .xContext }) ∧
      exec .hFr s = .next { s with refused := some .xContext } ∧
      exec (.hCall .rx) s = .next { s with refused := some .xContext }) ∧
    (∀ n, s.ctx = .handler .rx n → exec (.hCall .tx) s = .next { s with refused := some .xContext })

/-! ### Clock -/

/-- `gate.en` sets GATE, records its write and completes, and changes nothing else, in every layout a launch may give
(R120; log 19). -/
def Obligations.GateEnSetsTheGate : Prop :=
  encode .gateEn = [0x01000000] ∧ gateImg RegMap.default = 0x00008000 ∧
  ∀ s : State, s.ctx = .fg → s.mpos = 0 → regMapOk s.params.regMap = true →
    exec .gateEn s = .next
      { s with
        regs := { s.regs with gate := true }
        hist := s.hist ++ [.regWr .clkgate (gateImg s.params.regMap)]
        hp := s.hp + 1
        mpos := 0 }

/-- `mclk.rate`: the one rate of the table programs 16/125 and enables MCLK in three steps; any other rate sets the gate
and reports failure in one (R123, R130), with the parameters a launch may give (log 10, log 19). That the report falls
in the step of the last write is the model's reading of R103 (log 4). -/
def Obligations.MclkRateProgramsOrReports : Prop :=
  (∀ rate : Word, encode (.mclkRate rate) = [0x02000001, rate]) ∧ mcrImg RegMap.default = 0x40000000 ∧
  ∀ s : State, s.ctx = .fg → s.mpos = 0 → paramsOk s.params = true →
    exec (.mclkRate 48000) s = .next
      { s with
        regs := { s.regs with gate := true }
        hist := s.hist ++ [.regWr .clkgate (gateImg s.params.regMap)]
        mpos := 1 } ∧
    execTimes 3 (.mclkRate 48000) s = .next
      { s with
        regs := clockedRegs s.params.mdrEncOffset 16 125 s.regs
        cfgRate := some 48000
        res := some 1
        hist := s.hist ++ clockEvents s.params.regMap s.params.mdrEncOffset 16 125
        hp := s.hp + 2
        mpos := 0 } ∧
    ∀ rate : Word, rate ≠ 48000 → exec (.mclkRate rate) s = .next
      { s with
        regs := { s.regs with gate := true }
        res := some 0
        hist := s.hist ++ [.regWr .clkgate (gateImg s.params.regMap), .status 0]
        hp := s.hp + 2
        mpos := 0 }

/-- `mclk.pair`: an encodable pair is programmed in three steps and `cfg_rate` becomes none; any other pair faults
F_RANGE with the gate set (R131), in every layout a launch may give (log 19). That the range check falls in the step of
the write it guards, and the report in the step of the last write, is the model's reading of R103 (log 4). -/
def Obligations.MclkPairProgramsOrFaults : Prop :=
  (∀ f d : Word, encode (.mclkPair f d) = [0x03000002, f, d]) ∧
  ∀ (s : State) (f d : Word), s.ctx = .fg → s.mpos = 0 → regMapOk s.params.regMap = true →
    exec (.mclkPair f d) s = .next
      { s with
        regs := { s.regs with gate := true }
        hist := s.hist ++ [.regWr .clkgate (gateImg s.params.regMap)]
        mpos := 1 } ∧
    (EncFits s.params.regMap s.params.mdrEncOffset f.toNat d.toNat →
      execTimes 3 (.mclkPair f d) s = .next
      { s with
        regs := clockedRegs s.params.mdrEncOffset f.toNat d.toNat s.regs
        cfgRate := none
        res := some 1
        hist := s.hist ++ clockEvents s.params.regMap s.params.mdrEncOffset f.toNat d.toNat
        hp := s.hp + 3
        mpos := 0 }) ∧
    (¬ EncFits s.params.regMap s.params.mdrEncOffset f.toNat d.toNat → execTimes 2 (.mclkPair f d) s = .next
      (raiseFault ⟨.fRange, .host, .opcode .mclkPair⟩
        { s with
          regs := { s.regs with gate := true }
          hist := s.hist ++ [.regWr .clkgate (gateImg s.params.regMap)]
          mpos := 1 }))

/-- The raw MDR value of an encodable pair holds that logical pair, legally, in every layout; under the default one the
bounds are 255 and 4095 and the value is FRACT at [19:12] beside DIVIDE at [11:0] (R122). That another layout's bounds
are its field widths is the model's reading (log 19). -/
def Obligations.EncodedPairReadsBackLogically : Prop :=
  (∀ (m : RegMap) (off : Fin 2) (f d : Nat), regMapOk m = true → EncFits m off f d →
    fractL off (mdrOf m (encMdr m off f d)) = f ∧ divideL off (mdrOf m (encMdr m off f d)) = d ∧
      ratioLegal off (mdrOf m (encMdr m off f d)) = true) ∧
  (∀ (off : Fin 2) (f d : Nat),
    (EncFits RegMap.default off f d ↔ 1 ≤ f ∧ f ≤ d ∧ f - off.val ≤ 255 ∧ d - off.val ≤ 4095) ∧
    (EncFits RegMap.default off f d →
      encMdr RegMap.default off f d = BitVec.ofNat 32 ((f - off.val) * 4096 + (d - off.val)))) ∧
  encMdr RegMap.default 0 16 125 = 0x0001007D ∧ encMdr RegMap.default 1 16 125 = 0x0000F07C

/-- The derived clocks with F_MCLK_IN = 96 MHz, the table entry and DIV = 1: 12.288 MHz, 3.072 MHz, and a frame rate of
48 kHz exactly when C * B = 64 (R126). -/
def Obligations.DerivedClocksOfTheTableEntry : Prop :=
  ∀ s : State, s.params.fMclkIn = 96000000 → fractL s.params.mdrEncOffset s.regs.mdr = 16 →
    divideL s.params.mdrEncOffset s.regs.mdr = 125 → s.regs.rcr2.div = 1 →
    mclkHz s = some 12288000 ∧ bclkHz s = some 3072000 ∧
    (frameHz s = some 48000 ↔ cfgC s * cfgB s = 64) ∧
    (cfgC s = 2 → cfgB s = 16 → frameHz s = some 96000)

/-! ### Frame -/

/-- `frame.cfg`: five writes program the images and enable the receiver; each of its four faults at the step and with
the effects R140 names. The programming is that of the parameters a launch may give (log 10, log 19). -/
def Obligations.FrameCfgProgramsTheReceiver : Prop :=
  (∀ c b : Word, encode (.frameCfg c b) = [0x04000002, c, b]) ∧
  ∀ (s : State) (c b : Word), s.ctx = .fg → s.mpos = 0 →
    (¬ FrameOk s.params c.toNat b.toNat → exec (.frameCfg c b) s = .next
      (raiseFault ⟨.fRange, .host, .opcode .frameCfg⟩ s)) ∧
    (FrameOk s.params c.toNat b.toNat → s.regs.gate = false → exec (.frameCfg c b) s = .next
      (raiseFault ⟨.fGate, .host, .reg .rcr2⟩ s)) ∧
    (FrameOk s.params c.toNat b.toNat → s.regs.gate = true → s.regs.rcsr.re = true → exec (.frameCfg c b) s = .next
      (raiseFault ⟨.fCfgLive, .host, .reg .rcr2⟩ s)) ∧
    (paramsOk s.params = true → FrameOk s.params c.toNat b.toNat → s.regs.gate = true → s.regs.rcsr.re = false →
      exec (.frameCfg c b) s = .next
        { s with
          regs := { s.regs with rcr2 := ⟨0, 1, true, true, 1⟩ }
          hist := s.hist ++ [.regWr .rcr2 (rcr2Img s.params.regMap)]
          mpos := 1 } ∧
      (clkOk s = false → execTimes 5 (.frameCfg c b) s = .next
        (raiseFault ⟨.fSeq, .host, .reg .rcsr⟩
          { s with
            regs := framedRegs c.toNat b.toNat s.regs
            hist := s.hist ++ frameEvents s.params.regMap c.toNat b.toNat
            mpos := 4 })) ∧
      (clkOk s = true → execTimes 5 (.frameCfg c b) s = .next
        { s with
          regs := enabledRegs (framedRegs c.toNat b.toNat s.regs)
          hist := s.hist ++ frameEvents s.params.regMap c.toNat b.toNat ++ [.regWr .rcsr (rcsrImg s.params.regMap)]
          hp := s.hp + 3
          mpos := 0 }))

/-- After the first four writes of `frame.cfg` the mode is admitted and the minus-one fields hold C - 1 and B - 1, so
the enabling write is not refused X_MODE (R142), with the parameters a launch may give (log 10, log 19). -/
def Obligations.FrameImagesAreAdmitted : Prop :=
  ∀ (s : State) (c b : Word), s.ctx = .fg → s.mpos = 0 → paramsOk s.params = true → FrameOk s.params c.toNat b.toNat →
    s.regs.gate = true → s.regs.rcsr.re = false →
    ∃ t u, execTimes 4 (.frameCfg c b) s = .next t ∧ modeAdmitted t = true ∧
      t.regs.rcr4.frsz = c.toNat - 1 ∧ t.regs.rcr5.w0w = b.toNat - 1 ∧
      t.regs.rcr5.wnw = b.toNat - 1 ∧ t.regs.rcr1.rfw = c.toNat - 1 ∧
      exec (.frameCfg c b) t = .next u ∧ u.refused = s.refused

/-- `begin.rate`: `mclk.rate`, then on success `frame.cfg`; its failure report and its faults (R145), with the
parameters a launch may give (log 10, log 19). A begin.* argument check records the opcode of begin.* itself (the
model's reading, log 5), and the steps in which the report and the checks fall are the model's reading of R103 (log 4).
-/
def Obligations.BeginRateInitialises : Prop :=
  (∀ rate c b : Word, encode (.beginRate rate c b) = [0x05000003, rate, c, b]) ∧
  ∀ (s : State) (rate c b : Word), s.ctx = .fg → s.mpos = 0 → paramsOk s.params = true →
    (rate ≠ 48000 → exec (.beginRate rate c b) s = .next
      { s with
        regs := { s.regs with gate := true }
        res := some 0
        hist := s.hist ++ [.regWr .clkgate (gateImg s.params.regMap), .status 0]
        hp := s.hp + 4
        mpos := 0 }) ∧
    (rate = 48000 →
      exec (.beginRate rate c b) s = .next
        { s with
          regs := { s.regs with gate := true }
          hist := s.hist ++ [.regWr .clkgate (gateImg s.params.regMap)]
          mpos := 1 } ∧
      (¬ FrameOk s.params c.toNat b.toNat → execTimes 4 (.beginRate rate c b) s = .next
        (raiseFault ⟨.fRange, .host, .opcode .beginRate⟩
          { s with
            regs := clockedRegs s.params.mdrEncOffset 16 125 s.regs
            cfgRate := some 48000
            res := some 1
            hist := s.hist ++ clockEvents s.params.regMap s.params.mdrEncOffset 16 125
            mpos := 3 })) ∧
      (FrameOk s.params c.toNat b.toNat → s.regs.rcsr.re = true → execTimes 4 (.beginRate rate c b) s = .next
        (raiseFault ⟨.fCfgLive, .host, .reg .rcr2⟩
          { s with
            regs := clockedRegs s.params.mdrEncOffset 16 125 s.regs
            cfgRate := some 48000
            res := some 1
            hist := s.hist ++ clockEvents s.params.regMap s.params.mdrEncOffset 16 125
            mpos := 3 })) ∧
      (FrameOk s.params c.toNat b.toNat → s.regs.rcsr.re = false →
        execTimes 8 (.beginRate rate c b) s = .next
          { s with
            regs := enabledRegs (framedRegs c.toNat b.toNat (clockedRegs s.params.mdrEncOffset 16 125 s.regs))
            cfgRate := some 48000
            res := some 1
            hist := s.hist ++ clockEvents s.params.regMap s.params.mdrEncOffset 16 125 ++
              frameEvents s.params.regMap c.toNat b.toNat ++ [.regWr .rcsr (rcsrImg s.params.regMap)]
            hp := s.hp + 4
            mpos := 0 }))

/-- `begin.pair`: `mclk.pair`, then `frame.cfg`; its faults (R146), with the parameters a launch may give (log 10, log
19). A begin.* argument check records the opcode of begin.* itself (the model's reading, log 5), and the steps in which
the report and the checks fall are the model's reading of R103 (log 4). -/
def Obligations.BeginPairInitialises : Prop :=
  (∀ f d c b : Word, encode (.beginPair f d c b) = [0x06000004, f, d, c, b]) ∧
  ∀ (s : State) (f d c b : Word), s.ctx = .fg → s.mpos = 0 → paramsOk s.params = true →
    exec (.beginPair f d c b) s = .next
      { s with
        regs := { s.regs with gate := true }
        hist := s.hist ++ [.regWr .clkgate (gateImg s.params.regMap)]
        mpos := 1 } ∧
    (¬ EncFits s.params.regMap s.params.mdrEncOffset f.toNat d.toNat → execTimes 2 (.beginPair f d c b) s = .next
      (raiseFault ⟨.fRange, .host, .opcode .beginPair⟩
        { s with
          regs := { s.regs with gate := true }
          hist := s.hist ++ [.regWr .clkgate (gateImg s.params.regMap)]
          mpos := 1 })) ∧
    (EncFits s.params.regMap s.params.mdrEncOffset f.toNat d.toNat → ¬ FrameOk s.params c.toNat b.toNat →
      execTimes 4 (.beginPair f d c b) s = .next
        (raiseFault ⟨.fRange, .host, .opcode .beginPair⟩
          { s with
            regs := clockedRegs s.params.mdrEncOffset f.toNat d.toNat s.regs
            cfgRate := none
            res := some 1
            hist := s.hist ++ clockEvents s.params.regMap s.params.mdrEncOffset f.toNat d.toNat
            mpos := 3 })) ∧
    (EncFits s.params.regMap s.params.mdrEncOffset f.toNat d.toNat → FrameOk s.params c.toNat b.toNat →
      s.regs.rcsr.re = true → execTimes 4 (.beginPair f d c b) s = .next
        (raiseFault ⟨.fCfgLive, .host, .reg .rcr2⟩
          { s with
            regs := clockedRegs s.params.mdrEncOffset f.toNat d.toNat s.regs
            cfgRate := none
            res := some 1
            hist := s.hist ++ clockEvents s.params.regMap s.params.mdrEncOffset f.toNat d.toNat
            mpos := 3 })) ∧
    (EncFits s.params.regMap s.params.mdrEncOffset f.toNat d.toNat → FrameOk s.params c.toNat b.toNat →
      s.regs.rcsr.re = false → execTimes 8 (.beginPair f d c b) s = .next
        { s with
          regs := enabledRegs
            (framedRegs c.toNat b.toNat (clockedRegs s.params.mdrEncOffset f.toNat d.toNat s.regs))
          cfgRate := none
          res := some 1
          hist := s.hist ++ clockEvents s.params.regMap s.params.mdrEncOffset f.toNat d.toNat ++
            frameEvents s.params.regMap c.toNat b.toNat ++ [.regWr .rcsr (rcsrImg s.params.regMap)]
          hp := s.hp + 5
          mpos := 0 })

/-! ### Lifecycle -/

/-- `start.rx` stores the handle and both destinations and enables the line, unless RX is Running or the receiver is not
enabled, which fault F_SEQ (R160). -/
def Obligations.StartRxStoresAndEnables : Prop :=
  (∀ cb d0 d1 : Word, encode (.startRx cb d0 d1) = [0x08000003, cb, d0, d1]) ∧
  ∀ (s : State) (cb d0 d1 : Word), s.ctx = .fg →
    (s.irqenRx = true ∨ s.regs.rcsr.re = false → exec (.startRx cb d0 d1) s = .next
      (raiseFault ⟨.fSeq, .host, .opcode .startRx⟩ s)) ∧
    (s.irqenRx = false → s.regs.rcsr.re = true → exec (.startRx cb d0 d1) s = .next
      { s with
        cbRx := some cb
        dest0 := some d0
        dest1 := some d1
        irqenRx := true
        hp := s.hp + 4
        mpos := 0 })

/-- `start.tx` stores the handle and enables the line, unless TX is Running, which faults F_SEQ (R164). -/
def Obligations.StartTxStoresAndEnables : Prop :=
  (∀ cb : Word, encode (.startTx cb) = [0x0A000001, cb]) ∧
  ∀ (s : State) (cb : Word), s.ctx = .fg →
    (s.irqenTx = true → exec (.startTx cb) s = .next (raiseFault ⟨.fSeq, .host, .opcode .startTx⟩ s)) ∧
    (s.irqenTx = false → exec (.startTx cb) s = .next
      { s with cbTx := some cb, irqenTx := true, hp := s.hp + 2, mpos := 0 })

/-- `stop.rx` and `stop.tx` disable their line and keep everything stored (R162, R166). -/
def Obligations.StopDisablesTheLineOnly : Prop :=
  encode .stopRx = [0x09000000] ∧ encode .stopTx = [0x0B000000] ∧
  ∀ s : State, s.ctx = .fg →
    exec .stopRx s = .next { s with irqenRx := false, hp := s.hp + 1, mpos := 0 } ∧
    exec .stopTx s = .next { s with irqenTx := false, hp := s.hp + 1, mpos := 0 }

/-! ### Register access -/

/-- While the gate is closed every access to registers 1 to 8 by any agent faults F_GATE and has no effect: `regwr`,
`regrd`, the register writes of the macro-operations, `h.rd` and `h.fr`. CLKGATE itself can be read and written (R211).
-/
def Obligations.ClosedGateFaultsEveryAccess : Prop :=
  ∀ s : State, s.regs.gate = false →
    (s.ctx = .fg →
      (∀ r v, r ≠ .clkgate → r ≠ .rdr → exec (.regwr r v) s = .next (raiseFault ⟨.fGate, .host, .reg r⟩ s)) ∧
      (∀ r, r ≠ .clkgate → exec (.regrd r) s = .next (raiseFault ⟨.fGate, .host, .reg r⟩ s)) ∧
      (∀ (i : Instr) (st : MacroStep), (expansion s.params i)[s.mpos]? = some st → st.check = true →
        st.reg ≠ .clkgate → exec i s = .next (raiseFault ⟨.fGate, .host, .reg st.reg⟩ s)) ∧
      (∃ t, exec (.regrd .clkgate) s = .next t ∧ t.faults = s.faults ∧ t.hp = s.hp + 1) ∧
      (∀ v : Word, v.getLsbD s.params.regMap.gate = true → ∃ t, exec (.regwr .clkgate v) s = .next t ∧ t.faults = s.faults ∧
        t.regs.gate = true)) ∧
    (∀ n, s.ctx = .handler .rx n →
      (∀ k, exec (.hRd k) s = .next (raiseFault ⟨.fGate, .handler, .reg .rdr⟩ s)) ∧
      exec .hFr s = .next (raiseFault ⟨.fGate, .handler, .reg .rcsr⟩ s))

/-- The first checks of a `regwr`, in R214's order: RDR is refused X_REG before anything, F_GATE comes before X_FIELD,
and a 1 outside the register's fields is refused X_FIELD before the register's own rule (R98, R212, R214). That `exec`
refuses a `regwr` of RDR, which no words decode to, as the decoder does is the model's choice (log 13). -/
def Obligations.RegwrChecksInOrder : Prop :=
  ∀ (s : State) (v : Word), s.ctx = .fg →
    exec (.regwr .rdr v) s = .next { s with refused := some .xReg } ∧
    (∀ r, r ≠ .rdr → r ≠ .clkgate → s.regs.gate = false →
      exec (.regwr r v) s = .next (raiseFault ⟨.fGate, .host, .reg r⟩ s)) ∧
    (s.regs.gate = true → ∀ r, r ≠ .rdr → r ≠ .clkgate → ¬ Within s.params.regMap r v →
      exec (.regwr r v) s = .next { s with refused := some .xField })

/-- A write of CLKGATE (R213). -/
def Obligations.RegwrClkgate : Prop :=
  RegMap.default.gate = 15 ∧
  ∀ (s : State) (m : RegMap) (v : Word), s.params.regMap = m → s.ctx = .fg →
    (v.getLsbD m.gate = false ∧ (s.regs.mcr.moe = true ∨ s.regs.rcsr.re = true) →
      exec (.regwr .clkgate v) s = .next (raiseFault ⟨.fSeq, .host, .reg .clkgate⟩ s)) ∧
    (v.getLsbD m.gate = true ∨ (s.regs.mcr.moe = false ∧ s.regs.rcsr.re = false) →
      exec (.regwr .clkgate v) s = .next
        { s with
          regs := { s.regs with gate := v.getLsbD m.gate }
          hist := s.hist ++ [.regWr .clkgate v]
          hp := s.hp + 2
          mpos := 0 })

/-- A write of MCR or MDR with its admitted bits alone (R215). -/
def Obligations.RegwrClockRegisters : Prop :=
  (RegMap.default.moe = 30 ∧ RegMap.default.mics = ⟨24, 2⟩ ∧ RegMap.default.fract = ⟨12, 8⟩ ∧
    RegMap.default.divide = ⟨0, 12⟩) ∧
  ∀ (s : State) (m : RegMap) (v : Word), s.params.regMap = m → s.ctx = .fg → s.regs.gate = true →
    (Within m .mcr v →
      (v.getLsbD m.moe = true → mdrLegal s = false → exec (.regwr .mcr v) s = .next
        (raiseFault ⟨.fRange, .host, .reg .mcr⟩ s)) ∧
      (v.getLsbD m.moe = false → s.regs.rcsr.re = true → exec (.regwr .mcr v) s = .next
        (raiseFault ⟨.fSeq, .host, .reg .mcr⟩ s)) ∧
      ((v.getLsbD m.moe = true ∧ mdrLegal s = true) ∨ (v.getLsbD m.moe = false ∧ s.regs.rcsr.re = false) →
        exec (.regwr .mcr v) s = .next
          { s with
            regs := { s.regs with mcr := ⟨v.getLsbD m.moe, getField m.mics v⟩ }
            hist := s.hist ++ [.regWr .mcr v]
            hp := s.hp + 2
            mpos := 0 })) ∧
    (Within m .mdr v →
      (s.regs.mcr.moe = true →
        ratioLegal s.params.mdrEncOffset ⟨getField m.fract v, getField m.divide v⟩ = false →
        exec (.regwr .mdr v) s = .next (raiseFault ⟨.fRange, .host, .reg .mdr⟩ s)) ∧
      (s.regs.mcr.moe = false ∨
          ratioLegal s.params.mdrEncOffset ⟨getField m.fract v, getField m.divide v⟩ = true →
        exec (.regwr .mdr v) s = .next
          { s with
            regs := { s.regs with mdr := ⟨getField m.fract v, getField m.divide v⟩ }
            hist := s.hist ++ [.regWr .mdr v]
            hp := s.hp + 2
            mpos := 0 }))

/-- A write of RCSR with its admitted bits alone: the checks in order, then the enables stored, FEF cleared by a 1, the
FIFO emptied by FR, FRF ignored (R216). -/
def Obligations.RegwrRcsr : Prop :=
  (RegMap.default.re = 31 ∧ RegMap.default.bce = 28 ∧ RegMap.default.fr = 25 ∧ RegMap.default.fef = 18 ∧
    RegMap.default.frf = 16 ∧ RegMap.default.frie = 8) ∧
  ∀ (s : State) (m : RegMap) (v : Word), s.params.regMap = m → s.ctx = .fg → s.regs.gate = true → Within m .rcsr v →
    (v.getLsbD m.re = true → clkOk s = false → exec (.regwr .rcsr v) s = .next
      (raiseFault ⟨.fSeq, .host, .reg .rcsr⟩ s)) ∧
    (v.getLsbD m.re = true → clkOk s = true → modeAdmitted s = false → exec (.regwr .rcsr v) s = .next
      { s with refused := some .xMode }) ∧
    ((v.getLsbD m.re = false ∨ (clkOk s = true ∧ modeAdmitted s = true)) → v.getLsbD m.bce ≠ v.getLsbD m.re →
      exec (.regwr .rcsr v) s = .next { s with refused := some .xMode }) ∧
    ((v.getLsbD m.re = false ∨ (clkOk s = true ∧ modeAdmitted s = true)) → v.getLsbD m.bce = v.getLsbD m.re →
      exec (.regwr .rcsr v) s = .next
        { s with
          regs := { s.regs with
            rcsr := ⟨v.getLsbD m.re, v.getLsbD m.bce, v.getLsbD m.frie,
              if v.getLsbD m.fef = true then false else s.regs.rcsr.fef⟩ }
          rxq := if v.getLsbD m.fr = true then [] else s.rxq
          hist := s.hist ++ [.regWr .rcsr v]
          hp := s.hp + 2
          mpos := 0 })

/-- A write of RCR1, RCR2, RCR4 or RCR5 with its admitted bits alone: F_CFG_LIVE while RE = 1 (R218), otherwise the
fields stored (R217). -/
def Obligations.RegwrConfigRegisters : Prop :=
  (RegMap.default.rfw = ⟨0, 3⟩ ∧
    (RegMap.default.sync = ⟨30, 2⟩ ∧ RegMap.default.msel = ⟨26, 2⟩ ∧ RegMap.default.bcp = 25 ∧
      RegMap.default.bcd = 24 ∧ RegMap.default.div = ⟨0, 8⟩) ∧
    (RegMap.default.frsz = ⟨16, 4⟩ ∧ RegMap.default.sywd = ⟨8, 5⟩ ∧ RegMap.default.mf = 4 ∧ RegMap.default.fse = 3 ∧
      RegMap.default.fsp = 1 ∧ RegMap.default.fsd = 0) ∧
    RegMap.default.wnw = ⟨24, 5⟩ ∧ RegMap.default.w0w = ⟨16, 5⟩ ∧ RegMap.default.fbt = ⟨8, 5⟩) ∧
  ∀ (s : State) (m : RegMap) (v : Word), s.params.regMap = m → s.ctx = .fg → s.regs.gate = true →
    (s.regs.rcsr.re = true → ∀ r, r = .rcr1 ∨ r = .rcr2 ∨ r = .rcr4 ∨ r = .rcr5 → Within m r v →
      exec (.regwr r v) s = .next (raiseFault ⟨.fCfgLive, .host, .reg r⟩ s)) ∧
    (s.regs.rcsr.re = false →
      (Within m .rcr1 v → exec (.regwr .rcr1 v) s = .next
        { s with
          regs := { s.regs with rcr1 := ⟨getField m.rfw v⟩ }
          hist := s.hist ++ [.regWr .rcr1 v], hp := s.hp + 2, mpos := 0 }) ∧
      (Within m .rcr2 v → exec (.regwr .rcr2 v) s = .next
        { s with
          regs := { s.regs with
            rcr2 := ⟨getField m.sync v, getField m.msel v, v.getLsbD m.bcp, v.getLsbD m.bcd, getField m.div v⟩ }
          hist := s.hist ++ [.regWr .rcr2 v], hp := s.hp + 2, mpos := 0 }) ∧
      (Within m .rcr4 v → exec (.regwr .rcr4 v) s = .next
        { s with
          regs := { s.regs with
            rcr4 := ⟨getField m.frsz v, getField m.sywd v, v.getLsbD m.mf, v.getLsbD m.fse, v.getLsbD m.fsp,
              v.getLsbD m.fsd⟩ }
          hist := s.hist ++ [.regWr .rcr4 v], hp := s.hp + 2, mpos := 0 }) ∧
      (Within m .rcr5 v → exec (.regwr .rcr5 v) s = .next
        { s with
          regs := { s.regs with rcr5 := ⟨getField m.wnw v, getField m.w0w v, getField m.fbt v⟩ }
          hist := s.hist ++ [.regWr .rcr5 v], hp := s.hp + 2, mpos := 0 }))

/-- `regrd` of registers 0 to 7: the modelled fields at their positions, the draw's bits everywhere else, and one draw
used (R221). The statement holds for every value of the draw, in every layout a launch may give (log 19). -/
def Obligations.RegrdReadsTheFields : Prop :=
  ∀ (s : State) (m : RegMap) (r : Reg), s.params.regMap = m → regMapOk m = true → FieldsFit m s.regs → s.ctx = .fg →
    r ≠ .rdr → (r ≠ .clkgate → s.regs.gate = true) →
    ∃ v : Word,
      exec (.regrd r) s = .next
        { s with
          res := some v
          hist := s.hist ++ [.regRd r v]
          draws := s.draws.tail
          freeIdx := if s.draws = [] then s.freeIdx + 1 else s.freeIdx
          hp := s.hp + 1
          mpos := 0 } ∧
      (∀ n, n < 32 → (rmask m r).getLsbD n = false → v.getLsbD n = (draw s).1.getLsbD n) ∧
      match r with
      | .clkgate => v.getLsbD m.gate = s.regs.gate
      | .mcr => v.getLsbD m.moe = s.regs.mcr.moe ∧ getField m.mics v = s.regs.mcr.mics
      | .mdr => getField m.fract v = s.regs.mdr.fract ∧ getField m.divide v = s.regs.mdr.divide
      | .rcsr => v.getLsbD m.re = s.regs.rcsr.re ∧ v.getLsbD m.bce = s.regs.rcsr.bce ∧ v.getLsbD m.fr = false ∧
          v.getLsbD m.fef = s.regs.rcsr.fef ∧ v.getLsbD m.frf = decide (s.rxq.length > s.regs.rcr1.rfw) ∧
          v.getLsbD m.frie = s.regs.rcsr.frie
      | .rcr1 => getField m.rfw v = s.regs.rcr1.rfw
      | .rcr2 => getField m.sync v = s.regs.rcr2.sync ∧ getField m.msel v = s.regs.rcr2.msel ∧
          v.getLsbD m.bcp = s.regs.rcr2.bcp ∧ v.getLsbD m.bcd = s.regs.rcr2.bcd ∧ getField m.div v = s.regs.rcr2.div
      | .rcr4 => getField m.frsz v = s.regs.rcr4.frsz ∧ getField m.sywd v = s.regs.rcr4.sywd ∧
          v.getLsbD m.mf = s.regs.rcr4.mf ∧ v.getLsbD m.fse = s.regs.rcr4.fse ∧ v.getLsbD m.fsp = s.regs.rcr4.fsp ∧
          v.getLsbD m.fsd = s.regs.rcr4.fsd
      | .rcr5 => getField m.wnw v = s.regs.rcr5.wnw ∧ getField m.w0w v = s.regs.rcr5.w0w ∧
          getField m.fbt v = s.regs.rcr5.fbt
      | .rdr => True

/-- A read of RDR, by `regrd` and by the drain alike, removes and returns the oldest entry; of an empty FIFO it returns
a draw and removes nothing (R222). -/
def Obligations.RdrReadTakesTheOldestEntry : Prop :=
  ∀ s : State, s.regs.gate = true →
    (∀ v rest, s.rxq = v :: rest →
      (s.ctx = .fg → exec (.regrd .rdr) s = .next
        { s with
          rxq := rest, res := some v, hist := s.hist ++ [.regRd .rdr v], hp := s.hp + 1, mpos := 0 }) ∧
      (∀ n, s.ctx = .handler .rx n → exec (.hRd .skip) s = .next
        { s with rxq := rest, hist := s.hist ++ [.regRd .rdr v], ctx := .handler .rx (n + 1) })) ∧
    (s.rxq = [] →
      (s.ctx = .fg → exec (.regrd .rdr) s = .next
        { s with
          res := some (draw s).1
          hist := s.hist ++ [.regRd .rdr (draw s).1]
          draws := s.draws.tail
          freeIdx := if s.draws = [] then s.freeIdx + 1 else s.freeIdx
          hp := s.hp + 1
          mpos := 0 }) ∧
      (∀ n, s.ctx = .handler .rx n → exec (.hRd .skip) s = .next
        { s with
          hist := s.hist ++ [.regRd .rdr (draw s).1]
          draws := s.draws.tail
          freeIdx := if s.draws = [] then s.freeIdx + 1 else s.freeIdx
          ctx := .handler .rx (n + 1) }))

/-- Read-back: a `regrd` right after an admitted `regwr` returns the written value in the register's read bits, but for
FR, FEF and FRF of RCSR; CLKGATE reads back GATE's bit (R223), in every layout a launch may give (log 19). -/
def Obligations.RegisterReadsBackWhatWasWritten : Prop :=
  ∀ (s : State) (m : RegMap) (r : Reg) (v : Word), s.params.regMap = m → regMapOk m = true → s.ctx = .fg →
    writeCheck r v s = none →
    ∃ t u w, exec (.regwr r v) s = .next t ∧ t.faults = s.faults ∧ t.refused = s.refused ∧
      (t.regs.gate = true ∨ r = .clkgate) ∧ exec (.regrd r) t = .next u ∧ u.res = some w ∧
      (r ≠ .rcsr → w &&& rmask m r = v &&& rmask m r) ∧
      (r = .rcsr → w.getLsbD m.re = v.getLsbD m.re ∧ w.getLsbD m.bce = v.getLsbD m.bce ∧
        w.getLsbD m.frie = v.getLsbD m.frie ∧ w.getLsbD m.fr = false ∧ w.getLsbD m.fef = t.regs.rcsr.fef ∧
        w.getLsbD m.frf = decide (t.rxq.length > t.regs.rcr1.rfw))

/-! ### Drain -/

/-- `h.rd K` in an RX handler: the closed gate, the read and its event, the destination write of the channel reads, and
F_DEST after the pop for a destination that is not admitted; X_CONTEXT outside an RX handler (R188, R74). -/
def Obligations.HRdReadsAndStores : Prop :=
  encode (.hRd .ch0) = [0x20000000] ∧ encode (.hRd .skip) = [0x20010000] ∧ encode (.hRd .ch1) = [0x20020000] ∧
  ∀ s : State,
    ((∀ n, s.ctx ≠ .handler .rx n) → ∀ k, exec (.hRd k) s = .next { s with refused := some .xContext }) ∧
    ∀ n, s.ctx = .handler .rx n →
      (s.regs.gate = false → ∀ k, exec (.hRd k) s = .next (raiseFault ⟨.fGate, .handler, .reg .rdr⟩ s)) ∧
      (s.regs.gate = true → ∃ (v : Word) (s1 : State),
        ((∃ rest, s.rxq = v :: rest ∧ s1 = { s with rxq := rest }) ∨
          (s.rxq = [] ∧ v = (draw s).1 ∧ s1 = (draw s).2)) ∧
        exec (.hRd .skip) s = .next
          { s1 with hist := s.hist ++ [.regRd .rdr v], ctx := .handler .rx (n + 1) } ∧
        ∀ k d, (k = .ch0 ∧ s.dest0 = some d) ∨ (k = .ch1 ∧ s.dest1 = some d) →
          (Admitted s.params d → exec (.hRd k) s = .next
            { s1 with
              hist := s.hist ++ [.regRd .rdr v, .memWr d 4 v]
              mem := s.mem.writeWord d v
              ctx := .handler .rx (n + 1) }) ∧
          (¬ Admitted s.params d → exec (.hRd k) s = .next
            (raiseFault ⟨.fDest, .handler, .dest (some d)⟩ { s1 with hist := s.hist ++ [.regRd .rdr v] })))

/-- `h.fr` in an RX handler empties the FIFO, so that no request is left, and changes nothing else; F_GATE, X_CONTEXT
(R190). -/
def Obligations.HFrEmptiesTheFifo : Prop :=
  encode .hFr = [0x21000000] ∧ frImg RegMap.default = 0x02000000 ∧
  ∀ s : State,
    ((∀ n, s.ctx ≠ .handler .rx n) → exec .hFr s = .next { s with refused := some .xContext }) ∧
    ∀ n, s.ctx = .handler .rx n →
      (s.regs.gate = false → exec .hFr s = .next (raiseFault ⟨.fGate, .handler, .reg .rcsr⟩ s)) ∧
      (s.regs.gate = true → exec .hFr s = .next
        { s with
          rxq := []
          hist := s.hist ++ [.regWr .rcsr (frImg s.params.regMap)]
          ctx := .handler .rx (n + 1) } ∧
        ∀ t, exec .hFr s = .next t → frf t = false ∧ rxReq t = false)

/-- `h.call DIR` in a handler of that direction records the stored handle and changes nothing else; X_CONTEXT otherwise
(R194). -/
def Obligations.HCallRecordsTheCallback : Prop :=
  encode (.hCall .rx) = [0x22000000] ∧ encode (.hCall .tx) = [0x22010000] ∧
  ∀ s : State,
    (∀ d, (∀ n, s.ctx ≠ .handler d n) → exec (.hCall d) s = .next { s with refused := some .xContext }) ∧
    (∀ n, s.ctx = .handler .rx n → exec (.hCall .rx) s = .next
      { s with hist := s.hist ++ [.callback .rx s.cbRx], ctx := .handler .rx (n + 1) }) ∧
    (∀ n, s.ctx = .handler .tx n → exec (.hCall .tx) s = .next
      { s with hist := s.hist ++ [.callback .tx s.cbTx], ctx := .handler .tx (n + 1) })

/-- `h.ret` returns to the foreground and changes nothing else; X_CONTEXT in the foreground (R195). -/
def Obligations.HRetReturnsToTheForeground : Prop :=
  encode .hRet = [0x23000000] ∧
  ∀ s : State,
    (s.ctx = .fg → exec .hRet s = .next { s with refused := some .xContext }) ∧
    (∀ d n, s.ctx = .handler d n → exec .hRet s = .next { s with hist := s.hist ++ [.ret d], ctx := .fg })

/-- `MemWrite(addr, 4, v)` is little-endian, its byte addresses modulo 2^32; every other byte of memory reads as before
(R72). -/
def Obligations.MemWriteIsLittleEndian : Prop :=
  ∀ (m : Memory) (a v : Word),
    (m.writeWord a v).readByte a.toNat = some (v.extractLsb' 0 8) ∧
    (m.writeWord a v).readByte ((a.toNat + 1) % 2 ^ 32) = some (v.extractLsb' 8 8) ∧
    (m.writeWord a v).readByte ((a.toNat + 2) % 2 ^ 32) = some (v.extractLsb' 16 8) ∧
    (m.writeWord a v).readByte ((a.toNat + 3) % 2 ^ 32) = some (v.extractLsb' 24 8) ∧
    ∀ x, x ≠ a.toNat → x ≠ (a.toNat + 1) % 2 ^ 32 → x ≠ (a.toNat + 2) % 2 ^ 32 → x ≠ (a.toNat + 3) % 2 ^ 32 →
      (m.writeWord a v).readByte x = m.readByte x

/-! ### The environment -/

/-- One receiver turn. While RE = 1: word i of the frame is the low B bits of the i-th draw, for i up to C - 1; the
entries are the words, with the next draw between the two of a two-channel DUMMY_INTERLEAVED frame; they are pushed in
order, those the depth has no room for dropped with FEF set; nothing else changes but the inputs used (R182, R184,
R185). The statement holds for every value of the draws; their order is the model's choice (log 18). While RE = 0 the
receiver takes no step (R181): that its turn then passes is the model's choice (log 1). -/
def Obligations.ReceiverPushesOneFrame : Prop :=
  ∀ s : State,
    (s.regs.rcsr.re = false → runTurn .receiver s = .next s) ∧
    (s.regs.rcsr.re = true → s.rxq.length ≤ s.params.rxFifoDepth →
      runTurn .receiver s = .next
        { s with
          rxq := (s.rxq ++ frameEntries s).take s.params.rxFifoDepth
          regs := { s.regs with
            rcsr := { s.regs.rcsr with
              fef := decide (s.params.rxFifoDepth < s.rxq.length + (frameEntries s).length) || s.regs.rcsr.fef } }
          hist := s.hist ++ [.frame (frameWords s)]
          draws := s.draws.drop (frameDraws s)
          freeIdx := s.freeIdx + (frameDraws s - s.draws.length) })

/-- Under DUMMY_INTERLEAVED with two channels the FIFO goes on holding the frames received, oldest first, as far as its
depth allows, and with depth 8 its length is 0, 3, 6 or 8 (R193, R198). -/
def Obligations.ReceiverKeepsWholeFrames : Prop :=
  (∀ (s : State) (gs : List Group), s.params.rxStreamMap = .dummyInterleaved → s.regs.rcr4.frsz + 1 = 2 →
    s.regs.rcsr.re = true → HoldsFrames gs s →
    ∃ t g, runTurn .receiver s = .next t ∧ HoldsFrames (gs ++ [g]) t ∧ t.hist = s.hist ++ [.frame [g.w0, g.w1]] ∧
      g.w0.toNat < 2 ^ (s.regs.rcr5.w0w + 1) ∧ g.w1.toNat < 2 ^ (s.regs.rcr5.w0w + 1)) ∧
  (∀ (s : State) (gs : List Group), s.params.rxFifoDepth = 8 → HoldsFrames gs s →
    s.rxq.length = 0 ∨ s.rxq.length = 3 ∨ s.rxq.length = 6 ∨ s.rxq.length = 8)

/-- The dispatcher's turn: in the foreground an enabled line that requests starts its handler, with exactly `ctx` and
one event changed, the choice free when both request; otherwise, and inside a handler, nothing (R244, R246, R247). -/
def Obligations.DispatcherStartsAHandler : Prop :=
  ∀ (s : State) (txReq : Bool) (pick : Dir),
    (s.ctx ≠ .fg → runTurn (.dispatcher txReq pick) s = .next s) ∧
    (s.ctx = .fg →
      (rxOk s = true ↔ (s.irqenRx = true ∧ s.regs.rcsr.frie = true ∧ s.rxq.length > s.regs.rcr1.rfw)) ∧
      (rxOk s = false → (s.irqenTx && txReq) = false → runTurn (.dispatcher txReq pick) s = .next s) ∧
      (∀ d, (d = .rx ∧ rxOk s = true ∧ ((s.irqenTx && txReq) = false ∨ pick = .rx)) ∨
          (d = .tx ∧ (s.irqenTx && txReq) = true ∧ (rxOk s = false ∨ pick = .tx)) →
        runTurn (.dispatcher txReq pick) s = .next
          { s with ctx := .handler d 0, hist := s.hist ++ [.dispatch d] }))

/-- A TX handler run leaves the foreground exactly where it was: the host's position, its place inside a macro-operation
and everything else but the history (R246, R247). -/
def Obligations.TxHandlerRunRestoresTheForeground : Prop :=
  ∀ s : State, s.ctx = .fg → s.irqenTx = true → (∀ r ∈ s.faults, r.agent ≠ .handler) →
    runSched [.dispatcher true .tx, .handler, .handler] s = .next
      { s with hist := s.hist ++ [.dispatch .tx, .callback .tx s.cbTx, .ret .tx] }

/-! ### Whole runs -/

/-- Reset is a launch state, and every launch state holds the values of R270, with data memory and the parameters as the
launch gives them; the derived predicates are false in it (R270). -/
def Obligations.ResetState : Prop :=
  Launch State.reset ∧
  ∀ s, Launch s →
    s.regs = ⟨false, ⟨false, 0⟩, ⟨0, 0⟩, ⟨false, false, false, false⟩, ⟨0⟩, ⟨0, 0, false, false, 0⟩,
      ⟨0, 0, false, false, false, false⟩, ⟨0, 0, 0⟩⟩ ∧
    s.rxq = [] ∧ s.irqenRx = false ∧ s.irqenTx = false ∧ s.cbRx = none ∧ s.cbTx = none ∧ s.dest0 = none ∧
    s.dest1 = none ∧ s.cfgRate = none ∧ s.res = none ∧ s.ctx = .fg ∧ s.hp = 0 ∧ s.hist = [] ∧ s.faults = [] ∧
    s.refused = none ∧ modeAdmitted s = false ∧ clkOk s = false ∧ rxReq s = false ∧ rxActive s = false ∧
    (mdrLegal s = true ↔ s.params.mdrEncOffset = 1)

/-- The invariant holds at reset and in every state a run may start from. -/
def Obligations.LaunchSatisfiesTheInvariant : Prop :=
  RunInv State.reset ∧ ∀ s, Launch s → RunInv s

/-- Every step of the machine keeps the invariant (R64, R219 and the rules RunInv cites). -/
def Obligations.EveryStepKeepsTheInvariant : Prop :=
  ∀ s t : State, RunInv s → step s = .next t → RunInv t

/-- In a state that meets the invariant the machine takes its step: no run ends in a stop of the whole machine. Faults
and refusals of the spec are records in the state (R240, R241). -/
def Obligations.TheMachineNeverStops : Prop :=
  ∀ s : State, RunInv s → ∃ t, step s = .next t

/-- The receiver is active exactly while RE = 1, and then the clock runs in the admitted mode with BCE = 1, in every
state a run reaches (R64). -/
def Obligations.ReceiverRunsOnlyClockedAndAdmitted : Prop :=
  ∀ s : State, Reachable s → (rxActive s = true ↔ s.regs.rcsr.re = true) ∧
    (s.regs.rcsr.re = true → clkOk s = true ∧ modeAdmitted s = true ∧ s.regs.rcsr.bce = true)

/-- No step changes the launch parameters or the program, and no record of a fault, no refusal mark and no event is ever
taken back (R58, R59, R86). -/
def Obligations.NothingRecordedIsTakenBack : Prop :=
  ∀ s t : State, step s = .next t →
    t.params = s.params ∧ t.program = s.program ∧ (∃ es, t.hist = s.hist ++ es) ∧
      (∀ r ∈ s.faults, r ∈ t.faults) ∧ (s.refused ≠ none → t.refused ≠ none)

/-- Only `start.*` and `stop.*` write the line enables, only `start.rx` the RX handle and the destinations, only
`start.tx` the TX handle (R52, R53, R54), and the environment writes none of them. -/
def Obligations.OnlyLifecycleCommandsWriteTheLines : Prop :=
  (∀ (i : Instr) (s t : State), exec i s = .next t →
    ((∀ cb d0 d1, i ≠ .startRx cb d0 d1) →
      t.cbRx = s.cbRx ∧ t.dest0 = s.dest0 ∧ t.dest1 = s.dest1 ∧ (i ≠ .stopRx → t.irqenRx = s.irqenRx)) ∧
    ((∀ cb, i ≠ .startTx cb) → t.cbTx = s.cbTx ∧ (i ≠ .stopTx → t.irqenTx = s.irqenTx))) ∧
  (∀ (s t : State) (tx : Bool) (pick : Dir),
    runTurn .receiver s = .next t ∨ runTurn (.dispatcher tx pick) s = .next t →
    t.cbRx = s.cbRx ∧ t.cbTx = s.cbTx ∧ t.dest0 = s.dest0 ∧ t.dest1 = s.dest1 ∧ t.irqenRx = s.irqenRx ∧
      t.irqenTx = s.irqenTx)

/-- The data memory changes only by the two channel reads of the drain, and only at the four bytes of their destination;
every other command and every other agent leaves every byte (R60, R70). -/
def Obligations.OnlyTheDrainWritesMemory : Prop :=
  (∀ (i : Instr) (s t : State), exec i s = .next t →
    (storesTo i s = none → t.mem = s.mem) ∧
    (∀ d, storesTo i s = some d → ∀ x,
      x ≠ d.toNat → x ≠ (d.toNat + 1) % 2 ^ 32 → x ≠ (d.toNat + 2) % 2 ^ 32 → x ≠ (d.toNat + 3) % 2 ^ 32 →
        t.mem.readByte x = s.mem.readByte x)) ∧
  (∀ (s t : State) (tx : Bool) (pick : Dir),
    runTurn .receiver s = .next t ∨ runTurn (.dispatcher tx pick) s = .next t → t.mem = s.mem)

/-! ### Frames -/

/-- What the handler's micro-operations leave: every register field, the lines and what they store, the results, the
host's position, and the FIFO but for `h.rd` and `h.fr`. -/
def Obligations.HandlerOperationsFrame : Prop :=
  ∀ (i : Instr) (s t : State), isHandlerOp i = true → exec i s = .next t →
    t.params = s.params ∧ t.regs = s.regs ∧ t.irqenRx = s.irqenRx ∧ t.irqenTx = s.irqenTx ∧ t.cbRx = s.cbRx ∧
      t.cbTx = s.cbTx ∧ t.dest0 = s.dest0 ∧ t.dest1 = s.dest1 ∧ t.cfgRate = s.cfgRate ∧ t.res = s.res ∧
      t.hp = s.hp ∧ t.mpos = s.mpos ∧ t.program = s.program ∧ t.sched = s.sched ∧
      ((∀ k, i ≠ .hRd k) → i ≠ .hFr → t.rxq = s.rxq) ∧
      ((∀ k, i ≠ .hRd k) → t.draws = s.draws ∧ t.freeIdx = s.freeIdx ∧ t.mem = s.mem) ∧
      (storesTo i s = none → t.mem = s.mem) ∧
      (∀ d, storesTo i s = some d → ∀ x,
        x ≠ d.toNat → x ≠ (d.toNat + 1) % 2 ^ 32 → x ≠ (d.toNat + 2) % 2 ^ 32 → x ≠ (d.toNat + 3) % 2 ^ 32 →
          t.mem.readByte x = s.mem.readByte x)

/-- What each step of the clock and frame macro-operations leaves: memory, the FIFO, FEF, the lines and what they store,
the context and the inputs; `gate.en` and `mclk.*` write GATE, MCR and MDR alone, `frame.cfg` leaves those three and the
results, and only `mclk.*` and `begin.*` report. In every layout a launch may give (log 19). -/
def Obligations.ConfigurationCommandsFrame : Prop :=
  ∀ (i : Instr) (s t : State), regMapOk s.params.regMap = true → exec i s = .next t →
    (i = .gateEn ∨ (∃ r, i = .mclkRate r) ∨ (∃ f d, i = .mclkPair f d) ∨ (∃ c b, i = .frameCfg c b) ∨
      (∃ r c b, i = .beginRate r c b) ∨ (∃ f d c b, i = .beginPair f d c b)) →
    t.params = s.params ∧ t.mem = s.mem ∧ t.rxq = s.rxq ∧ t.regs.rcsr.fef = s.regs.rcsr.fef ∧
      t.irqenRx = s.irqenRx ∧ t.irqenTx = s.irqenTx ∧ t.cbRx = s.cbRx ∧ t.cbTx = s.cbTx ∧ t.dest0 = s.dest0 ∧
      t.dest1 = s.dest1 ∧ t.ctx = s.ctx ∧ t.program = s.program ∧ t.sched = s.sched ∧ t.draws = s.draws ∧
      t.freeIdx = s.freeIdx ∧
      (i = .gateEn ∨ (∃ r, i = .mclkRate r) ∨ (∃ f d, i = .mclkPair f d) →
        t.regs.rcsr = s.regs.rcsr ∧ t.regs.rcr1 = s.regs.rcr1 ∧ t.regs.rcr2 = s.regs.rcr2 ∧
          t.regs.rcr4 = s.regs.rcr4 ∧ t.regs.rcr5 = s.regs.rcr5) ∧
      (i = .gateEn → t.regs.mcr = s.regs.mcr ∧ t.regs.mdr = s.regs.mdr) ∧
      ((∃ c b, i = .frameCfg c b) → t.regs.gate = s.regs.gate ∧ t.regs.mcr = s.regs.mcr ∧ t.regs.mdr = s.regs.mdr) ∧
      (i = .gateEn ∨ (∃ c b, i = .frameCfg c b) → t.cfgRate = s.cfgRate ∧ t.res = s.res)

/-- What the lifecycle commands leave: every register field, the FIFO, memory, the results, the context, the history and
the other direction's line. -/
def Obligations.LifecycleCommandsFrame : Prop :=
  ∀ (i : Instr) (s t : State), exec i s = .next t →
    ((∃ cb d0 d1, i = .startRx cb d0 d1) ∨ i = .stopRx ∨ (∃ cb, i = .startTx cb) ∨ i = .stopTx) →
    t.params = s.params ∧ t.regs = s.regs ∧ t.rxq = s.rxq ∧ t.mem = s.mem ∧ t.cfgRate = s.cfgRate ∧ t.res = s.res ∧
      t.ctx = s.ctx ∧ t.hist = s.hist ∧ t.program = s.program ∧ t.sched = s.sched ∧ t.draws = s.draws ∧
      t.freeIdx = s.freeIdx ∧
      ((∃ cb d0 d1, i = .startRx cb d0 d1) ∨ i = .stopRx → t.irqenTx = s.irqenTx ∧ t.cbTx = s.cbTx) ∧
      ((∃ cb, i = .startTx cb) ∨ i = .stopTx →
        t.irqenRx = s.irqenRx ∧ t.cbRx = s.cbRx ∧ t.dest0 = s.dest0 ∧ t.dest1 = s.dest1) ∧
      (i = .stopRx → t.cbRx = s.cbRx ∧ t.dest0 = s.dest0 ∧ t.dest1 = s.dest1) ∧ (i = .stopTx → t.cbTx = s.cbTx)

/-- What `regwr` and `regrd` leave: every register but the one written, the FIFO but for FR and a read of RDR, memory,
the lines and what they store, the context, the configured rate; `regwr` the result register, `regrd` every register
field. -/
def Obligations.RegisterAccessFrame : Prop :=
  ∀ (i : Instr) (s t : State), exec i s = .next t →
    ((∃ r v, i = .regwr r v) ∨ (∃ r, i = .regrd r) →
      t.params = s.params ∧ t.mem = s.mem ∧ t.irqenRx = s.irqenRx ∧ t.irqenTx = s.irqenTx ∧ t.cbRx = s.cbRx ∧
        t.cbTx = s.cbTx ∧ t.dest0 = s.dest0 ∧ t.dest1 = s.dest1 ∧ t.ctx = s.ctx ∧ t.cfgRate = s.cfgRate ∧
        t.program = s.program ∧ t.sched = s.sched) ∧
    (∀ r v, i = .regwr r v →
      t.res = s.res ∧ t.draws = s.draws ∧ t.freeIdx = s.freeIdx ∧
        (r ≠ .rcsr ∨ v.getLsbD s.params.regMap.fr = false → t.rxq = s.rxq) ∧ (r ≠ .clkgate → t.regs.gate = s.regs.gate) ∧
        (r ≠ .mcr → t.regs.mcr = s.regs.mcr) ∧ (r ≠ .mdr → t.regs.mdr = s.regs.mdr) ∧
        (r ≠ .rcsr → t.regs.rcsr = s.regs.rcsr) ∧ (r ≠ .rcr1 → t.regs.rcr1 = s.regs.rcr1) ∧
        (r ≠ .rcr2 → t.regs.rcr2 = s.regs.rcr2) ∧ (r ≠ .rcr4 → t.regs.rcr4 = s.regs.rcr4) ∧
        (r ≠ .rcr5 → t.regs.rcr5 = s.regs.rcr5)) ∧
    (∀ r, i = .regrd r → t.regs = s.regs ∧ (r ≠ .rdr → t.rxq = s.rxq))

/-! ### Headline results about the drain -/

/-- From a dispatch to the return, whatever turns of the other agents fall between: the drain's events come in R197's
order, v0 and v2 reach their destinations, and v0, v1, v2 are the three oldest entries where three are held. The host,
its faults and its lines are left exactly as they were. -/
def Obligations.DrainRunInOrderUnderAnyInterleaving : Prop :=
  ∀ (s : State) (ts : List Turn) (txReq : Bool) (pick : Dir) (d0 d1 : Word),
    s.ctx = .fg → s.irqenRx = true → s.regs.rcsr.frie = true → s.rxq.length > s.regs.rcr1.rfw →
    (txReq = true → pick = .rx) → s.regs.gate = true → s.dest0 = some d0 → s.dest1 = some d1 →
    Admitted s.params d0 → Admitted s.params d1 → (∀ r ∈ s.faults, r.agent ≠ .handler) → handlerTurns ts = 5 →
    ∃ (t : State) (v0 v1 v2 : Word),
      runSched ((.dispatcher txReq pick :: ts) ++ [.handler]) s = .next t ∧ t.ctx = .fg ∧
      (∀ a d b rest, s.rxq = a :: d :: b :: rest → v0 = a ∧ v1 = d ∧ v2 = b) ∧
      t.mem = (s.mem.writeWord d0 v0).writeWord d1 v2 ∧
      handlerHistory t = handlerHistory s ++
        [.dispatch .rx, .regRd .rdr v0, .memWr d0 4 v0, .regRd .rdr v1, .regRd .rdr v2, .memWr d1 4 v2,
          .regWr .rcsr (frImg s.params.regMap), .callback .rx s.cbRx, .ret .rx] ∧
      t.hp = s.hp ∧ t.mpos = s.mpos ∧ t.faults = s.faults ∧ t.refused = s.refused ∧ t.irqenRx = s.irqenRx ∧
      t.irqenTx = s.irqenTx ∧ t.cbRx = s.cbRx ∧ t.cbTx = s.cbTx ∧ t.dest0 = s.dest0 ∧ t.dest1 = s.dest1 ∧
      t.regs = { s.regs with rcsr := { s.regs.rcsr with fef := t.regs.rcsr.fef } }

/-- A drain that starts from a FIFO of whole frames delivers channel 0 and channel 1 of the oldest of them, whatever
turns of the other agents fall between (R193, R198). -/
def Obligations.DrainDeliversTheOldestFrame : Prop :=
  ∀ (s : State) (gs : List Group) (ts : List Turn) (txReq : Bool) (pick : Dir) (d0 d1 : Word),
    s.ctx = .fg → s.irqenRx = true → s.regs.rcsr.frie = true → s.rxq.length > s.regs.rcr1.rfw →
    (txReq = true → pick = .rx) → s.regs.gate = true → s.dest0 = some d0 → s.dest1 = some d1 →
    Admitted s.params d0 → Admitted s.params d1 → (∀ r ∈ s.faults, r.agent ≠ .handler) → handlerTurns ts = 5 →
    3 ≤ s.params.rxFifoDepth → HoldsFrames gs s →
    ∃ (g : Group) (gs' : List Group) (t : State), gs = g :: gs' ∧
      runSched ((.dispatcher txReq pick :: ts) ++ [.handler]) s = .next t ∧
      t.mem = (s.mem.writeWord d0 g.w0).writeWord d1 g.w1

/-- In a run in which the handler is weakly fair, every handler run ends: the foreground comes back, or the handler has
faulted (R196, R246, R247). Fairness is a hypothesis: no step of the model enforces it (log 14). -/
def Obligations.FairHandlerReturns : Prop :=
  ∀ r : Nat → State, IsRun r → FairHandler r →
    ∀ n, ∃ m, n ≤ m ∧ ((r m).ctx = .fg ∨ hasFaulted .handler (r m) = true)

/-! ### REGMAP -/

/-- The default REGMAP is R22's table, with R212's masks, and it is a layout a launch may give (R10, R22, R212; log 9,
log 19). -/
def Obligations.DefaultRegMapIsTheTable : Prop :=
  regMapOk RegMap.default = true ∧
  ([Reg.clkgate, .mcr, .mdr, .rcsr, .rcr1, .rcr2, .rcr4, .rcr5, .rdr].map (regAddress RegMap.default) =
    [0x4004803C, 0x4002F100, 0x4002F104, 0x4002F080, 0x4002F084, 0x4002F088, 0x4002F090, 0x4002F094, 0x4002F0A0]) ∧
  RegMap.default.duf = 31 ∧
  ([Reg.mcr, .mdr, .rcsr, .rcr1, .rcr2, .rcr4, .rcr5].map (wmask RegMap.default) =
    [0xC3000000, 0x000FFFFF, 0x92050100, 0x00000007, 0xCF0000FF, 0x000F1F1B, 0x1F1F1F00]) ∧
  ([Reg.clkgate, .mcr, .mdr, .rcsr, .rcr1, .rcr2, .rcr4, .rcr5].map (rmask RegMap.default) =
    [0x00008000, 0x43000000, 0x000FFFFF, 0x92050100, 0x00000007, 0xCF0000FF, 0x000F1F1B, 0x1F1F1F00])

/-- Fields in every layout: what a field holds is its bits as a number; the masks are the bits of the register's fields,
DUF among the write-admitted ones alone; and in a layout whose fields are apart, the value packed from numbers holds
each of them in its field and 0 everywhere else (R12, R26, R212, R221; log 19). -/
def Obligations.FieldsStandAtTheirPositions : Prop :=
  (∀ (f : Field) (v : Word), getField f v = v.toNat / 2 ^ f.lo % 2 ^ f.width) ∧
  (∀ (m : RegMap) (r : Reg) (n : Nat), n < 32 → r ≠ .rdr →
    (r ≠ .clkgate → ((wmask m r).getLsbD n = true ↔ ∃ f ∈ fieldsOf m r, f.lo ≤ n ∧ n < f.lo + f.width)) ∧
    (r ≠ .mcr → ((rmask m r).getLsbD n = true ↔ ∃ f ∈ fieldsOf m r, f.lo ≤ n ∧ n < f.lo + f.width)) ∧
    ((rmask m .mcr).getLsbD n = true ↔ n = m.moe ∨ (m.mics.lo ≤ n ∧ n < m.mics.lo + m.mics.width))) ∧
  (∀ l : List (Field × Nat), layoutOk (l.map Prod.fst) = true →
    (∀ p ∈ l, getField p.1 (packFields l) = p.2 % 2 ^ p.1.width) ∧
    (∀ n, n < 32 → (∀ p ∈ l, ¬ (p.1.lo ≤ n ∧ n < p.1.lo + p.1.width)) → (packFields l).getLsbD n = false))

/-- The register images, with the parameters a launch may give (log 10, log 19): each value has its 1s inside its
register's fields, and its fields are R141's (for CLKGATE and MCR, R120's and R130's). Under the default layout they are
R141's words. -/
def Obligations.ImagesHoldTheirFields : Prop :=
  (∀ (p : Params) (c b : Nat), paramsOk p = true → FrameOk p c b →
    ((gateImg p.regMap).getLsbD p.regMap.gate = true ∧ mcrOf p.regMap (mcrImg p.regMap) = ⟨true, 0⟩ ∧
      Within p.regMap .mcr (mcrImg p.regMap)) ∧
    (rcr2Of p.regMap (rcr2Img p.regMap) = ⟨0, 1, true, true, 1⟩ ∧ Within p.regMap .rcr2 (rcr2Img p.regMap)) ∧
    (rcr4Of p.regMap (rcr4Img p.regMap c b) = ⟨c - 1, b - 1, true, true, true, true⟩ ∧
      Within p.regMap .rcr4 (rcr4Img p.regMap c b)) ∧
    (rcr5Of p.regMap (rcr5Img p.regMap b) = ⟨b - 1, b - 1, b - 1⟩ ∧ Within p.regMap .rcr5 (rcr5Img p.regMap b)) ∧
    (rcr1Of p.regMap (rcr1Img p.regMap c) = ⟨c - 1⟩ ∧ Within p.regMap .rcr1 (rcr1Img p.regMap c)) ∧
    (rcsrAfter p.regMap (rcsrImg p.regMap) ⟨false, false, false, true⟩ = ⟨true, true, true, true⟩ ∧
      (rcsrImg p.regMap).getLsbD p.regMap.fr = false ∧ Within p.regMap .rcsr (rcsrImg p.regMap))) ∧
  rcr2Img RegMap.default = 0x07000001 ∧ rcsrImg RegMap.default = 0x90000100 ∧
  (∀ c b : Nat, 1 ≤ c → c ≤ 8 → 1 ≤ b → b ≤ 32 →
    rcr4Img RegMap.default c b = BitVec.ofNat 32 ((c - 1) * 2 ^ 16 + (b - 1) * 2 ^ 8 + 2 ^ 4 + 2 ^ 3 + 2 ^ 1 + 1) ∧
    rcr5Img RegMap.default b = BitVec.ofNat 32 ((b - 1) * 2 ^ 24 + (b - 1) * 2 ^ 16 + (b - 1) * 2 ^ 8) ∧
    rcr1Img RegMap.default c = BitVec.ofNat 32 (c - 1))
end

