-- ==== Sys2Proof/Laws/State.lean ====
section
/-! SUPPORT. One lemma per field per update of the state, and what each shared operation leaves: no later proof unfolds a
record update. -/

namespace Sys2Proof.Machine

open Sys2Proof.Config

/-! ### emit -/

@[simp] theorem emit_params (e : Event) (s : State) : (emit e s).params = s.params := rfl
@[simp] theorem emit_regs (e : Event) (s : State) : (emit e s).regs = s.regs := rfl
@[simp] theorem emit_rxq (e : Event) (s : State) : (emit e s).rxq = s.rxq := rfl
@[simp] theorem emit_irqenRx (e : Event) (s : State) : (emit e s).irqenRx = s.irqenRx := rfl
@[simp] theorem emit_irqenTx (e : Event) (s : State) : (emit e s).irqenTx = s.irqenTx := rfl
@[simp] theorem emit_cbRx (e : Event) (s : State) : (emit e s).cbRx = s.cbRx := rfl
@[simp] theorem emit_cbTx (e : Event) (s : State) : (emit e s).cbTx = s.cbTx := rfl
@[simp] theorem emit_dest0 (e : Event) (s : State) : (emit e s).dest0 = s.dest0 := rfl
@[simp] theorem emit_dest1 (e : Event) (s : State) : (emit e s).dest1 = s.dest1 := rfl
@[simp] theorem emit_cfgRate (e : Event) (s : State) : (emit e s).cfgRate = s.cfgRate := rfl
@[simp] theorem emit_res (e : Event) (s : State) : (emit e s).res = s.res := rfl
@[simp] theorem emit_ctx (e : Event) (s : State) : (emit e s).ctx = s.ctx := rfl
@[simp] theorem emit_hp (e : Event) (s : State) : (emit e s).hp = s.hp := rfl
@[simp] theorem emit_mpos (e : Event) (s : State) : (emit e s).mpos = s.mpos := rfl
@[simp] theorem emit_hist (e : Event) (s : State) : (emit e s).hist = s.hist ++ [e] := rfl
@[simp] theorem emit_faults (e : Event) (s : State) : (emit e s).faults = s.faults := rfl
@[simp] theorem emit_refused (e : Event) (s : State) : (emit e s).refused = s.refused := rfl
@[simp] theorem emit_mem (e : Event) (s : State) : (emit e s).mem = s.mem := rfl
@[simp] theorem emit_program (e : Event) (s : State) : (emit e s).program = s.program := rfl
@[simp] theorem emit_sched (e : Event) (s : State) : (emit e s).sched = s.sched := rfl
@[simp] theorem emit_draws (e : Event) (s : State) : (emit e s).draws = s.draws := rfl
@[simp] theorem emit_freeIdx (e : Event) (s : State) : (emit e s).freeIdx = s.freeIdx := rfl

/-! ### refuse -/

@[simp] theorem refuse_params (x : RefuseReason) (s : State) : (refuse x s).params = s.params := rfl
@[simp] theorem refuse_regs (x : RefuseReason) (s : State) : (refuse x s).regs = s.regs := rfl
@[simp] theorem refuse_rxq (x : RefuseReason) (s : State) : (refuse x s).rxq = s.rxq := rfl
@[simp] theorem refuse_irqenRx (x : RefuseReason) (s : State) : (refuse x s).irqenRx = s.irqenRx := rfl
@[simp] theorem refuse_irqenTx (x : RefuseReason) (s : State) : (refuse x s).irqenTx = s.irqenTx := rfl
@[simp] theorem refuse_cbRx (x : RefuseReason) (s : State) : (refuse x s).cbRx = s.cbRx := rfl
@[simp] theorem refuse_cbTx (x : RefuseReason) (s : State) : (refuse x s).cbTx = s.cbTx := rfl
@[simp] theorem refuse_dest0 (x : RefuseReason) (s : State) : (refuse x s).dest0 = s.dest0 := rfl
@[simp] theorem refuse_dest1 (x : RefuseReason) (s : State) : (refuse x s).dest1 = s.dest1 := rfl
@[simp] theorem refuse_cfgRate (x : RefuseReason) (s : State) : (refuse x s).cfgRate = s.cfgRate := rfl
@[simp] theorem refuse_res (x : RefuseReason) (s : State) : (refuse x s).res = s.res := rfl
@[simp] theorem refuse_ctx (x : RefuseReason) (s : State) : (refuse x s).ctx = s.ctx := rfl
@[simp] theorem refuse_hp (x : RefuseReason) (s : State) : (refuse x s).hp = s.hp := rfl
@[simp] theorem refuse_mpos (x : RefuseReason) (s : State) : (refuse x s).mpos = s.mpos := rfl
@[simp] theorem refuse_hist (x : RefuseReason) (s : State) : (refuse x s).hist = s.hist := rfl
@[simp] theorem refuse_faults (x : RefuseReason) (s : State) : (refuse x s).faults = s.faults := rfl
@[simp] theorem refuse_refused (x : RefuseReason) (s : State) : (refuse x s).refused = some x := rfl
@[simp] theorem refuse_mem (x : RefuseReason) (s : State) : (refuse x s).mem = s.mem := rfl
@[simp] theorem refuse_program (x : RefuseReason) (s : State) : (refuse x s).program = s.program := rfl
@[simp] theorem refuse_sched (x : RefuseReason) (s : State) : (refuse x s).sched = s.sched := rfl
@[simp] theorem refuse_draws (x : RefuseReason) (s : State) : (refuse x s).draws = s.draws := rfl
@[simp] theorem refuse_freeIdx (x : RefuseReason) (s : State) : (refuse x s).freeIdx = s.freeIdx := rfl

/-! ### setRegs -/

@[simp] theorem setRegs_params (g : Regs) (s : State) : (setRegs g s).params = s.params := rfl
@[simp] theorem setRegs_regs (g : Regs) (s : State) : (setRegs g s).regs = g := rfl
@[simp] theorem setRegs_rxq (g : Regs) (s : State) : (setRegs g s).rxq = s.rxq := rfl
@[simp] theorem setRegs_irqenRx (g : Regs) (s : State) : (setRegs g s).irqenRx = s.irqenRx := rfl
@[simp] theorem setRegs_irqenTx (g : Regs) (s : State) : (setRegs g s).irqenTx = s.irqenTx := rfl
@[simp] theorem setRegs_cbRx (g : Regs) (s : State) : (setRegs g s).cbRx = s.cbRx := rfl
@[simp] theorem setRegs_cbTx (g : Regs) (s : State) : (setRegs g s).cbTx = s.cbTx := rfl
@[simp] theorem setRegs_dest0 (g : Regs) (s : State) : (setRegs g s).dest0 = s.dest0 := rfl
@[simp] theorem setRegs_dest1 (g : Regs) (s : State) : (setRegs g s).dest1 = s.dest1 := rfl
@[simp] theorem setRegs_cfgRate (g : Regs) (s : State) : (setRegs g s).cfgRate = s.cfgRate := rfl
@[simp] theorem setRegs_res (g : Regs) (s : State) : (setRegs g s).res = s.res := rfl
@[simp] theorem setRegs_ctx (g : Regs) (s : State) : (setRegs g s).ctx = s.ctx := rfl
@[simp] theorem setRegs_hp (g : Regs) (s : State) : (setRegs g s).hp = s.hp := rfl
@[simp] theorem setRegs_mpos (g : Regs) (s : State) : (setRegs g s).mpos = s.mpos := rfl
@[simp] theorem setRegs_hist (g : Regs) (s : State) : (setRegs g s).hist = s.hist := rfl
@[simp] theorem setRegs_faults (g : Regs) (s : State) : (setRegs g s).faults = s.faults := rfl
@[simp] theorem setRegs_refused (g : Regs) (s : State) : (setRegs g s).refused = s.refused := rfl
@[simp] theorem setRegs_mem (g : Regs) (s : State) : (setRegs g s).mem = s.mem := rfl
@[simp] theorem setRegs_program (g : Regs) (s : State) : (setRegs g s).program = s.program := rfl
@[simp] theorem setRegs_sched (g : Regs) (s : State) : (setRegs g s).sched = s.sched := rfl
@[simp] theorem setRegs_draws (g : Regs) (s : State) : (setRegs g s).draws = s.draws := rfl
@[simp] theorem setRegs_freeIdx (g : Regs) (s : State) : (setRegs g s).freeIdx = s.freeIdx := rfl

/-! ### hostDone -/

@[simp] theorem hostDone_params (n : Nat) (s : State) : (hostDone n s).params = s.params := rfl
@[simp] theorem hostDone_regs (n : Nat) (s : State) : (hostDone n s).regs = s.regs := rfl
@[simp] theorem hostDone_rxq (n : Nat) (s : State) : (hostDone n s).rxq = s.rxq := rfl
@[simp] theorem hostDone_irqenRx (n : Nat) (s : State) : (hostDone n s).irqenRx = s.irqenRx := rfl
@[simp] theorem hostDone_irqenTx (n : Nat) (s : State) : (hostDone n s).irqenTx = s.irqenTx := rfl
@[simp] theorem hostDone_cbRx (n : Nat) (s : State) : (hostDone n s).cbRx = s.cbRx := rfl
@[simp] theorem hostDone_cbTx (n : Nat) (s : State) : (hostDone n s).cbTx = s.cbTx := rfl
@[simp] theorem hostDone_dest0 (n : Nat) (s : State) : (hostDone n s).dest0 = s.dest0 := rfl
@[simp] theorem hostDone_dest1 (n : Nat) (s : State) : (hostDone n s).dest1 = s.dest1 := rfl
@[simp] theorem hostDone_cfgRate (n : Nat) (s : State) : (hostDone n s).cfgRate = s.cfgRate := rfl
@[simp] theorem hostDone_res (n : Nat) (s : State) : (hostDone n s).res = s.res := rfl
@[simp] theorem hostDone_ctx (n : Nat) (s : State) : (hostDone n s).ctx = s.ctx := rfl
@[simp] theorem hostDone_hp (n : Nat) (s : State) : (hostDone n s).hp = s.hp + 1 + n := rfl
@[simp] theorem hostDone_mpos (n : Nat) (s : State) : (hostDone n s).mpos = 0 := rfl
@[simp] theorem hostDone_hist (n : Nat) (s : State) : (hostDone n s).hist = s.hist := rfl
@[simp] theorem hostDone_faults (n : Nat) (s : State) : (hostDone n s).faults = s.faults := rfl
@[simp] theorem hostDone_refused (n : Nat) (s : State) : (hostDone n s).refused = s.refused := rfl
@[simp] theorem hostDone_mem (n : Nat) (s : State) : (hostDone n s).mem = s.mem := rfl
@[simp] theorem hostDone_program (n : Nat) (s : State) : (hostDone n s).program = s.program := rfl
@[simp] theorem hostDone_sched (n : Nat) (s : State) : (hostDone n s).sched = s.sched := rfl
@[simp] theorem hostDone_draws (n : Nat) (s : State) : (hostDone n s).draws = s.draws := rfl
@[simp] theorem hostDone_freeIdx (n : Nat) (s : State) : (hostDone n s).freeIdx = s.freeIdx := rfl

/-! ### enterHandler -/

@[simp] theorem enterHandler_params (d : Dir) (s : State) : (enterHandler d s).params = s.params := rfl
@[simp] theorem enterHandler_regs (d : Dir) (s : State) : (enterHandler d s).regs = s.regs := rfl
@[simp] theorem enterHandler_rxq (d : Dir) (s : State) : (enterHandler d s).rxq = s.rxq := rfl
@[simp] theorem enterHandler_irqenRx (d : Dir) (s : State) : (enterHandler d s).irqenRx = s.irqenRx := rfl
@[simp] theorem enterHandler_irqenTx (d : Dir) (s : State) : (enterHandler d s).irqenTx = s.irqenTx := rfl
@[simp] theorem enterHandler_cbRx (d : Dir) (s : State) : (enterHandler d s).cbRx = s.cbRx := rfl
@[simp] theorem enterHandler_cbTx (d : Dir) (s : State) : (enterHandler d s).cbTx = s.cbTx := rfl
@[simp] theorem enterHandler_dest0 (d : Dir) (s : State) : (enterHandler d s).dest0 = s.dest0 := rfl
@[simp] theorem enterHandler_dest1 (d : Dir) (s : State) : (enterHandler d s).dest1 = s.dest1 := rfl
@[simp] theorem enterHandler_cfgRate (d : Dir) (s : State) : (enterHandler d s).cfgRate = s.cfgRate := rfl
@[simp] theorem enterHandler_res (d : Dir) (s : State) : (enterHandler d s).res = s.res := rfl
@[simp] theorem enterHandler_ctx (d : Dir) (s : State) : (enterHandler d s).ctx = .handler d 0 := rfl
@[simp] theorem enterHandler_hp (d : Dir) (s : State) : (enterHandler d s).hp = s.hp := rfl
@[simp] theorem enterHandler_mpos (d : Dir) (s : State) : (enterHandler d s).mpos = s.mpos := rfl
@[simp] theorem enterHandler_hist (d : Dir) (s : State) : (enterHandler d s).hist = s.hist ++ [.dispatch d] := rfl
@[simp] theorem enterHandler_faults (d : Dir) (s : State) : (enterHandler d s).faults = s.faults := rfl
@[simp] theorem enterHandler_refused (d : Dir) (s : State) : (enterHandler d s).refused = s.refused := rfl
@[simp] theorem enterHandler_mem (d : Dir) (s : State) : (enterHandler d s).mem = s.mem := rfl
@[simp] theorem enterHandler_program (d : Dir) (s : State) : (enterHandler d s).program = s.program := rfl
@[simp] theorem enterHandler_sched (d : Dir) (s : State) : (enterHandler d s).sched = s.sched := rfl
@[simp] theorem enterHandler_draws (d : Dir) (s : State) : (enterHandler d s).draws = s.draws := rfl
@[simp] theorem enterHandler_freeIdx (d : Dir) (s : State) : (enterHandler d s).freeIdx = s.freeIdx := rfl

/-! ### leaveHandler -/

@[simp] theorem leaveHandler_params (d : Dir) (s : State) : (leaveHandler d s).params = s.params := rfl
@[simp] theorem leaveHandler_regs (d : Dir) (s : State) : (leaveHandler d s).regs = s.regs := rfl
@[simp] theorem leaveHandler_rxq (d : Dir) (s : State) : (leaveHandler d s).rxq = s.rxq := rfl
@[simp] theorem leaveHandler_irqenRx (d : Dir) (s : State) : (leaveHandler d s).irqenRx = s.irqenRx := rfl
@[simp] theorem leaveHandler_irqenTx (d : Dir) (s : State) : (leaveHandler d s).irqenTx = s.irqenTx := rfl
@[simp] theorem leaveHandler_cbRx (d : Dir) (s : State) : (leaveHandler d s).cbRx = s.cbRx := rfl
@[simp] theorem leaveHandler_cbTx (d : Dir) (s : State) : (leaveHandler d s).cbTx = s.cbTx := rfl
@[simp] theorem leaveHandler_dest0 (d : Dir) (s : State) : (leaveHandler d s).dest0 = s.dest0 := rfl
@[simp] theorem leaveHandler_dest1 (d : Dir) (s : State) : (leaveHandler d s).dest1 = s.dest1 := rfl
@[simp] theorem leaveHandler_cfgRate (d : Dir) (s : State) : (leaveHandler d s).cfgRate = s.cfgRate := rfl
@[simp] theorem leaveHandler_res (d : Dir) (s : State) : (leaveHandler d s).res = s.res := rfl
@[simp] theorem leaveHandler_ctx (d : Dir) (s : State) : (leaveHandler d s).ctx = .fg := rfl
@[simp] theorem leaveHandler_hp (d : Dir) (s : State) : (leaveHandler d s).hp = s.hp := rfl
@[simp] theorem leaveHandler_mpos (d : Dir) (s : State) : (leaveHandler d s).mpos = s.mpos := rfl
@[simp] theorem leaveHandler_hist (d : Dir) (s : State) : (leaveHandler d s).hist = s.hist ++ [.ret d] := rfl
@[simp] theorem leaveHandler_faults (d : Dir) (s : State) : (leaveHandler d s).faults = s.faults := rfl
@[simp] theorem leaveHandler_refused (d : Dir) (s : State) : (leaveHandler d s).refused = s.refused := rfl
@[simp] theorem leaveHandler_mem (d : Dir) (s : State) : (leaveHandler d s).mem = s.mem := rfl
@[simp] theorem leaveHandler_program (d : Dir) (s : State) : (leaveHandler d s).program = s.program := rfl
@[simp] theorem leaveHandler_sched (d : Dir) (s : State) : (leaveHandler d s).sched = s.sched := rfl
@[simp] theorem leaveHandler_draws (d : Dir) (s : State) : (leaveHandler d s).draws = s.draws := rfl
@[simp] theorem leaveHandler_freeIdx (d : Dir) (s : State) : (leaveHandler d s).freeIdx = s.freeIdx := rfl

/-! ### Operations that look at the state first -/

/-- The values of draws a draw leaves. -/
@[simp] theorem draw_snd (s : State) :
    (draw s).2 = { s with draws := s.draws.tail, freeIdx := if s.draws = [] then s.freeIdx + 1 else s.freeIdx } := by
  unfold draw
  split <;> simp [*]

/-- A draw is the next given input where there is one. -/
theorem draw_fst_given (s : State) (d : Word) (ds : List Word) (h : s.draws = d :: ds) : (draw s).1 = d := by
  simp [draw, h]

/-- The fault set after a record. -/
theorem raiseFault_eq (r : FaultRecord) (s : State) :
    raiseFault r s = { s with faults := if r ∈ s.faults then s.faults else s.faults ++ [r] } := by
  unfold raiseFault
  split <;> simp [*]

/-- No record is lost, and the new one is there. -/
theorem mem_raiseFault (r x : FaultRecord) (s : State) : x ∈ (raiseFault r s).faults ↔ x ∈ s.faults ∨ x = r := by
  rw [raiseFault_eq]
  by_cases h : r ∈ s.faults
  · simp only [h, if_true]
    constructor
    · exact Or.inl
    · rintro (hx | rfl)
      · exact hx
      · exact h
  · simp [h]

/-- The context after one handler micro-operation. -/
theorem advanceHpc_handler (s : State) (d : Dir) (n : Nat) (h : s.ctx = .handler d n) :
    advanceHpc s = { s with ctx := .handler d (n + 1) } := by
  simp [advanceHpc, h]

/-- `advanceHpc` changes the context alone. -/
theorem advanceHpc_eq (s : State) : advanceHpc s = { s with ctx := (advanceHpc s).ctx } := by
  unfold advanceHpc
  split <;> rfl

/-- A stop leaves a record or the mark, and nothing else. -/
theorem stopAgent_eq (a : Agent) (e : Stop) (s : State) :
    stopAgent a e s = { s with faults := (stopAgent a e s).faults, refused := (stopAgent a e s).refused } := by
  cases e with
  | fault code info => simp only [stopAgent]; rw [raiseFault_eq]
  | refuse x => rfl

/-- A turn taken from the schedule or a free one changes the model's input fields alone. -/
theorem nextTurn_snd (s : State) :
    (nextTurn s).2 = { s with sched := s.sched.tail, freeIdx := if s.sched = [] then s.freeIdx + 1 else s.freeIdx } := by
  unfold nextTurn
  split <;> simp [*]

/-- A given turn is taken. -/
theorem nextTurn_given (s : State) (t : Turn) (ts : List Turn) (h : s.sched = t :: ts) :
    nextTurn s = (t, { s with sched := ts }) := by
  simp [nextTurn, h]

end Sys2Proof.Machine
end

