-- ==== Sys2Proof/Laws/Memory.lean ====
section
/-! SUPPORT. Data memory: a read after a write, what a write leaves alone, and the canonical form (20_memory.md R72). -/

namespace Sys2Proof.Machine

/-- A byte write is read back at its address and leaves every other address alone. -/
theorem readByte_writeByte (m : Memory) (a x : Nat) (b : Byte) :
    (m.writeByte a b).readByte x = if x = a then some b else m.readByte x := by
  induction m with
  | nil => simp [Memory.writeByte, Memory.readByte, eq_comm]
  | cons c rest ih =>
    obtain ⟨k, v⟩ := c
    simp only [Memory.writeByte]
    split
    · simp [Memory.readByte, eq_comm]
    · split
      · subst_vars
        by_cases h : x = k <;> simp [Memory.readByte, h, eq_comm]
      · rename_i h1 h2
        simp only [Memory.readByte, ih]
        by_cases hk : k = x
        · subst hk; simp [Ne.symm h2]
        · simp [hk]

/-- The entries of a memory that rises from `lo` rise from anything below it. -/
theorem risingFrom_mono (m : Memory) (lo lo' : Nat) (h : lo' ≤ lo) (hm : Memory.risingFrom lo m = true) :
    Memory.risingFrom lo' m = true := by
  cases m with
  | nil => rfl
  | cons c rest =>
    obtain ⟨k, v⟩ := c
    simp only [Memory.risingFrom, Bool.and_eq_true, decide_eq_true_eq] at hm ⊢
    exact ⟨by omega, hm.2⟩

/-- A byte write keeps the addresses rising. -/
theorem risingFrom_writeByte (m : Memory) (lo a : Nat) (b : Byte) (hlo : lo ≤ a) (hm : Memory.risingFrom lo m = true) :
    Memory.risingFrom lo (m.writeByte a b) = true := by
  induction m generalizing lo with
  | nil => simp [Memory.writeByte, Memory.risingFrom, hlo]
  | cons c rest ih =>
    obtain ⟨k, v⟩ := c
    simp only [Memory.risingFrom, Bool.and_eq_true, decide_eq_true_eq] at hm
    simp only [Memory.writeByte]
    split
    · rename_i h
      simp only [Memory.risingFrom, Bool.and_eq_true, decide_eq_true_eq]
      exact ⟨hlo, by omega, hm.2⟩
    · split
      · subst_vars
        simp only [Memory.risingFrom, Bool.and_eq_true, decide_eq_true_eq]
        exact ⟨hlo, hm.2⟩
      · rename_i h1 h2
        simp only [Memory.risingFrom, Bool.and_eq_true, decide_eq_true_eq]
        exact ⟨hm.1, ih (k + 1) (by omega) hm.2⟩

/-- A byte write keeps every listed address inside the 32-bit space. -/
theorem inSpace_writeByte (m : Memory) (a : Nat) (b : Byte) (ha : a < 2 ^ 32)
    (hm : (m.all fun c => decide (c.1 < 2 ^ 32)) = true) :
    ((m.writeByte a b).all fun c => decide (c.1 < 2 ^ 32)) = true := by
  induction m with
  | nil => simpa [Memory.writeByte] using ha
  | cons c rest ih =>
    obtain ⟨k, v⟩ := c
    simp only [List.all_cons, Bool.and_eq_true, decide_eq_true_eq] at hm
    simp only [Memory.writeByte]
    split
    · simp only [List.all_cons, Bool.and_eq_true, decide_eq_true_eq]
      exact ⟨ha, hm⟩
    · split
      · simp only [List.all_cons, Bool.and_eq_true, decide_eq_true_eq]
        exact ⟨ha, hm.2⟩
      · simp only [List.all_cons, Bool.and_eq_true, decide_eq_true_eq]
        exact ⟨hm.1, ih hm.2⟩

/-- A byte write keeps the canonical form. -/
theorem wf_writeByte (m : Memory) (a : Nat) (b : Byte) (ha : a < 2 ^ 32) (hm : Memory.wf m = true) :
    Memory.wf (m.writeByte a b) = true := by
  simp only [Memory.wf, Bool.and_eq_true] at hm ⊢
  exact ⟨risingFrom_writeByte m 0 a b (Nat.zero_le a) hm.1, inSpace_writeByte m a b ha hm.2⟩

/-- A byte's address is inside the 32-bit space. -/
theorem byteAddr_lt (a : Word) (i : Nat) : byteAddr a i < 2 ^ 32 := (a + BitVec.ofNat 32 i).isLt

/-- A word write keeps the canonical form. -/
theorem wf_writeWord (m : Memory) (a v : Word) (hm : Memory.wf m = true) : Memory.wf (m.writeWord a v) = true := by
  unfold Memory.writeWord
  exact wf_writeByte _ _ _ (byteAddr_lt a 3) <| wf_writeByte _ _ _ (byteAddr_lt a 2) <|
    wf_writeByte _ _ _ (byteAddr_lt a 1) <| wf_writeByte _ _ _ (byteAddr_lt a 0) hm

/-- The four bytes of a word have four different addresses. -/
theorem byteAddr_inj (a : Word) (i j : Nat) (hi : i < 4) (hj : j < 4) (h : byteAddr a i = byteAddr a j) : i = j := by
  unfold byteAddr at h
  have h' := BitVec.eq_of_toNat_eq h
  have : BitVec.ofNat 32 i = BitVec.ofNat 32 j := by simpa using h'
  have := congrArg BitVec.toNat this
  simp only [BitVec.toNat_ofNat] at this
  omega

/-- A word write leaves every byte outside its four alone. -/
theorem readByte_writeWord_outside (m : Memory) (a v : Word) (x : Nat) (h : ∀ i, i < 4 → x ≠ byteAddr a i) :
    (m.writeWord a v).readByte x = m.readByte x := by
  simp only [Memory.writeWord, readByte_writeByte, h 0 (by omega), h 1 (by omega), h 2 (by omega), h 3 (by omega),
    if_false]

/-- A word write is read back little-endian. -/
theorem readByte_writeWord_inside (m : Memory) (a v : Word) (i : Nat) (hi : i < 4) :
    (m.writeWord a v).readByte (byteAddr a i) = some (byteOf v i) := by
  have ne : ∀ j, j < 4 → j ≠ i → byteAddr a i ≠ byteAddr a j := fun j hj hne h =>
    hne (byteAddr_inj a i j hi hj h).symm
  simp only [Memory.writeWord, readByte_writeByte]
  obtain rfl | rfl | rfl | rfl : i = 0 ∨ i = 1 ∨ i = 2 ∨ i = 3 := by omega
  · simp [ne 1 (by omega) (by omega), ne 2 (by omega) (by omega), ne 3 (by omega) (by omega)]
  · simp [ne 2 (by omega) (by omega), ne 3 (by omega) (by omega)]
  · simp [ne 3 (by omega) (by omega)]
  · simp

end Sys2Proof.Machine
end

