-- ==== Sys2Proof/Laws/Ops.lean ====
section
/-! SUPPORT. What each shared operation can do, said once. -/

namespace Sys2Proof.Machine

open Sys2Proof.Config

/-! ### How commands run -/

/-- Everything an atomic host command can do. -/
theorem hostAtomic_cases (o : Opcode) (body : State → Except Stop State) (s : State) :
    (s.ctx ≠ .fg ∧ hostAtomic o body s = .next (refuse .xContext s)) ∨
    (s.ctx = .fg ∧ ∃ e, body s = .error e ∧ hostAtomic o body s = .next (stopAgent .host e s)) ∨
    (s.ctx = .fg ∧ ∃ s', body s = .ok s' ∧ hostAtomic o body s = .next (hostDone o.narg s')) := by
  unfold hostAtomic
  by_cases h : s.ctx = .fg
  · cases hb : body s <;> simp [h]
  · simp [h]

/-- An atomic host command in the foreground whose effect completes. -/
theorem hostAtomic_ok {o : Opcode} {body : State → Except Stop State} {s s' : State} (h : s.ctx = .fg)
    (hb : body s = .ok s') : hostAtomic o body s = .next (hostDone o.narg s') := by
  simp [hostAtomic, h, hb]

/-- An atomic host command in the foreground whose effect stops. -/
theorem hostAtomic_error {o : Opcode} {body : State → Except Stop State} {s : State} {e : Stop} (h : s.ctx = .fg)
    (hb : body s = .error e) : hostAtomic o body s = .next (stopAgent .host e s) := by
  simp [hostAtomic, h, hb]

/-- Everything the step of a macro-operation can do. -/
theorem hostMacro_cases (o : Opcode) (steps : List MacroStep) (s : State) :
    (s.ctx ≠ .fg ∧ hostMacro o steps s = .next (refuse .xContext s)) ∨
    (s.ctx = .fg ∧ steps.drop s.mpos = [] ∧ hostMacro o steps s = .fault .noSuchPosition) ∨
    (s.ctx = .fg ∧ ∃ st rest, steps.drop s.mpos = st :: rest ∧
      ((st.check = false ∧ hostMacro o steps s = .next (stopAgent .host (.fault .fRange (.opcode o)) s)) ∨
      (st.check = true ∧ ∃ e, macroWrite st s = .error e ∧ hostMacro o steps s = .next (stopAgent .host e s)) ∨
      (st.check = true ∧ ∃ s', macroWrite st s = .ok s' ∧ rest = [] ∧
        hostMacro o steps s = .next (hostDone o.narg s')) ∨
      (st.check = true ∧ ∃ s', macroWrite st s = .ok s' ∧ rest ≠ [] ∧
        hostMacro o steps s = .next { s' with mpos := s'.mpos + 1 }))) := by
  unfold hostMacro
  by_cases h : s.ctx = .fg
  · cases hd : steps.drop s.mpos with
    | nil => simp [h]
    | cons st rest =>
      cases hc : st.check with
      | false => simp [h, hc]
      | true =>
        cases hw : macroWrite st s with
        | error e => simp [h, hc, hw]
        | ok s' => by_cases hr : rest = [] <;> simp [h, hc, hw, hr]
  · simp [h]

/-- The step of a macro-operation that makes its last write. -/
theorem hostMacro_last {o : Opcode} {steps : List MacroStep} {s s' : State} {st : MacroStep} (h : s.ctx = .fg)
    (hd : steps.drop s.mpos = [st]) (hc : st.check = true) (hw : macroWrite st s = .ok s') :
    hostMacro o steps s = .next (hostDone o.narg s') := by
  simp [hostMacro, h, hd, hc, hw]

/-- The step of a macro-operation that makes a write before the last. -/
theorem hostMacro_more {o : Opcode} {steps : List MacroStep} {s s' : State} {st st' : MacroStep}
    {rest : List MacroStep} (h : s.ctx = .fg) (hd : steps.drop s.mpos = st :: st' :: rest) (hc : st.check = true)
    (hw : macroWrite st s = .ok s') : hostMacro o steps s = .next { s' with mpos := s'.mpos + 1 } := by
  simp [hostMacro, h, hd, hc, hw]

/-- The step of a macro-operation whose argument check fails. -/
theorem hostMacro_range {o : Opcode} {steps : List MacroStep} {s : State} {st : MacroStep} {rest : List MacroStep}
    (h : s.ctx = .fg) (hd : steps.drop s.mpos = st :: rest) (hc : st.check = false) :
    hostMacro o steps s = .next (stopAgent .host (.fault .fRange (.opcode o)) s) := by
  simp [hostMacro, h, hd, hc]

/-- The step of a macro-operation whose register write stops. -/
theorem hostMacro_stop {o : Opcode} {steps : List MacroStep} {s : State} {st : MacroStep} {rest : List MacroStep}
    {e : Stop} (h : s.ctx = .fg) (hd : steps.drop s.mpos = st :: rest) (hc : st.check = true)
    (hw : macroWrite st s = .error e) : hostMacro o steps s = .next (stopAgent .host e s) := by
  simp [hostMacro, h, hd, hc, hw]

/-- Everything a handler micro-operation can do. -/
theorem handlerOp_cases (adm : Bool) (body : State → Except (Stop × State) State) (s : State) :
    (adm = false ∧ handlerOp adm body s = .next (refuse .xContext s)) ∨
    (adm = true ∧ ∃ e s1, body s = .error (e, s1) ∧ handlerOp adm body s = .next (stopAgent .handler e s1)) ∨
    (adm = true ∧ ∃ s', body s = .ok s' ∧ handlerOp adm body s = .next (advanceHpc s')) := by
  unfold handlerOp
  cases adm with
  | false => simp
  | true =>
    cases hb : body s with
    | error p => obtain ⟨e, s1⟩ := p; simp
    | ok s' => simp

/-- Being in a handler of a direction, said with its position. -/
theorem inHandler_iff (d : Dir) (s : State) : inHandler d s = true ↔ ∃ n, s.ctx = .handler d n := by
  unfold inHandler
  cases h : s.ctx with
  | fg => simp
  | handler dir n => simp [eq_comm]

/-- A handler position is a handler of its direction. -/
theorem inHandler_of {d : Dir} {n : Nat} {s : State} (h : s.ctx = .handler d n) : inHandler d s = true :=
  (inHandler_iff d s).2 ⟨n, h⟩

/-! ### Register access -/

/-- When a register write is admitted (R214). -/
theorem writeCheck_none (r : Reg) (v : Word) (s : State) :
    writeCheck r v s = none ↔
      r ≠ .rdr ∧ (r ≠ .clkgate → s.regs.gate = true) ∧ v &&& ~~~(wmask s.params.regMap r) = 0 ∧ ruleCheck r v s = none := by
  unfold writeCheck
  by_cases h1 : r = .rdr
  · simp [h1]
  rw [if_neg h1]
  by_cases h2 : r ≠ .clkgate ∧ s.regs.gate = false
  · rw [if_pos h2]
    have : ¬ (r ≠ .clkgate → s.regs.gate = true) := fun h => by simp [h h2.1] at h2
    simp [this]
  rw [if_neg h2]
  have h2' : r ≠ .clkgate → s.regs.gate = true := fun h => by
    by_contra hg
    exact h2 ⟨h, by simpa using hg⟩
  by_cases h3 : v &&& ~~~(wmask s.params.regMap r) = 0
  · rw [if_neg (not_not_intro h3)]
    exact ⟨fun h => ⟨h1, h2', h3, h⟩, fun h => h.2.2.2⟩
  · rw [if_pos h3]
    constructor
    · intro h; cases h
    · intro h; exact absurd h.2.2.1 h3

/-- What an admitted register write leaves. -/
theorem regWrite_ok {r : Reg} {v : Word} {s : State} (h : writeCheck r v s = none) :
    regWrite r v s = .ok (emit (.regWr r v)
      { s with regs := regsAfter s.params.regMap r v s.regs, rxq := rxqAfter s.params.regMap r v s.rxq }) := by
  simp [regWrite, h]

/-- What a register write that is not admitted answers. -/
theorem regWrite_error {r : Reg} {v : Word} {s : State} {e : Stop} (h : writeCheck r v s = some e) :
    regWrite r v s = .error e := by
  simp [regWrite, h]

/-- A register write that is made was admitted, and did exactly this. -/
theorem regWrite_inv {r : Reg} {v : Word} {s t : State} (h : regWrite r v s = .ok t) :
    writeCheck r v s = none ∧
      t = emit (.regWr r v)
        { s with regs := regsAfter s.params.regMap r v s.regs, rxq := rxqAfter s.params.regMap r v s.rxq } := by
  cases hc : writeCheck r v s with
  | some e => simp [regWrite, hc] at h
  | none => simp only [regWrite, hc, Except.ok.injEq] at h; exact ⟨rfl, h.symm⟩

/-- A report changes `cfg_rate`, `res` and the history alone. -/
theorem applyReport_eq (r : Report) (s : State) :
    applyReport r s =
      { s with cfgRate := (applyReport r s).cfgRate, res := (applyReport r s).res, hist := (applyReport r s).hist } := by
  cases r <;> rfl

/-- A macro step that is made wrote its register, and changed no more than that and its report. -/
theorem macroWrite_inv {st : MacroStep} {s t : State} (h : macroWrite st s = .ok t) :
    writeCheck st.reg st.value s = none ∧
      t = { s with
        regs := regsAfter s.params.regMap st.reg st.value s.regs
        rxq := rxqAfter s.params.regMap st.reg st.value s.rxq
        cfgRate := t.cfgRate
        res := t.res
        hist := t.hist } ∧ ∃ es, t.hist = s.hist ++ es := by
  cases hw : regWrite st.reg st.value s with
  | error e => simp [macroWrite, hw] at h
  | ok s1 =>
    obtain ⟨hc, rfl⟩ := regWrite_inv hw
    refine ⟨hc, ?_⟩
    cases hr : st.report with
    | none =>
      simp only [macroWrite, hw, hr, Except.ok.injEq] at h
      subst h
      exact ⟨rfl, _, rfl⟩
    | some r =>
      simp only [macroWrite, hw, hr, Except.ok.injEq] at h
      subst h
      cases r
      · exact ⟨rfl, [.regWr st.reg st.value, .status 1], by simp [applyReport]⟩
      · exact ⟨rfl, [.regWr st.reg st.value, .status 1], by simp [applyReport]⟩
      · exact ⟨rfl, [.regWr st.reg st.value, .status 0], by simp [applyReport]⟩

/-- Reading RDR changes the FIFO and the inputs alone. -/
theorem readRdr_snd (s : State) :
    (readRdr s).2 =
      { s with rxq := s.rxq.tail, draws := (readRdr s).2.draws, freeIdx := (readRdr s).2.freeIdx } := by
  unfold readRdr
  cases h : s.rxq with
  | nil => simp [draw_snd, h]
  | cons v rest => simp

/-- Reading RDR from a FIFO that holds an entry. -/
theorem readRdr_cons {s : State} {v : Word} {rest : List Word} (h : s.rxq = v :: rest) :
    readRdr s = (v, { s with rxq := rest }) := by
  simp [readRdr, h]

/-- Reading RDR from an empty FIFO. -/
theorem readRdr_nil {s : State} (h : s.rxq = []) : readRdr s = draw s := by
  simp [readRdr, h]

/-- A register read with the gate open. -/
theorem regRead_rdr {s : State} (h : s.regs.gate = true) : regRead .rdr s = .ok (readRdr s) := by
  simp [regRead, h]

/-- A register read behind a closed gate. -/
theorem regRead_gate {r : Reg} {s : State} (hr : r ≠ .clkgate) (h : s.regs.gate = false) :
    regRead r s = .error (.fault .fGate (.reg r)) := by
  simp [regRead, hr, h]

/-- A read of registers 0 to 7 changes the inputs alone. -/
theorem readFields_snd (r : Reg) (s : State) :
    (readFields r s).2 =
      { s with draws := s.draws.tail, freeIdx := if s.draws = [] then s.freeIdx + 1 else s.freeIdx } := by
  simp [readFields]

/-- A register read that is made changes the FIFO (a read of RDR) and the inputs alone. -/
theorem regRead_inv {r : Reg} {s t : State} {v : Word} (h : regRead r s = .ok (v, t)) :
    t = { s with rxq := if r = .rdr then s.rxq.tail else s.rxq, draws := t.draws, freeIdx := t.freeIdx } := by
  unfold regRead at h
  split at h
  · cases h
  · split at h
    · rename_i hr
      simp only [Except.ok.injEq] at h
      have ht : (readRdr s).2 = t := by rw [h]
      rw [← ht, if_pos hr]
      exact readRdr_snd s
    · rename_i hr
      simp only [Except.ok.injEq] at h
      have ht : (readFields r s).2 = t := by rw [h]
      rw [← ht, if_neg hr, readFields_snd]

/-- A destination write that is made was admitted, and stored one word. -/
theorem writeDest_inv {d : Option Word} {v : Word} {s t : State} (h : writeDest d v s = .ok t) :
    ∃ a, d = some a ∧ destAdmitted s.params a = true ∧
      t = { s with mem := s.mem.writeWord a v, hist := s.hist ++ [.memWr a 4 v] } := by
  cases d with
  | none => simp [writeDest] at h
  | some a =>
    by_cases ha : destAdmitted s.params a = true
    · simp only [writeDest, ha, if_true, Except.ok.injEq] at h
      exact ⟨a, rfl, ha, h.symm⟩
    · simp [writeDest, ha] at h

/-! ### The receive FIFO -/

/-- What a push leaves (R184). -/
theorem push_eq (e : Word) (s : State) :
    push e s =
      { s with
        rxq := if s.rxq.length < s.params.rxFifoDepth then s.rxq ++ [e] else s.rxq
        regs := if s.rxq.length < s.params.rxFifoDepth then s.regs
          else { s.regs with rcsr := { s.regs.rcsr with fef := true } } } := by
  unfold push
  split <;> simp [setRegs]

/-- What pushing a list leaves: the entries the depth has room for, and FEF set if one was lost. -/
theorem pushAll_eq (es : List Word) (s : State) (h : s.rxq.length ≤ s.params.rxFifoDepth) :
    pushAll es s =
      { s with
        rxq := (s.rxq ++ es).take s.params.rxFifoDepth
        regs := if s.rxq.length + es.length ≤ s.params.rxFifoDepth then s.regs
          else { s.regs with rcsr := { s.regs.rcsr with fef := true } } } := by
  induction es generalizing s with
  | nil => simp [pushAll, h, List.take_of_length_le h]
  | cons e rest ih =>
    rw [pushAll, push_eq]
    by_cases hl : s.rxq.length < s.params.rxFifoDepth
    · simp only [hl, if_true]
      rw [ih _ (by simp; omega)]
      simp only [List.append_assoc, List.cons_append, List.nil_append, List.length_append, List.length_cons,
        List.length_nil]
      have : s.rxq.length + (0 + 1) + rest.length ≤ s.params.rxFifoDepth ↔
        s.rxq.length + (rest.length + 1) ≤ s.params.rxFifoDepth := by omega
      simp only [this]
    · simp only [hl, if_false]
      rw [ih _ (by simpa using h)]
      have h1 : ∀ l : List Word, (s.rxq ++ l).take s.params.rxFifoDepth = s.rxq := fun l => by
        have : s.params.rxFifoDepth = s.rxq.length := by omega
        rw [this, List.take_left]
      have h2 : ¬ s.rxq.length + (e :: rest).length ≤ s.params.rxFifoDepth := by
        simp only [List.length_cons]; omega
      simp only [h1, h2, if_false]
      split <;> rfl

/-- Pushing changes the FIFO and FEF alone, whatever the FIFO holds. -/
theorem pushAll_inv (es : List Word) (s : State) :
    ∃ q f, pushAll es s = { s with rxq := q, regs := { s.regs with rcsr := { s.regs.rcsr with fef := f } } } := by
  induction es generalizing s with
  | nil => exact ⟨s.rxq, s.regs.rcsr.fef, rfl⟩
  | cons e rest ih =>
    obtain ⟨q, f, hq⟩ := ih (push e s)
    refine ⟨q, f, ?_⟩
    rw [pushAll, hq, push_eq]
    split <;> rfl

/-- A received word has no bit above its width (R183). -/
theorem receivedWord_lt (b : Nat) (v : Word) : (receivedWord b v).toNat < 2 ^ b := by
  unfold receivedWord
  rw [BitVec.toNat_setWidth, BitVec.toNat_setWidth]
  exact lt_of_le_of_lt (Nat.mod_le _ _) (Nat.mod_lt _ (by positivity))

/-- The values of the draws after the first are those of the state the first one leaves (R14). -/
theorem drawn_succ (n : Nat) (s : State) : drawn (n + 1) s = drawn n (draw s).2 := by
  unfold drawn draw
  cases h : s.draws with
  | nil => simp [Nat.add_comm, Nat.add_left_comm]
  | cons d ds => simp

/-- The next draw (R14). -/
theorem drawn_zero (s : State) : drawn 0 s = (draw s).1 := by
  unfold drawn draw
  cases h : s.draws <;> simp

/-- The words of a frame are the low bits of the draws in order (R182; log 18). -/
theorem drawWords_fst (n b : Nat) (s : State) :
    (drawWords n b s).1 = (List.range n).map fun i => receivedWord b (drawn i s) := by
  induction n generalizing s with
  | zero => rfl
  | succ n ih => simp [drawWords, ih, List.range_succ_eq_map, drawn_succ, drawn_zero, Function.comp_def]

/-- The inputs a frame's words use. -/
theorem drawWords_inputs (n b : Nat) (s : State) :
    (drawWords n b s).2 =
      { s with draws := s.draws.drop n, freeIdx := s.freeIdx + (n - s.draws.length) } := by
  induction n generalizing s with
  | zero => simp [drawWords]
  | succ n ih =>
    simp only [drawWords]
    rw [ih (draw s).2, draw_snd]
    cases h : s.draws with
    | nil => simp; omega
    | cons d ds => simp

/-- The draw after a frame's words. -/
theorem draw_after_words (n b : Nat) (s : State) : (draw (drawWords n b s).2).1 = drawn n s := by
  induction n generalizing s with
  | zero => exact (drawn_zero s).symm
  | succ n ih => simp only [drawWords, ih, drawn_succ]

/-- A received word is the draw's low bits as a number (R182, R183). -/
theorem receivedWord_eq (b : Nat) (v : Word) : receivedWord b v = BitVec.ofNat 32 (v.toNat % 2 ^ b) := by
  apply BitVec.eq_of_toNat_eq
  simp [receivedWord]

/-- What is drawn depends on the inputs alone. -/
theorem draw_fst_congr {s t : State} (h1 : s.draws = t.draws) (h2 : s.freeIdx = t.freeIdx) :
    (draw s).1 = (draw t).1 := by
  unfold draw
  rw [h1, h2]
  cases t.draws <;> rfl

/-- A receiver step records the frame's words and pushes its entries, all of them draws in their order (R182; log 18). -/
theorem receiveFrame_eq (s : State) :
    receiveFrame s = pushAll (frameEntries s)
      { s with
        hist := s.hist ++ [.frame (frameWords s)]
        draws := s.draws.drop (frameDraws s)
        freeIdx := s.freeIdx + (frameDraws s - s.draws.length) } := by
  have hw : (drawWords (cfgC s) (cfgB s) s).1 = frameWords s := by
    rw [drawWords_fst]; simp [frameWords, cfgC, cfgB, receivedWord_eq]
  have hlen : (frameWords s).length = cfgC s := by simp [frameWords, cfgC]
  have hd := draw_after_words (cfgC s) (cfgB s) s
  simp only [receiveFrame, hw]
  rw [drawWords_inputs] at hd ⊢
  by_cases hi : s.params.rxStreamMap = .dummyInterleaved ∧ cfgC s = 2
  · obtain ⟨hm, hC⟩ := hi
    obtain ⟨w0, w1, hww⟩ : ∃ a b, frameWords s = [a, b] := by
      rw [hC] at hlen
      match hx : frameWords s, hlen with
      | [a, b], _ => exact ⟨a, b, rfl⟩
    have hi : interleaves s = true := by unfold cfgC at hC; simp [interleaves, hm, hC]
    have he : frameEntries s = [w0, drawn 2 s, w1] := by simp [frameEntries, hi, hww]
    have hf : frameDraws s = 3 := by unfold cfgC at hC; simp [frameDraws, hi, hC]
    rw [hC] at hd ⊢
    rw [he, hf, hww, ← hd]
    simp only [streamEntries, hm, emit, draw_snd]
    have hn : s.freeIdx + (3 - s.draws.length) =
        if s.draws.drop 2 = [] then s.freeIdx + (2 - s.draws.length) + 1 else s.freeIdx + (2 - s.draws.length) := by
      by_cases hq : s.draws.length ≤ 2
      · rw [if_pos (List.drop_eq_nil_of_le hq)]; omega
      · rw [if_neg (by rw [List.drop_eq_nil_iff]; exact hq)]; omega
    rw [hn, List.tail_drop]
    congr 2
    exact congrArg (fun x => [x, w1]) (draw_fst_congr rfl rfl)
  · have hi' : interleaves s = false := by unfold cfgC at hi; simpa [interleaves] using hi
    have he : frameEntries s = frameWords s := by simp [frameEntries, hi']
    have hf : frameDraws s = cfgC s := by simp [frameDraws, hi', cfgC]
    have hs : ∀ t : State, t.params = s.params → streamEntries (frameWords s) t = (frameWords s, t) := by
      intro t ht
      unfold streamEntries
      rw [ht]
      split
      · rename_i h1 h2
        exact absurd ⟨h1, by rw [← hlen, h2]; rfl⟩ hi
      · rfl
      · rfl
    rw [he, hf]
    refine congrArg (fun r => pushAll r.1 r.2) (hs _ ?_)
    rfl

/-- The entries of a frame: its words, with one entry between the two words of an interleaved two-channel frame. -/
theorem frameEntries_cases (s : State) :
    (∃ w0 d w1, frameWords s = [w0, w1] ∧ s.params.rxStreamMap = .dummyInterleaved ∧ frameEntries s = [w0, d, w1]) ∨
    (¬ ((frameWords s).length = 2 ∧ s.params.rxStreamMap = .dummyInterleaved) ∧ frameEntries s = frameWords s) := by
  have hlen : (frameWords s).length = s.regs.rcr4.frsz + 1 := by simp [frameWords]
  by_cases hi : interleaves s = true
  · simp only [interleaves, Bool.and_eq_true, decide_eq_true_eq] at hi
    rw [hi.2] at hlen
    match hw : frameWords s, hlen with
    | [a, b], _ => exact .inl ⟨a, drawn 2 s, b, rfl, hi.1, by simp [frameEntries, interleaves, hi.1, hi.2, hw]⟩
  · refine .inr ⟨?_, by simp [frameEntries, hi]⟩
    rw [hlen]
    rintro ⟨h2, hm⟩
    exact hi (by simp [interleaves, hm, h2])

/-- Every word of a frame has the frame's bit width (R183). -/
theorem frameWords_lt (s : State) : ∀ w ∈ frameWords s, w.toNat < 2 ^ cfgB s := by
  intro w hw
  simp only [frameWords, List.mem_map] at hw
  obtain ⟨i, _, rfl⟩ := hw
  rw [← receivedWord_eq]
  exact receivedWord_lt _ _

/-- Everything a receiver step can do: one frame of C words of B bits is recorded, its entries are pushed, and nothing
else but the inputs changes (R182). -/
theorem receiveFrame_inv (s : State) :
    ∃ ws es q f ds n,
      ws.length = cfgC s ∧ (∀ w ∈ ws, w.toNat < 2 ^ cfgB s) ∧
      ((∃ w0 d w1, ws = [w0, w1] ∧ s.params.rxStreamMap = .dummyInterleaved ∧ es = [w0, d, w1]) ∨
        (¬ (ws.length = 2 ∧ s.params.rxStreamMap = .dummyInterleaved) ∧ es = ws)) ∧
      (s.rxq.length ≤ s.params.rxFifoDepth →
        q = (s.rxq ++ es).take s.params.rxFifoDepth ∧
        (f = if s.rxq.length + es.length ≤ s.params.rxFifoDepth then s.regs.rcsr.fef else true)) ∧
      receiveFrame s =
        { s with
          hist := s.hist ++ [.frame ws]
          rxq := q
          regs := { s.regs with rcsr := { s.regs.rcsr with fef := f } }
          draws := ds
          freeIdx := n } := by
  obtain ⟨q, f, hq⟩ := pushAll_inv (frameEntries s)
    { s with
      hist := s.hist ++ [.frame (frameWords s)]
      draws := s.draws.drop (frameDraws s)
      freeIdx := s.freeIdx + (frameDraws s - s.draws.length) }
  refine ⟨frameWords s, frameEntries s, q, f, _, _, by simp [frameWords, cfgC], frameWords_lt s, frameEntries_cases s,
    fun hl => ?_, by rw [receiveFrame_eq, hq]⟩
  rw [pushAll_eq _ _ (by exact hl)] at hq
  have hr := congrArg State.rxq hq
  have hg := congrArg (fun t : State => t.regs.rcsr.fef) hq
  simp only at hr hg
  refine ⟨hr.symm, ?_⟩
  rw [← hg]
  split <;> rfl

/-! ### The dispatcher -/

/-- Everything a dispatcher turn can do (R244). -/
theorem dispatcherTurn_cases (tx : Bool) (pick : Dir) (s : State) :
    (dispatcherTurn tx pick s = s ∧ (s.ctx ≠ .fg ∨ (rxOk s = false ∧ (s.irqenTx && tx) = false))) ∨
    (s.ctx = .fg ∧ rxOk s = true ∧ dispatcherTurn tx pick s = enterHandler .rx s) ∨
    (s.ctx = .fg ∧ (s.irqenTx && tx) = true ∧ dispatcherTurn tx pick s = enterHandler .tx s) := by
  unfold dispatcherTurn
  by_cases h : s.ctx = .fg
  · cases hr : rxOk s <;> cases ht : (s.irqenTx && tx) <;> cases pick <;> simp [h]
  · simp [h]

end Sys2Proof.Machine
end

