-- ==== Sys2Proof/Laws/PerInstr.lean ====
section
/-! SUPPORT. Statements for all instructions, one lemma per constructor. -/

namespace Sys2Proof.Laws

/-- The command word of an instruction, read back field by field (30_encoding.md R92, R94, R95): its opcode, its
sub-operand, instance 0 and the number of argument words, which is the number that follows it (R91). -/
def CommandWord.Statement (i : Instr) : Prop :=
  ∃ w, encode i = w :: i.args ∧ opcField w = i.opcode.code ∧ subField w = i.sub ∧ instField w = 0 ∧
    (nargField w).toNat = i.opcode.narg ∧ i.args.length = i.opcode.narg

/-- A byte below the bits of `x`, as numbers. -/
theorem toNat_append_byte {n : Nat} (x : BitVec n) (y : Byte) : (x ++ y).toNat = x.toNat * 256 + y.toNat := by
  rw [BitVec.toNat_append, ← Nat.shiftLeft_add_eq_or_of_lt y.isLt, Nat.shiftLeft_eq]

/-- A command word as the number its four bytes make (R92). -/
theorem commandWord_toNat (o : Opcode) (sub : Byte) :
    (commandWord o sub).toNat = o.code.toNat * 16777216 + sub.toNat * 65536 + o.narg := by
  have h : o.narg % 256 = o.narg := by cases o <;> rfl
  have h0 : (0 : Byte).toNat = 0 := rfl
  simp only [commandWord, toNat_append_byte, BitVec.toNat_ofNat, h0]
  omega

/-- The four fields of a command word are its four bytes. -/
theorem commandWord_fields (o : Opcode) (sub : Byte) :
    opcField (commandWord o sub) = o.code ∧ subField (commandWord o sub) = sub ∧
      instField (commandWord o sub) = 0 ∧ (nargField (commandWord o sub)).toNat = o.narg := by
  have hn : o.narg < 256 := by cases o <;> decide
  have hs := sub.isLt
  have hc := o.code.isLt
  have hw := commandWord_toNat o sub
  have h0 : (0 : Byte).toNat = 0 := rfl
  refine ⟨BitVec.eq_of_toNat_eq ?_, BitVec.eq_of_toNat_eq ?_, BitVec.eq_of_toNat_eq ?_, ?_⟩ <;>
    simp only [opcField, subField, instField, nargField, BitVec.extractLsb'_toNat, hw, h0,
      Nat.shiftRight_eq_div_pow] <;> omega

/-- The statement holds of a command whose argument words are as many as its opcode says. -/
theorem commandWord_of_length (i : Instr) (h : i.args.length = i.opcode.narg) : CommandWord.Statement i :=
  have f := commandWord_fields i.opcode i.sub
  ⟨commandWord i.opcode i.sub, rfl, f.1, f.2.1, f.2.2.1, f.2.2.2, h⟩

theorem CommandWord.gateEn : CommandWord.Statement .gateEn := commandWord_of_length _ rfl

theorem CommandWord.mclkRate (rate : Word) : CommandWord.Statement (.mclkRate rate) := commandWord_of_length _ rfl

theorem CommandWord.mclkPair (fract divide : Word) : CommandWord.Statement (.mclkPair fract divide) := commandWord_of_length _ rfl

theorem CommandWord.frameCfg (c b : Word) : CommandWord.Statement (.frameCfg c b) := commandWord_of_length _ rfl

theorem CommandWord.beginRate (rate c b : Word) : CommandWord.Statement (.beginRate rate c b) := commandWord_of_length _ rfl

theorem CommandWord.beginPair (fract divide c b : Word) : CommandWord.Statement (.beginPair fract divide c b) := commandWord_of_length _ rfl

theorem CommandWord.startRx (cb d0 d1 : Word) : CommandWord.Statement (.startRx cb d0 d1) := commandWord_of_length _ rfl

theorem CommandWord.stopRx : CommandWord.Statement .stopRx := commandWord_of_length _ rfl

theorem CommandWord.startTx (cb : Word) : CommandWord.Statement (.startTx cb) := commandWord_of_length _ rfl

theorem CommandWord.stopTx : CommandWord.Statement .stopTx := commandWord_of_length _ rfl

theorem CommandWord.regwr (reg : Reg) (value : Word) : CommandWord.Statement (.regwr reg value) := commandWord_of_length _ rfl

theorem CommandWord.regrd (reg : Reg) : CommandWord.Statement (.regrd reg) := commandWord_of_length _ rfl

theorem CommandWord.hRd (k : DrainPos) : CommandWord.Statement (.hRd k) := commandWord_of_length _ rfl

theorem CommandWord.hFr : CommandWord.Statement .hFr := commandWord_of_length _ rfl

theorem CommandWord.hCall (dir : Config.Dir) : CommandWord.Statement (.hCall dir) := commandWord_of_length _ rfl

theorem CommandWord.hRet : CommandWord.Statement .hRet := commandWord_of_length _ rfl

end Sys2Proof.Laws
end

