-- ==== Sys2Proof/Laws/Decode.lean ====
section
/-! SUPPORT. The decoder, said once: what the words that decode to a command passed, and what they make
(30_encoding.md R98). -/

namespace Sys2Proof.Laws

open Sys2Proof.Config

/-- An opcode's number finds its row of R97. -/
theorem ofCode_code (o : Opcode) : Opcode.ofCode? o.code = some o := by cases o <;> decide

/-- The row a number finds has that number. -/
theorem code_of_ofCode {c : Byte} {o : Opcode} (h : Opcode.ofCode? c = some o) : o.code = c := by
  simpa using List.find?_some h

/-- The register an id finds has that id. -/
theorem id_of_ofId {b : Byte} {r : Reg} (h : Reg.ofId? b = some r) : r.id = b := by
  simpa using List.find?_some h

/-- The read an index finds has that index. -/
theorem index_of_ofIndex {b : Byte} {k : DrainPos} (h : DrainPos.ofIndex? b = some k) : k.index = b := by
  simpa using List.find?_some h

/-- The direction an index finds has that index. -/
theorem dirIndex_of_ofIndex {b : Byte} {d : Dir} (h : dirOfIndex? b = some d) : dirIndex d = b := by
  simpa using List.find?_some h

/-- A command word is its four fields. -/
theorem eq_commandWord (w : Word) (o : Opcode) (h1 : opcField w = o.code) (h2 : instField w = 0)
    (h3 : (nargField w).toNat = o.narg) :
    w = commandWord o (subField w) := by
  apply BitVec.eq_of_toNat_eq
  rw [commandWord_toNat, ← h1, ← h3]
  have h2' := congrArg BitVec.toNat h2
  simp only [opcField, subField, instField, nargField, BitVec.extractLsb'_toNat, Nat.shiftRight_eq_div_pow] at *
  have := w.isLt
  simp at h2'
  omega

/-- Decoding a word whose OPC is in the table: R98's checks after the first. -/
theorem decode_of_code {w : Word} (args : List Word) {o : Opcode} (h : opcField w = o.code) :
    decode (w :: args) =
      if (nargField w).toNat ≠ o.narg then .refused .xOpcode
      else if instField w ≠ 0 then .refused .xInstance
      else
        match subRefusal o (subField w) with
        | some x => .refused x
        | none =>
          match assemble o (subField w) args with
          | none => .refused .xOpcode
          | some i => .command i := by
  simp only [decode, h, ofCode_code] <;> rfl

/-- What words that decode to a command passed (R98). -/
theorem decode_inv {w : Word} {args : List Word} {i : Instr} (h : decode (w :: args) = .command i) :
    ∃ o, opcField w = o.code ∧ (nargField w).toNat = o.narg ∧ instField w = 0 ∧
      subRefusal o (subField w) = none ∧ assemble o (subField w) args = some i := by
  cases ho : Opcode.ofCode? (opcField w) with
  | none => simp [decode, ho] at h
  | some o =>
    have hc := (code_of_ofCode ho).symm
    rw [decode_of_code args hc] at h
    refine ⟨o, hc, ?_⟩
    by_cases h1 : (nargField w).toNat = o.narg
    · by_cases h2 : instField w = 0
      · cases h3 : subRefusal o (subField w) with
        | some x => simp [h1, h2, h3] at h
        | none =>
          cases h4 : assemble o (subField w) args with
          | none => simp [h1, h2, h3, h4] at h
          | some j =>
            simp [h1, h2, h3, h4] at h
            exact ⟨h1, h2, rfl, by rw [h]⟩
      · rw [if_neg (not_not_intro h1), if_pos h2] at h; cases h
    · rw [if_pos h1] at h; cases h

/-- What a command assembled from an admitted sub-operand is: its opcode, its SUB field, its argument words (R97). -/
theorem assemble_inv {o : Opcode} {sub : Byte} {args : List Word} {i : Instr} (hs : subRefusal o sub = none)
    (h : assemble o sub args = some i) :
    i.opcode = o ∧ i.sub = sub ∧ i.wf = true ∧ i.args = args.take o.narg ∧ o.narg ≤ args.length := by
  have z : ∀ s : Byte, s.toNat = 0 → (0 : Byte) = s := fun s hs => BitVec.eq_of_toNat_eq hs.symm
  unfold assemble at h
  split at h
  case h_11 v _ =>
    simp only [Option.map_eq_some_iff] at h
    obtain ⟨r, hr, rfl⟩ := h
    have := id_of_ofId hr
    refine ⟨rfl, this, ?_, rfl, by simp [Opcode.narg]⟩
    subst this
    cases r <;> first | rfl | (exact absurd hs (by decide))
  case h_12 =>
    simp only [Option.map_eq_some_iff] at h
    obtain ⟨r, hr, rfl⟩ := h
    exact ⟨rfl, id_of_ofId hr, rfl, rfl, by simp [Opcode.narg]⟩
  case h_13 =>
    simp only [Option.map_eq_some_iff] at h
    obtain ⟨r, hr, rfl⟩ := h
    exact ⟨rfl, index_of_ofIndex hr, rfl, rfl, by simp [Opcode.narg]⟩
  case h_15 =>
    simp only [Option.map_eq_some_iff] at h
    obtain ⟨r, hr, rfl⟩ := h
    exact ⟨rfl, dirIndex_of_ofIndex hr, rfl, rfl, by simp [Opcode.narg]⟩
  all_goals first
    | (cases h; done)
    | (cases h; exact ⟨rfl, z _ (by simpa [subRefusal] using hs), rfl, rfl, by simp [Opcode.narg]⟩)

/-- Too few words remain (R98's last line). -/
theorem assemble_short {o : Opcode} {sub : Byte} {args : List Word} (h : args.length < o.narg) :
    assemble o sub args = none := by
  cases hm : assemble o sub args with
  | none => rfl
  | some i =>
    exfalso
    unfold assemble at hm
    split at hm <;> simp [Opcode.narg] at h hm <;> omega

/-- An id the sub-operand check of R98 admits names a register. -/
theorem ofId_of_le {b : Byte} (h : b.toNat ≤ 8) : ∃ r, Reg.ofId? b = some r := by
  have hb := BitVec.ofNat_toNat 8 b
  generalize b.toNat = n at h hb
  rw [BitVec.setWidth_eq] at hb
  subst hb
  interval_cases n <;> exact ⟨_, rfl⟩

/-- A command word of an admitted sub-operand with enough words after it makes a command (R98). -/
theorem assemble_some {o : Opcode} {sub : Byte} {args : List Word} (hs : subRefusal o sub = none)
    (h : o.narg ≤ args.length) : ∃ i, assemble o sub args = some i := by
  have idx : ∀ n, n ≤ 2 → ∃ k, DrainPos.ofIndex? (BitVec.ofNat 8 n) = some k := by
    intro n hn
    interval_cases n <;> exact ⟨_, rfl⟩
  have dix : ∀ n, n ≤ 1 → ∃ d, dirOfIndex? (BitVec.ofNat 8 n) = some d := by
    intro n hn
    interval_cases n <;> exact ⟨_, rfl⟩
  have hsub : BitVec.ofNat 8 sub.toNat = sub := by simp
  cases o
  case regwr =>
    match args, h with
    | v :: _, _ =>
      have hs' : sub.toNat < 8 := by simpa [subRefusal] using hs
      obtain ⟨r, hr⟩ := ofId_of_le (b := sub) (by omega)
      exact ⟨.regwr r v, by simp [assemble, hr]⟩
  case regrd =>
    obtain ⟨r, hr⟩ := ofId_of_le (b := sub) (by simpa [subRefusal] using hs)
    exact ⟨.regrd r, by simp [assemble, hr]⟩
  case hRd =>
    obtain ⟨k, hk⟩ := idx sub.toNat (by simpa [subRefusal] using hs)
    rw [hsub] at hk
    exact ⟨.hRd k, by simp [assemble, hk]⟩
  case hCall =>
    obtain ⟨d, hd⟩ := dix sub.toNat (by simpa [subRefusal] using hs)
    rw [hsub] at hd
    exact ⟨.hCall d, by simp [assemble, hd]⟩
  all_goals
    simp only [Opcode.narg] at h
    match args, h with
    | [], h => first | exact ⟨_, rfl⟩ | simp at h
    | [_], h => first | exact ⟨_, rfl⟩ | simp at h
    | [_, _], h => first | exact ⟨_, rfl⟩ | simp at h
    | [_, _, _], h => first | exact ⟨_, rfl⟩ | simp at h
    | _ :: _ :: _ :: _ :: _, _ => exact ⟨_, rfl⟩

/-- A command is as many words as its opcode says (R91). -/
theorem encode_length (i : Instr) : (encode i).length = 1 + i.opcode.narg := by cases i <;> rfl

end Sys2Proof.Laws
end

