-- ==== Sys2Proof/Laws/RegMap.lean ====
section
/-! SUPPORT. What fields, masks and packed values are in every layout of a REGMAP, bit by bit. -/

namespace Sys2Proof.Machine

open Sys2Proof.Config

/-- Bit `n` stands in a field. -/
abbrev InField (f : Field) (n : Nat) : Prop := f.lo ≤ n ∧ n < f.lo + f.width

/-! ### One field -/

/-- What a field holds is its bits as a number (R12). -/
theorem getField_eq (f : Field) (v : Word) : getField f v = v.toNat / 2 ^ f.lo % 2 ^ f.width := by
  simp [getField, Nat.shiftRight_eq_div_pow]

/-- What a field holds fits its width. -/
theorem getField_lt (f : Field) (v : Word) : getField f v < 2 ^ f.width := (v.extractLsb' f.lo f.width).isLt

/-- The bits of what a field holds. -/
theorem getField_testBit (f : Field) (v : Word) (i : Nat) :
    (getField f v).testBit i = (decide (i < f.width) && v.getLsbD (f.lo + i)) := by
  rw [getField, BitVec.testBit_toNat, BitVec.getLsbD_extractLsb']

/-- Two values that agree on a field's bits hold the same number in it. -/
theorem getField_congr {f : Field} {v w : Word} (h : ∀ n, InField f n → v.getLsbD n = w.getLsbD n) :
    getField f v = getField f w := by
  apply Nat.eq_of_testBit_eq
  intro i
  rw [getField_testBit, getField_testBit]
  by_cases hi : i < f.width
  · rw [h (f.lo + i) ⟨by omega, by omega⟩]
  · simp [hi]

/-- A value whose bits in a field are those of a number holds that number. -/
theorem getField_of_bits {f : Field} {v : Word} {x : Nat} (h : ∀ n, InField f n → v.getLsbD n = x.testBit (n - f.lo)) :
    getField f v = x % 2 ^ f.width := by
  apply Nat.eq_of_testBit_eq
  intro i
  rw [getField_testBit, Nat.testBit_mod_two_pow]
  by_cases hi : i < f.width
  · rw [h (f.lo + i) ⟨by omega, by omega⟩]; simp
  · simp [hi]

/-- A field of one bit holds that bit. -/
theorem getField_bit (i : Nat) (v : Word) : getField (.bit i) v = (v.getLsbD i).toNat := by
  apply Nat.eq_of_testBit_eq
  intro j
  rw [getField_testBit]
  cases j with
  | zero => cases h : v.getLsbD i <;> simp [Field.bit, h]
  | succ j => cases h : v.getLsbD i <;> simp [Field.bit, Nat.testBit_succ]

/-- The bits of a number at a field's place. -/
theorem putField_bit (f : Field) (x n : Nat) (hn : n < 32) :
    (putField f x).getLsbD n = (decide (InField f n) && x.testBit (n - f.lo)) := by
  unfold putField
  rw [BitVec.getLsbD_shiftLeft, BitVec.getLsbD_setWidth, BitVec.getLsbD_ofNat]
  by_cases h : f.lo ≤ n
  · by_cases h2 : n < f.lo + f.width
    · simp [h, h2, hn, show n - f.lo < f.width by omega, show ¬ n < f.lo by omega]; omega
    · simp [h2, show ¬ n - f.lo < f.width by omega]
  · simp [h, show n < f.lo by omega]

/-- The bits of a field's mask. -/
theorem fieldMask_bit (f : Field) (n : Nat) (hn : n < 32) : (fieldMask f).getLsbD n = decide (InField f n) := by
  unfold fieldMask
  rw [BitVec.getLsbD_shiftLeft, BitVec.getLsbD_setWidth, BitVec.getLsbD_allOnes]
  by_cases h : f.lo ≤ n
  · by_cases h2 : n < f.lo + f.width
    · simp [h, h2, hn, show n - f.lo < f.width by omega, show ¬ n < f.lo by omega]; omega
    · simp [h2, show ¬ n - f.lo < f.width by omega]
  · simp [h, show n < f.lo by omega]

/-! ### Several fields -/

/-- The bits of the fields' mask. -/
theorem fieldsMask_bit (l : List Field) (n : Nat) (hn : n < 32) :
    (fieldsMask l).getLsbD n = true ↔ ∃ f ∈ l, InField f n := by
  induction l with
  | nil => simp [fieldsMask]
  | cons f l ih =>
    rw [fieldsMask, BitVec.getLsbD_or, Bool.or_eq_true, ih, fieldMask_bit f n hn]
    simp

/-- Every 1 of a packed value stands in one of its fields. -/
theorem packFields_within {l : List (Field × Nat)} {n : Nat} (h : (packFields l).getLsbD n = true) :
    ∃ p ∈ l, InField p.1 n := by
  have hn : n < 32 := BitVec.lt_of_getLsbD h
  induction l with
  | nil => simp [packFields] at h
  | cons p l ih =>
    rw [packFields, BitVec.getLsbD_or, putField_bit p.1 p.2 n hn, Bool.or_eq_true] at h
    rcases h with h | h
    · simp only [Bool.and_eq_true, decide_eq_true_eq] at h
      exact ⟨p, by simp, h.1⟩
    · obtain ⟨q, hq, hi⟩ := ih h
      exact ⟨q, by simp [hq], hi⟩

/-- Fields a layout keeps apart share no bit. -/
theorem layoutOk_cons {f : Field} {l : List Field} (h : layoutOk (f :: l) = true) :
    (1 ≤ f.width ∧ f.lo + f.width ≤ 32) ∧ (∀ g ∈ l, ∀ n, InField f n → ¬ InField g n) ∧ layoutOk l = true := by
  simp only [layoutOk, Bool.and_eq_true, decide_eq_true_eq, List.all_eq_true] at h
  obtain ⟨⟨⟨h1, h2⟩, h3⟩, h4⟩ := h
  refine ⟨⟨h1, h2⟩, fun g hg n hf hgn => ?_, h4⟩
  have := h3 g hg
  simp only [fieldsDisjoint, Bool.or_eq_true, decide_eq_true_eq] at this
  unfold InField at hf hgn
  omega

/-- Each field of a layout has at least one bit and stands inside the word. -/
theorem layoutOk_mem {l : List Field} (h : layoutOk l = true) {f : Field} (hf : f ∈ l) :
    1 ≤ f.width ∧ f.lo + f.width ≤ 32 := by
  induction l with
  | nil => cases hf
  | cons g l ih =>
    obtain ⟨h1, _, h3⟩ := layoutOk_cons h
    rcases List.mem_cons.1 hf with rfl | hf
    · exact h1
    · exact ih h3 hf

/-- In a layout that keeps its fields apart, a packed value has each number's bits at its field's place. -/
theorem packFields_bit {l : List (Field × Nat)} (h : layoutOk (l.map Prod.fst) = true) {p : Field × Nat} (hp : p ∈ l)
    {n : Nat} (hn : InField p.1 n) : (packFields l).getLsbD n = p.2.testBit (n - p.1.lo) := by
  induction l with
  | nil => cases hp
  | cons q l ih =>
    obtain ⟨h1, h2, h3⟩ := layoutOk_cons h
    have hw : n < 32 := by
      have := (layoutOk_mem h (List.mem_map_of_mem (f := Prod.fst) hp)).2
      unfold InField at hn
      omega
    rw [packFields, BitVec.getLsbD_or, putField_bit q.1 q.2 n hw]
    rcases List.mem_cons.1 hp with rfl | hp
    · have : (packFields l).getLsbD n = false := by
        by_contra hc
        obtain ⟨g, hg, hi⟩ := packFields_within (by simpa using hc)
        exact h2 g.1 (List.mem_map_of_mem hg) n hn hi
      simp [hn, this]
    · have : ¬ InField q.1 n := fun hq => h2 p.1 (List.mem_map_of_mem hp) n hq hn
      rw [ih h3 hp, decide_eq_false this, Bool.false_and, Bool.false_or]

/-- A packed value holds each of its numbers (R221). -/
theorem getField_packFields {l : List (Field × Nat)} (h : layoutOk (l.map Prod.fst) = true) {f : Field} {x : Nat}
    (hp : (f, x) ∈ l) : getField f (packFields l) = x % 2 ^ f.width :=
  getField_of_bits fun _ hn => packFields_bit h hp hn

/-- A packed value holds each number that fits its field. -/
theorem getField_packFields_of_lt {l : List (Field × Nat)} (h : layoutOk (l.map Prod.fst) = true) {f : Field} {x : Nat}
    (hp : (f, x) ∈ l) (hx : x < 2 ^ f.width) : getField f (packFields l) = x := by
  rw [getField_packFields h hp, Nat.mod_eq_of_lt hx]

/-- A packed value has each flag at its bit. -/
theorem packFields_flag {l : List (Field × Nat)} (h : layoutOk (l.map Prod.fst) = true) {i : Nat} {b : Bool}
    (hp : (Field.bit i, b.toNat) ∈ l) : (packFields l).getLsbD i = b := by
  rw [packFields_bit h hp (n := i) ⟨Nat.le_refl _, by simp [Field.bit]⟩]
  cases b <;> simp [Field.bit]

/-- A 1 at a flag's place sets its bit. -/
theorem packFields_one {l : List (Field × Nat)} (h : layoutOk (l.map Prod.fst) = true) {i : Nat}
    (hp : (Field.bit i, 1) ∈ l) : (packFields l).getLsbD i = true := packFields_flag (b := true) h hp

/-- A 0 at a flag's place leaves its bit clear. -/
theorem packFields_zero {l : List (Field × Nat)} (h : layoutOk (l.map Prod.fst) = true) {i : Nat}
    (hp : (Field.bit i, 0) ∈ l) : (packFields l).getLsbD i = false := packFields_flag (b := false) h hp

/-! ### A register's fields -/

/-- A layout a launch may give keeps the fields of every register apart (R11). -/
theorem regMapOk_layout {m : RegMap} (h : regMapOk m = true) (r : Reg) : layoutOk (fieldsOf m r) = true := by
  simp only [regMapOk, List.all_eq_true] at h
  cases r <;> first | rfl | exact h _ (by simp)

/-- What a read shows stands in the register's fields. -/
theorem viewFields_fst (m : RegMap) (g : Regs) (frf : Bool) (r : Reg) :
    (viewFields m g frf r).map Prod.fst = fieldsOf m r := by cases r <;> rfl

/-- The write-admitted bits are those of the register's fields (R212). -/
theorem wmask_bit {m : RegMap} {r : Reg} (hr : r ≠ .clkgate) (n : Nat) (hn : n < 32) :
    (wmask m r).getLsbD n = true ↔ ∃ f ∈ fieldsOf m r, InField f n := by
  rw [← fieldsMask_bit _ n hn]
  cases r <;> first | exact absurd rfl hr | rfl

/-- The read bits are those of the register's fields, but for MCR, whose DUF is not among them (R26, R212). -/
theorem rmask_bit {m : RegMap} {r : Reg} (hr : r ≠ .mcr) (hd : r ≠ .rdr) (n : Nat) (hn : n < 32) :
    (rmask m r).getLsbD n = true ↔ ∃ f ∈ fieldsOf m r, InField f n := by
  rw [← fieldsMask_bit _ n hn]
  cases r <;> first | exact absurd rfl hr | exact absurd rfl hd | rfl

/-- MCR's read bits are MOE and MICS (R26, R212). -/
theorem rmask_mcr_bit (m : RegMap) (n : Nat) (hn : n < 32) :
    (rmask m .mcr).getLsbD n = true ↔ n = m.moe ∨ InField m.mics n := by
  rw [show rmask m .mcr = fieldsMask [.bit m.moe, m.mics] from rfl, fieldsMask_bit _ n hn]
  simp only [List.mem_cons, List.not_mem_nil, or_false, exists_eq_or_imp, exists_eq_left, InField, Field.bit]
  omega

/-- The X_FIELD check, said bit by bit (R212). -/
theorem within_iff {m : RegMap} {r : Reg} (hr : r ≠ .clkgate) (v : Word) :
    v &&& ~~~(wmask m r) = 0 ↔ Within m r v := by
  constructor
  · intro h n hv
    have hn : n < 32 := BitVec.lt_of_getLsbD hv
    have h0 := congrArg (fun w : Word => w.getLsbD n) h
    simp only [BitVec.getLsbD_and, BitVec.getLsbD_not, hv, hn] at h0
    exact (wmask_bit hr n hn).1 (by simpa using h0)
  · intro h
    apply BitVec.eq_of_getLsbD_eq
    intro n hn
    rw [BitVec.getLsbD_and, BitVec.getLsbD_not]
    cases hv : v.getLsbD n with
    | false => simp
    | true => simp [(wmask_bit hr n hn).2 (h n hv)]

/-- A value packed into a register's fields has no 1 outside them. -/
theorem packFields_within_reg {m : RegMap} {r : Reg} {l : List (Field × Nat)} (h : l.map Prod.fst = fieldsOf m r) :
    Within m r (packFields l) := by
  intro n hn
  obtain ⟨p, hp, hi⟩ := packFields_within hn
  exact ⟨p.1, by rw [← h]; exact List.mem_map_of_mem hp, hi⟩

end Sys2Proof.Machine
end

