-- ==== Sys2Proof/Laws/Operands.lean ====
section
/-! SUPPORT. The operand forms: the Boolean checks as the spec writes them, the MDR encoding, the register images, the
writes that are admitted, the bits of a read. -/

namespace Sys2Proof.Machine

open Sys2Proof.Config

/-- `frame_ok` as R143 writes it. -/
theorem frameOk_iff (p : Params) (c b : Nat) : frameOk p c b = true ↔ FrameOk p c b := by
  simp [frameOk, FrameOk, and_assoc]

/-- `enc_fits` as R122 writes it. -/
theorem encFits_iff (m : RegMap) (off : Fin 2) (f d : Nat) : encFits m off f d = true ↔ EncFits m off f d := by
  simp [encFits, EncFits, and_assoc]

/-- What the parameters a launch may give meet (log 10, log 19). -/
theorem paramsOk_iff (p : Params) :
    paramsOk p = true ↔ 0 < p.fMclkIn ∧ 1 ≤ p.bMin ∧ p.bMax ≤ 32 ∧ regMapOk p.regMap = true ∧ paramsFit p = true := by
  simp [paramsOk, and_assoc]

/-- The layout of such parameters. -/
theorem paramsOk_regMap {p : Params} (h : paramsOk p = true) : regMapOk p.regMap = true := ((paramsOk_iff p).1 h).2.2.2.1

/-- An admitted C and B, less 1, fit their fields (R141, R143). -/
theorem frameOk_fits {p : Params} (hp : paramsOk p = true) {c b : Nat} (h : FrameOk p c b) :
    c - 1 < 2 ^ p.regMap.rfw.width ∧ c - 1 < 2 ^ p.regMap.frsz.width ∧ b - 1 < 2 ^ p.regMap.sywd.width ∧
      b - 1 < 2 ^ p.regMap.wnw.width ∧ b - 1 < 2 ^ p.regMap.w0w.width ∧ b - 1 < 2 ^ p.regMap.fbt.width := by
  obtain ⟨_, h1, _, _, hf⟩ := (paramsOk_iff p).1 hp
  obtain ⟨h2, h3, h4, h5⟩ := h
  simp only [paramsFit, Bool.and_eq_true, decide_eq_true_eq] at hf
  omega

/-- The pair of the rate table can be encoded (R123). -/
theorem encFits_table {p : Params} (hp : paramsOk p = true) : EncFits p.regMap p.mdrEncOffset 16 125 := by
  obtain ⟨_, _, _, _, hf⟩ := (paramsOk_iff p).1 hp
  simp only [paramsFit, Bool.and_eq_true, decide_eq_true_eq] at hf
  exact ⟨by omega, by omega, hf.1.1.1.1.1.1.1, hf.1.1.1.1.1.1.2⟩

/-- The address of byte `i` of a word, as R72 writes it. -/
theorem byteAddr_eq (a : Word) (i : Nat) : byteAddr a i = (a.toNat + i) % 2 ^ 32 := by
  unfold byteAddr
  rw [BitVec.toNat_add, BitVec.toNat_ofNat]
  omega

/-- The first byte of a word stands at its address. -/
theorem byteAddr_zero (a : Word) : byteAddr a 0 = a.toNat := by
  rw [byteAddr_eq a 0]
  have := a.isLt
  omega

/-- An admitted destination as R74 writes it. -/
theorem destAdmitted_iff (p : Params) (d : Word) : destAdmitted p d = true ↔ Admitted p d := by
  unfold destAdmitted Admitted
  simp only [Bool.and_eq_true, decide_eq_true_eq, byteAddr_eq d]
  constructor
  · rintro ⟨a, ⟨⟨b, c⟩, d⟩, e⟩
    refine ⟨a, fun i hi => ?_⟩
    obtain rfl | rfl | rfl | rfl : i = 0 ∨ i = 1 ∨ i = 2 ∨ i = 3 := by omega
    all_goals assumption
  · rintro ⟨a, h⟩
    exact ⟨a, ⟨⟨h 0 (by omega), h 1 (by omega)⟩, h 2 (by omega)⟩, h 3 (by omega)⟩

/-! ### The MDR encoding -/

/-- The raw fields of an encoded pair. -/
theorem mdrOf_encMdr {m : RegMap} (hm : regMapOk m = true) {off : Fin 2} {f d : Nat} (h : EncFits m off f d) :
    mdrOf m (encMdr m off f d) = ⟨f - off.val, d - off.val⟩ := by
  have hl : layoutOk ([(m.fract, f - off.val), (m.divide, d - off.val)].map Prod.fst) = true := regMapOk_layout hm .mdr
  unfold mdrOf encMdr
  rw [getField_packFields_of_lt hl (f := m.fract) (by simp) h.2.2.1,
    getField_packFields_of_lt hl (f := m.divide) (by simp) h.2.2.2]

/-- An encoded pair has its 1s inside MDR's fields. -/
theorem within_encMdr (m : RegMap) (off : Fin 2) (f d : Nat) : Within m .mdr (encMdr m off f d) :=
  packFields_within_reg rfl

/-- Under the default layout the raw value is one number (R122). -/
theorem encMdr_default (off : Fin 2) (f d : Nat) (h1 : f - off.val ≤ 255) (h2 : d - off.val ≤ 4095) :
    encMdr RegMap.default off f d = BitVec.ofNat 32 ((f - off.val) * 4096 + (d - off.val)) := by
  unfold encMdr
  generalize f - off.val = x at *
  generalize d - off.val = y at *
  apply BitVec.eq_of_toNat_eq
  have hx : x % 256 = x := Nat.mod_eq_of_lt (by omega)
  have hy : y % 4096 = y := Nat.mod_eq_of_lt (by omega)
  have := Nat.shiftLeft_add_eq_or_of_lt (i := 12) (b := y) (by omega) x
  simp only [packFields, putField, RegMap.default, BitVec.toNat_or, BitVec.toNat_shiftLeft, BitVec.toNat_setWidth,
    BitVec.toNat_ofNat, Nat.shiftLeft_eq, Nat.reducePow, hx, hy] at this ⊢
  rw [Nat.mod_eq_of_lt (a := x) (by omega), Nat.mod_eq_of_lt (a := y) (by omega),
    Nat.mod_eq_of_lt (a := x * 4096) (by omega), Nat.mod_eq_of_lt (a := x * 4096 + y) (by omega), Nat.mul_one,
    Nat.mod_eq_of_lt (a := y) (by omega)]
  simpa using this.symm

/-- The multiplier of an encoded pair reads back logically. -/
theorem fractL_enc {m : RegMap} {off : Fin 2} {f d : Nat} (h : EncFits m off f d) :
    fractL off ⟨f - off.val, d - off.val⟩ = f := by
  obtain ⟨_, _, h1, h2⟩ := h
  simp [fractL]; omega

/-- The divider of an encoded pair reads back logically. -/
theorem divideL_enc {m : RegMap} {off : Fin 2} {f d : Nat} (h : EncFits m off f d) :
    divideL off ⟨f - off.val, d - off.val⟩ = d := by
  obtain ⟨_, _, h1, h2⟩ := h
  simp [divideL]; omega

/-- An encoded pair is legal. -/
theorem legal_enc {m : RegMap} {off : Fin 2} {f d : Nat} (h : EncFits m off f d) :
    ratioLegal off ⟨f - off.val, d - off.val⟩ = true := by
  simp only [ratioLegal, fractL_enc h, divideL_enc h]
  obtain ⟨_, _, h1, h2⟩ := h
  simp; omega

/-- Every other rate is unsupported (R123). -/
theorem rateTable_none {r : Word} (h : r ≠ 48000) : rateTable r = none := by
  unfold rateTable
  rw [if_neg h]

/-! ### The register images -/

section Images

variable {m : RegMap} (hm : regMapOk m = true)
include hm

/-- The gate image sets GATE (R120). -/
theorem gateImg_gate : (gateImg m).getLsbD m.gate = true :=
  packFields_one (l := [(.bit m.gate, 1)]) (regMapOk_layout hm .clkgate) (by simp)

/-- The MCR image (R130). -/
theorem mcrOf_mcrImg : mcrOf m (mcrImg m) = ⟨true, 0⟩ := by
  have hl : layoutOk ([(Field.bit m.duf, 0), (Field.bit m.moe, 1), (m.mics, 0)].map Prod.fst) = true :=
    regMapOk_layout hm .mcr
  unfold mcrOf mcrImg
  rw [packFields_one hl (by simp), getField_packFields hl (f := m.mics) (x := 0) (by simp), Nat.zero_mod]

/-- The RCR2 image (R141). -/
theorem rcr2Of_rcr2Img : rcr2Of m (rcr2Img m) = ⟨0, 1, true, true, 1⟩ := by
  have hl : layoutOk ([(m.sync, 0), (m.msel, 1), (Field.bit m.bcp, 1), (.bit m.bcd, 1), (m.div, 1)].map Prod.fst) =
      true := regMapOk_layout hm .rcr2
  have w1 : 1 < 2 ^ m.msel.width := Nat.one_lt_two_pow (by have := (layoutOk_mem hl (f := m.msel) (by simp)).1; omega)
  have w2 : 1 < 2 ^ m.div.width := Nat.one_lt_two_pow (by have := (layoutOk_mem hl (f := m.div) (by simp)).1; omega)
  unfold rcr2Of rcr2Img
  rw [packFields_one hl (i := m.bcp) (by simp), packFields_one hl (i := m.bcd) (by simp),
    getField_packFields hl (f := m.sync) (x := 0) (by simp), getField_packFields_of_lt hl (f := m.msel) (by simp) w1,
    getField_packFields_of_lt hl (f := m.div) (by simp) w2, Nat.zero_mod]

/-- The RCR4 image (R141). -/
theorem rcr4Of_rcr4Img {c b : Nat} (hc : c - 1 < 2 ^ m.frsz.width) (hb : b - 1 < 2 ^ m.sywd.width) :
    rcr4Of m (rcr4Img m c b) = ⟨c - 1, b - 1, true, true, true, true⟩ := by
  have hl : layoutOk ([(m.frsz, c - 1), (m.sywd, b - 1), (Field.bit m.mf, 1), (.bit m.fse, 1), (.bit m.fsp, 1),
      (.bit m.fsd, 1)].map Prod.fst) = true := regMapOk_layout hm .rcr4
  unfold rcr4Of rcr4Img
  rw [packFields_one hl (i := m.mf) (by simp), packFields_one hl (i := m.fse) (by simp),
    packFields_one hl (i := m.fsp) (by simp), packFields_one hl (i := m.fsd) (by simp),
    getField_packFields_of_lt hl (f := m.frsz) (by simp) hc, getField_packFields_of_lt hl (f := m.sywd) (by simp) hb]

/-- The RCR5 image (R141). -/
theorem rcr5Of_rcr5Img {b : Nat} (h1 : b - 1 < 2 ^ m.wnw.width) (h2 : b - 1 < 2 ^ m.w0w.width)
    (h3 : b - 1 < 2 ^ m.fbt.width) : rcr5Of m (rcr5Img m b) = ⟨b - 1, b - 1, b - 1⟩ := by
  have hl : layoutOk ([(m.wnw, b - 1), (m.w0w, b - 1), (m.fbt, b - 1)].map Prod.fst) = true := regMapOk_layout hm .rcr5
  unfold rcr5Of rcr5Img
  rw [getField_packFields_of_lt hl (f := m.wnw) (by simp) h1, getField_packFields_of_lt hl (f := m.w0w) (by simp) h2,
    getField_packFields_of_lt hl (f := m.fbt) (by simp) h3]

/-- The RCR1 image (R141). -/
theorem rcr1Of_rcr1Img {c : Nat} (hc : c - 1 < 2 ^ m.rfw.width) : rcr1Of m (rcr1Img m c) = ⟨c - 1⟩ := by
  have hl : layoutOk ([(m.rfw, c - 1)].map Prod.fst) = true := regMapOk_layout hm .rcr1
  unfold rcr1Of rcr1Img
  rw [getField_packFields_of_lt hl (by simp) hc]

/-- The RCSR image sets the enables, and neither FR nor FEF (R141). -/
theorem rcsrImg_bits :
    (rcsrImg m).getLsbD m.re = true ∧ (rcsrImg m).getLsbD m.bce = true ∧ (rcsrImg m).getLsbD m.fr = false ∧
      (rcsrImg m).getLsbD m.fef = false ∧ (rcsrImg m).getLsbD m.frie = true := by
  have hl : layoutOk ([(Field.bit m.re, 1), (.bit m.bce, 1), (.bit m.fr, 0), (.bit m.fef, 0), (.bit m.frf, 0),
      (.bit m.frie, 1)].map Prod.fst) = true := regMapOk_layout hm .rcsr
  unfold rcsrImg
  exact ⟨packFields_one hl (by simp), packFields_one hl (by simp), packFields_zero hl (by simp),
    packFields_zero hl (by simp), packFields_one hl (by simp)⟩

/-- What the enabling write leaves of RCSR and the FIFO (R216). -/
theorem rcsrAfter_rcsrImg (old : Rcsr) (q : List Word) :
    rcsrAfter m (rcsrImg m) old = ⟨true, true, true, old.fef⟩ ∧ rxqAfter m .rcsr (rcsrImg m) q = q := by
  obtain ⟨h1, h2, h3, h4, h5⟩ := rcsrImg_bits hm
  simp [rcsrAfter, rxqAfter, h1, h2, h3, h4, h5]

end Images

/-- The register state after the first four writes of a frame configuration (R141). -/
theorem regsAfter_frame {p : Params} (hp : paramsOk p = true) {c b : Nat} (h : FrameOk p c b) (g : Regs) :
    regsAfter p.regMap .rcr2 (rcr2Img p.regMap) g = { g with rcr2 := ⟨0, 1, true, true, 1⟩ } ∧
    regsAfter p.regMap .rcr4 (rcr4Img p.regMap c b) g = { g with rcr4 := ⟨c - 1, b - 1, true, true, true, true⟩ } ∧
    regsAfter p.regMap .rcr5 (rcr5Img p.regMap b) g = { g with rcr5 := ⟨b - 1, b - 1, b - 1⟩ } ∧
    regsAfter p.regMap .rcr1 (rcr1Img p.regMap c) g = { g with rcr1 := ⟨c - 1⟩ } := by
  obtain ⟨h1, h2, h3, h4, h5, h6⟩ := frameOk_fits hp h
  have hm := paramsOk_regMap hp
  simp [regsAfter, rcr2Of_rcr2Img hm, rcr4Of_rcr4Img hm h2 h3, rcr5Of_rcr5Img hm h4 h5 h6, rcr1Of_rcr1Img hm h1]

/-- The images of R141 under the default layout, as these numbers. -/
theorem images_default : ∀ c : Fin 8, ∀ b : Fin 32,
    rcr4Img RegMap.default (c.val + 1) (b.val + 1) = BitVec.ofNat 32 (c.val * 65536 + b.val * 256 + 27) ∧
    rcr5Img RegMap.default (b.val + 1) = BitVec.ofNat 32 (b.val * 16777216 + b.val * 65536 + b.val * 256) ∧
    rcr1Img RegMap.default (c.val + 1) = BitVec.ofNat 32 c.val := by decide

/-! ### Writes that are admitted -/

/-- Setting the gate is always admitted (R213). -/
theorem writeCheck_gate {s : State} (hm : regMapOk s.params.regMap = true) :
    writeCheck .clkgate (gateImg s.params.regMap) s = none := by
  rw [writeCheck_none]
  refine ⟨by decide, by simp, by simp [wmask], ?_⟩
  simp [ruleCheck, clkgateCheck, gateImg_gate hm]

/-- An encodable pair may be written behind an open gate (R215). -/
theorem writeCheck_mdr {s : State} (hm : regMapOk s.params.regMap = true) {f d : Nat}
    (h : EncFits s.params.regMap s.params.mdrEncOffset f d) (hg : s.regs.gate = true) :
    writeCheck .mdr (encMdr s.params.regMap s.params.mdrEncOffset f d) s = none := by
  rw [writeCheck_none]
  refine ⟨by decide, by simp [hg], (within_iff (by decide) _).2 (within_encMdr _ _ _ _), ?_⟩
  simp [ruleCheck, mdrCheck, mdrOf_encMdr hm h, legal_enc h]

/-- The output may be enabled with a legal ratio (R215). -/
theorem writeCheck_mcr {s : State} (hm : regMapOk s.params.regMap = true) (hg : s.regs.gate = true)
    (h : mdrLegal s = true) : writeCheck .mcr (mcrImg s.params.regMap) s = none := by
  rw [writeCheck_none]
  refine ⟨by decide, by simp [hg], (within_iff (by decide) _).2 (packFields_within_reg rfl), ?_⟩
  have := congrArg Mcr.moe (mcrOf_mcrImg hm)
  simp only [mcrOf] at this
  simp [ruleCheck, mcrCheck, h, this]

/-- A configuration register may be written while the receiver is off (R218). -/
theorem writeCheck_config (r : Reg) (v : Word) (s : State) (hr : r = .rcr1 ∨ r = .rcr2 ∨ r = .rcr4 ∨ r = .rcr5)
    (hg : s.regs.gate = true) (hre : s.regs.rcsr.re = false) (hm : v &&& ~~~(wmask s.params.regMap r) = 0) : writeCheck r v s = none := by
  rw [writeCheck_none]
  rcases hr with rfl | rfl | rfl | rfl <;> refine ⟨by decide, by simp [hg], hm, ?_⟩ <;>
    simp [ruleCheck, configCheck, hre]

/-- The images of R141 are the admitted mode (R62, R142). -/
theorem modeAdmitted_framed {s : State} (hp : paramsOk s.params = true) {c b : Nat} (h : FrameOk s.params c b) (g : Regs)
    (hg : s.regs = framedRegs c b g) : modeAdmitted s = true := by
  obtain ⟨h1, h2, h3, h4⟩ := h
  have := ((paramsOk_iff _).1 hp).2.1
  have e : b - 1 + 1 = b := by omega
  simp [modeAdmitted, hg, framedRegs, e, h3, h4]

/-- The receiver may be enabled in the admitted mode with a running clock (R216). -/
theorem writeCheck_rcsr {s : State} (hl : regMapOk s.params.regMap = true) (hg : s.regs.gate = true)
    (hm : modeAdmitted s = true) (hk : clkOk s = true) : writeCheck .rcsr (rcsrImg s.params.regMap) s = none := by
  rw [writeCheck_none]
  refine ⟨by decide, by simp [hg], (within_iff (by decide) _).2 (packFields_within_reg rfl), ?_⟩
  obtain ⟨h1, h2, _⟩ := rcsrImg_bits hl
  simp [ruleCheck, rcsrCheck, h1, h2, hm, hk]

/-- Without a running clock it is F_SEQ (R216). -/
theorem writeCheck_rcsr_clock {s : State} (hl : regMapOk s.params.regMap = true) (hg : s.regs.gate = true)
    (hk : clkOk s = false) : writeCheck .rcsr (rcsrImg s.params.regMap) s = some (.fault .fSeq (.reg .rcsr)) := by
  have hw : rcsrImg s.params.regMap &&& ~~~(wmask s.params.regMap .rcsr) = 0 :=
    (within_iff (by decide) _).2 (packFields_within_reg rfl)
  simp only [writeCheck, hg, hw]
  simp [ruleCheck, rcsrCheck, (rcsrImg_bits hl).1, hk]

/-- A value inside the mask, at a register the gate lets through: the register's own rule decides (R214). -/
theorem writeCheck_rule {r : Reg} {v : Word} {s : State} (hr : r ≠ .rdr) (hg : s.regs.gate = true ∨ r = .clkgate)
    (hm : v &&& ~~~(wmask s.params.regMap r) = 0) : writeCheck r v s = ruleCheck r v s := by
  unfold writeCheck
  rw [if_neg hr, if_neg, if_neg (not_not_intro hm)]
  rintro ⟨h1, h2⟩; rcases hg with h | h
  · simp [h] at h2
  · exact h1 h

/-! ### Reads -/

/-- A bit of a read: the field's, or the draw's where the mask lets it through (R221). -/
theorem readFields_bit (r : Reg) (s : State) (n : Nat) (hn : n < 32) :
    (readFields r s).1.getLsbD n =
      ((regFields s.params.regMap s.regs (frf s) r).getLsbD n || ((draw s).1.getLsbD n && !(rmask s.params.regMap r).getLsbD n)) := by
  simp only [readFields, BitVec.getLsbD_or, BitVec.getLsbD_and, BitVec.getLsbD_not, hn]
  simp

/-- A bit inside the mask is the field's. -/
theorem readFields_masked (r : Reg) (s : State) :
    ∀ n, n < 32 → (rmask s.params.regMap r).getLsbD n = true →
      (readFields r s).1.getLsbD n = (regFields s.params.regMap s.regs (frf s) r).getLsbD n := by
  intro n hn hm; rw [readFields_bit r s n hn, hm]; simp

/-- A read shows each number of the view in its field: a field whose bits the mask has (R221). -/
theorem readFields_field {r : Reg} {s : State} (hm : regMapOk s.params.regMap = true) {f : Field} {x : Nat}
    (hf : (f, x) ∈ viewFields s.params.regMap s.regs (frf s) r)
    (hr : ∀ n, n < 32 → InField f n → (rmask s.params.regMap r).getLsbD n = true) (hx : x < 2 ^ f.width) :
    getField f (readFields r s).1 = x := by
  have hl : layoutOk ((viewFields s.params.regMap s.regs (frf s) r).map Prod.fst) = true := by
    rw [viewFields_fst]; exact regMapOk_layout hm r
  rw [← getField_packFields_of_lt hl hf hx]
  refine getField_congr fun n hn => ?_
  have hw : n < 32 := by
    have := (layoutOk_mem hl (List.mem_map_of_mem (f := Prod.fst) hf)).2
    simp only [InField] at hn this
    omega
  exact readFields_masked r s n hw (hr n hw hn)

/-- A read shows each flag of the view at its bit (R221). -/
theorem readFields_flag {r : Reg} {s : State} (hm : regMapOk s.params.regMap = true) {i : Nat} {b : Bool}
    (hf : (Field.bit i, b.toNat) ∈ viewFields s.params.regMap s.regs (frf s) r)
    (hr : ∀ n, n < 32 → InField (Field.bit i) n → (rmask s.params.regMap r).getLsbD n = true) :
    (readFields r s).1.getLsbD i = b := by
  have h := readFields_field hm hf hr (by cases b <;> simp [Field.bit])
  rw [getField_bit] at h
  cases b <;> simpa using h

/-- Two words that agree on a mask's bits agree under it. -/
theorem and_eq_of {a b m : Word}
    (h : ∀ n, n < 32 → m.getLsbD n = true → a.getLsbD n = b.getLsbD n) :
    a &&& m = b &&& m := by
  apply BitVec.eq_of_getLsbD_eq
  intro i hi
  rw [BitVec.getLsbD_and, BitVec.getLsbD_and]
  cases hm : m.getLsbD i
  · simp
  · simp [h i hi hm]

end Sys2Proof.Machine
end

