-- ==== Sys2Proof/Laws/Outcomes.lean ====
section
/-! SUPPORT. What the steps of the host, the handler and the receiver leave, and that a placed table word is what the next
step runs. -/

namespace Sys2Proof.Machine

open Sys2Proof.Config

/-- An agent has faulted exactly when a record names it (R240). -/
theorem hasFaulted_iff (a : Agent) (s : State) : hasFaulted a s = true ↔ ∃ r ∈ s.faults, r.agent = a := by
  simp [hasFaulted]

/-- An agent has not faulted exactly when no record names it. -/
theorem hasFaulted_false_iff (a : Agent) (s : State) : hasFaulted a s = false ↔ ∀ r ∈ s.faults, r.agent ≠ a := by
  simp [hasFaulted]

/-! ### Host steps -/

/-- One step of several. -/
theorem execTimes_succ {n : Nat} {i : Instr} {s t : State} (h : exec i s = .next t) :
    execTimes (n + 1) i s = execTimes n i t := by
  simp [execTimes, h]

/-- One step alone. -/
theorem execTimes_one {i : Instr} {s t : State} (h : exec i s = .next t) : execTimes 1 i s = .next t := by
  simp [execTimes, h]

/-- What an admitted macro step leaves: the written register, the FIFO, the event, and the report's writes. -/
theorem macroWrite_ok {st : MacroStep} {s : State} (h : writeCheck st.reg st.value s = none) :
    macroWrite st s = .ok
      (match st.report with
      | none => emit (.regWr st.reg st.value)
          { s with
            regs := regsAfter s.params.regMap st.reg st.value s.regs
            rxq := rxqAfter s.params.regMap st.reg st.value s.rxq }
      | some r => applyReport r (emit (.regWr st.reg st.value)
          { s with
            regs := regsAfter s.params.regMap st.reg st.value s.regs
            rxq := rxqAfter s.params.regMap st.reg st.value s.rxq })) := by
  unfold macroWrite
  rw [regWrite_ok h]
  cases st.report <;> rfl

/-- A macro step whose write stops. -/
theorem macroWrite_error {st : MacroStep} {s : State} {e : Stop} (h : writeCheck st.reg st.value s = some e) :
    macroWrite st s = .error e := by
  simp only [macroWrite, regWrite_error h]

/-- Everything a macro step leaves: records and the mark alone, or one made write with the position moved. -/
theorem hostMacro_next {o : Opcode} {steps : List MacroStep} {s t : State} (h : hostMacro o steps s = .next t) :
    (∃ fs rf, t = { s with faults := fs, refused := rf }) ∨
      ∃ st ∈ steps, ∃ s', macroWrite st s = .ok s' ∧ ∃ hp mp, t = { s' with hp := hp, mpos := mp } := by
  rcases hostMacro_cases o steps s with ⟨_, b⟩ | ⟨_, b, c⟩ | ⟨_, st, rest, hd, hh⟩
  · rw [b] at h; cases h; exact .inl ⟨_, _, rfl⟩
  · rw [c] at h; cases h
  have hm : st ∈ steps := List.mem_of_mem_drop (i := s.mpos) (by rw [hd]; simp)
  rcases hh with ⟨_, hh⟩ | ⟨_, e, _, hh⟩ | ⟨_, s', hw, hr, hh⟩ | ⟨_, s', hw, hr, hh⟩ <;> rw [hh] at h <;> cases h
  · exact .inl ⟨_, _, stopAgent_eq _ _ _⟩
  · exact .inl ⟨_, _, stopAgent_eq _ _ _⟩
  · exact .inr ⟨st, hm, s', hw, _, _, rfl⟩
  · exact .inr ⟨st, hm, s', hw, s'.hp, _, rfl⟩

/-- Everything an atomic host command leaves: records and the mark alone, or its effect with the position moved. -/
theorem hostAtomic_next {o : Opcode} {body : State → Except Stop State} {s t : State}
    (h : hostAtomic o body s = .next t) :
    (∃ fs rf, t = { s with faults := fs, refused := rf }) ∨
      ∃ s', body s = .ok s' ∧ ∃ hp, t = { s' with hp := hp, mpos := 0 } := by
  rcases hostAtomic_cases o body s with ⟨a, b⟩ | ⟨_, e, _, hh⟩ | ⟨_, s', hw, hh⟩
  · rw [b] at h; cases h; exact .inl ⟨_, _, rfl⟩
  · rw [hh] at h; cases h; exact .inl ⟨_, _, stopAgent_eq _ _ _⟩
  · rw [hh] at h; cases h; exact .inr ⟨s', hw, _, rfl⟩

/-- A `regwr` that does not pass its checks. -/
theorem regwr_stop {r : Reg} {v : Word} {s : State} {e : Stop} (hc : s.ctx = .fg) (h : writeCheck r v s = some e) :
    exec (.regwr r v) s = .next (stopAgent .host e s) := hostAtomic_error hc (regWrite_error h)

/-- A `regwr` that is admitted. -/
theorem regwr_ok {r : Reg} {v : Word} {s : State} (hc : s.ctx = .fg) (h : writeCheck r v s = none) :
    exec (.regwr r v) s = .next
      { s with
        regs := regsAfter s.params.regMap r v s.regs
        rxq := rxqAfter s.params.regMap r v s.rxq
        hist := s.hist ++ [.regWr r v]
        hp := s.hp + 2
        mpos := 0 } := hostAtomic_ok hc (regWrite_ok h)

/-- A `regrd` of registers 0 to 7 that the gate lets through. -/
theorem regrd_fields {s : State} {r : Reg} (hc : s.ctx = .fg) (hr : r ≠ .rdr) (hg : r ≠ .clkgate → s.regs.gate = true) :
    exec (.regrd r) s = .next
      { s with
        res := some (readFields r s).1
        hist := s.hist ++ [.regRd r (readFields r s).1]
        draws := s.draws.tail
        freeIdx := if s.draws = [] then s.freeIdx + 1 else s.freeIdx
        hp := s.hp + 1
        mpos := 0 } := by
  have hrd : regRead r s = .ok (readFields r s) := by
    unfold regRead
    rw [if_neg, if_neg hr]
    rintro ⟨h1, h2⟩
    simp [hg h1] at h2
  have hb : regrdBody r s = .ok
      { emit (.regRd r (readFields r s).1) (readFields r s).2 with res := some (readFields r s).1 } := by
    simp only [regrdBody, hrd]
  rw [show exec (.regrd r) s = hostAtomic .regrd (regrdBody r) s from rfl, hostAtomic_ok hc hb, readFields_snd]
  rfl

/-- A `regrd` of RDR behind an open gate. -/
theorem regrd_rdr {s : State} (hc : s.ctx = .fg) (hg : s.regs.gate = true) :
    exec (.regrd .rdr) s = .next
      (hostDone 0 { emit (.regRd .rdr (readRdr s).1) (readRdr s).2 with res := some (readRdr s).1 }) :=
  hostAtomic_ok (o := .regrd) hc
    (s' := { emit (.regRd .rdr (readRdr s).1) (readRdr s).2 with res := some (readRdr s).1 })
    (by simp only [regrdBody, regRead_rdr hg])

/-! ### Handler steps -/

/-- Everything a handler micro-operation leaves: the mark alone, or what its body did with records and the context. -/
theorem handlerOp_next {adm : Bool} {body : State → Except (Stop × State) State} {s t : State}
    (h : handlerOp adm body s = .next t) :
    (∃ rf, t = { s with refused := rf }) ∨
      ∃ s', (body s = .ok s' ∨ ∃ e, body s = .error (e, s')) ∧
        ∃ fs rf c, t = { s' with faults := fs, refused := rf, ctx := c } := by
  rcases handlerOp_cases adm body s with ⟨a, b⟩ | ⟨_, e, s1, he, hh⟩ | ⟨_, s', hw, hh⟩
  · rw [b] at h; cases h; exact .inl ⟨_, rfl⟩
  · rw [hh] at h; cases h; exact .inr ⟨s1, .inr ⟨e, he⟩, _, _, s1.ctx, stopAgent_eq _ _ _⟩
  · rw [hh] at h; cases h; exact .inr ⟨s', .inl hw, _, _, _, advanceHpc_eq _⟩

/-- Everything the body of `h.rd` does, completed or stopped: memory at the destination, the FIFO, the history and the
inputs. -/
theorem hRdBody_next {k : DrainPos} {s s' : State} (h : hRdBody k s = .ok s' ∨ ∃ e, hRdBody k s = .error (e, s')) :
    ∃ m q hs ds n, s' = { s with mem := m, rxq := q, hist := hs, draws := ds, freeIdx := n } ∧
      (m = s.mem ∨ ∃ d v, storesTo (.hRd k) s = some d ∧ m = s.mem.writeWord d v) := by
  cases hr : regRead .rdr s with
  | error e => simp [hRdBody, hr] at h; rw [← h]; exact ⟨_, _, _, _, _, rfl, .inl rfl⟩
  | ok p =>
    obtain ⟨v, s1⟩ := p
    have e1 := regRead_inv hr
    have d0 : (emit (.regRd .rdr v) s1).dest0 = s.dest0 := by rw [e1]; rfl
    have d1 : (emit (.regRd .rdr v) s1).dest1 = s.dest1 := by rw [e1]; rfl
    have aux : ∀ d, (writeDest d v (emit (.regRd .rdr v) s1) = .ok s' ∧ d = storesTo (.hRd k) s ∨
        emit (.regRd .rdr v) s1 = s') →
        ∃ m q hs ds n, s' = { s with mem := m, rxq := q, hist := hs, draws := ds, freeIdx := n } ∧
          (m = s.mem ∨ ∃ d v, storesTo (.hRd k) s = some d ∧ m = s.mem.writeWord d v) := by
      intro d hd
      rcases hd with ⟨hd, hs⟩ | hd
      · obtain ⟨a, hda, _, ht⟩ := writeDest_inv hd
        rw [ht, e1]
        exact ⟨_, _, _, _, _, rfl, .inr ⟨a, v, by rw [← hs, hda], rfl⟩⟩
      · rw [← hd, e1]
        exact ⟨_, _, _, _, _, rfl, .inl rfl⟩
    cases k with
    | skip => simp only [hRdBody, hr] at h; simp at h; exact aux none (.inr h)
    | ch0 =>
      simp only [hRdBody, hr] at h
      cases hd : writeDest (emit (.regRd .rdr v) s1).dest0 v (emit (.regRd .rdr v) s1) with
      | error e => rw [hd] at h; simp at h; exact aux none (.inr h)
      | ok s3 => rw [hd] at h; simp at h; subst h; exact aux _ (.inl ⟨hd, d0⟩)
    | ch1 =>
      simp only [hRdBody, hr] at h
      cases hd : writeDest (emit (.regRd .rdr v) s1).dest1 v (emit (.regRd .rdr v) s1) with
      | error e => rw [hd] at h; simp at h; exact aux none (.inr h)
      | ok s3 => rw [hd] at h; simp at h; subst h; exact aux _ (.inl ⟨hd, d1⟩)

/-! ### The receiver -/

/-- Pushing never removes an entry. -/
theorem pushAll_grows (es : List Word) (s : State) : ∃ ext, (pushAll es s).rxq = s.rxq ++ ext := by
  induction es generalizing s with
  | nil => exact ⟨[], by simp [pushAll]⟩
  | cons e rest ih =>
    obtain ⟨x, hx⟩ := ih (push e s)
    rw [pushAll, hx, push_eq]
    simp only
    split
    · exact ⟨e :: x, by simp⟩
    · exact ⟨x, rfl⟩

/-- A receiver turn appends entries and frames, may set FEF, and changes no more than the inputs beside that. -/
theorem receiverTurn_grows (s : State) :
    ∃ (ext : List Word) (ws : List (List Word)) (f : Bool) (ds : List Word) (n : Nat),
      receiverTurn s =
        { s with
          rxq := s.rxq ++ ext
          hist := s.hist ++ ws.map .frame
          regs := { s.regs with rcsr := { s.regs.rcsr with fef := f } }
          draws := ds
          freeIdx := n } := by
  unfold receiverTurn
  split
  · obtain ⟨ws, es, q, f, ds, n, h1, h2, h3, h4, h5⟩ := receiveFrame_inv s
    have hq : ∃ ext, (receiveFrame s).rxq = s.rxq ++ ext := by
      rw [receiveFrame_eq]
      exact pushAll_grows _ _
    obtain ⟨x, hx⟩ := hq
    rw [h5] at hx
    exact ⟨x, [ws], f, ds, n, by rw [h5, show q = s.rxq ++ x from hx]; rfl⟩
  · exact ⟨[], [], s.regs.rcsr.fef, s.draws, s.freeIdx, by simp⟩

/-! ### The word a table row is placed with -/

/-- Words after a command do not change it. -/
theorem assemble_append {o : Opcode} {sub : Byte} {args rest : List Word} {i : Instr}
    (h : assemble o sub args = some i) : assemble o sub (args ++ rest) = some i := by
  unfold assemble at h
  split at h <;> first | exact h | cases h

/-- Decoding looks at no word past the command. -/
theorem decode_append {ws rest : List Word} {i : Instr} (h : decode ws = .command i) :
    decode (ws ++ rest) = .command i := by
  cases ws with
  | nil => cases h
  | cons w args =>
    obtain ⟨o, h1, h2, h3, h4, h5⟩ := Laws.decode_inv h
    rw [List.cons_append, Laws.decode_of_code _ h1]
    simp [h2, h3, h4, assemble_append h5]

/-- The step after `placeHostWords` runs exactly the placed command. -/
theorem step_placeHostWords {ws : List Word} {i : Instr} (s : State) (h : decode ws = .command i) :
    step (placeHostWords ws s) = exec i { placeHostWords ws s with sched := s.sched } := by
  have hdrop : (placeHostWords ws s).program.drop s.hp = ws ++ s.program.drop (s.hp + ws.length) := by
    simp only [placeHostWords, List.append_assoc]
    rw [← List.append_assoc, List.drop_left' (by simp; omega)]
  have hlen : (placeHostWords ws s).hp ≠ (placeHostWords ws s).program.length := by
    intro he
    have h0 : (placeHostWords ws s).program.drop s.hp = [] := List.drop_eq_nil_of_le (Nat.le_of_eq he.symm)
    rw [hdrop] at h0
    have : ws = [] := (List.append_eq_nil_iff.1 h0).1
    rw [this] at h
    cases h
  have hf : hasFaulted .host (placeHostWords ws s) = false := by
    rw [hasFaulted_false_iff]
    intro r hr
    simpa [placeHostWords] using (List.mem_filter.1 hr).2
  have hen : hostEnabled { placeHostWords ws s with sched := s.sched } = true := by
    have h1 : hasFaulted .host { placeHostWords ws s with sched := s.sched } = false := hf
    have h2 : hostFinished { placeHostWords ws s with sched := s.sched } = false := by
      simp only [hostFinished, Bool.and_eq_false_iff, decide_eq_false_iff_not]
      exact .inl hlen
    simp only [hostEnabled, h1, h2]
    rfl
  have hfe : fetched { placeHostWords ws s with sched := s.sched } = .command i := by
    show decode ((placeHostWords ws s).program.drop s.hp) = _
    rw [hdrop]
    exact decode_append h
  show hostTurn { placeHostWords ws s with sched := s.sched } = _
  simp only [hostTurn, hen, hfe, if_true]

/-- A table word of a host command is what the very next step runs (log 6). -/
theorem step_withFetchWord {nbits w : Nat} {i : Instr} (s : State) (h : decodeTableWord nbits w = some i)
    (hi : microPosition i = none) :
    step (s.withFetchWord nbits w) = exec i { s.withFetchWord nbits w with sched := s.sched } := by
  have hd : decode (tableWords nbits w) = .command i := by
    unfold decodeTableWord at h
    split at h
    · cases h; assumption
    · cases h
  have hp : s.withFetchWord nbits w = placeHostWords (tableWords nbits w) s := by
    simp [State.withFetchWord, placeTableWord, h, hi]
  rw [hp]
  exact step_placeHostWords s hd

end Sys2Proof.Machine
end

