-- ==== Sys2Proof/Laws/Invariant.lean ====
section
/-! SUPPORT. What an admitted register write keeps of the run invariant, and where a command answers a next state. -/

namespace Sys2Proof.Machine

open Sys2Proof.Config

/-- An admitted register write keeps the receiver clocked and admitted, and BCE equal to RE (R219). -/
theorem admitted_write_keeps_receiving {r : Reg} {v : Word} {s t : State} (hw : writeCheck r v s = none)
    (h1 : s.regs.rcsr.re = true → clkOk s = true ∧ modeAdmitted s = true) (h2 : s.regs.rcsr.bce = s.regs.rcsr.re)
    (hp : t.params = s.params) (hr : t.regs = regsAfter s.params.regMap r v s.regs) :
    (t.regs.rcsr.re = true → clkOk t = true ∧ modeAdmitted t = true) ∧ t.regs.rcsr.bce = t.regs.rcsr.re := by
  obtain ⟨c1, c2, c3, c4⟩ := (writeCheck_none _ _ _).1 hw
  have cfg : ∀ r, configCheck r s = none → s.regs.rcsr.re = false := by
    intro r h; unfold configCheck at h; split at h
    · cases h
    · simp_all
  have hma : t.regs.rcr2 = s.regs.rcr2 → t.regs.rcr4 = s.regs.rcr4 → t.regs.rcr5 = s.regs.rcr5 → modeAdmitted t = modeAdmitted s := by
    intro a b c; simp only [modeAdmitted, a, b, c, hp]
  cases r
  case clkgate =>
    have hcl : v.getLsbD s.params.regMap.gate = true → clkOk s = true → clkOk t = true := by
      intro a b; simp only [clkOk, mdrLegal, hp, hr, regsAfter, Bool.and_eq_true] at *; exact ⟨⟨a, b.1.2⟩, b.2⟩
    have e1 : t.regs.rcsr = s.regs.rcsr := by rw [hr]; rfl
    have e2 : modeAdmitted t = modeAdmitted s := hma (by rw [hr]; rfl) (by rw [hr]; rfl) (by rw [hr]; rfl)
    rw [e1, e2]
    refine ⟨fun h => ⟨hcl ?_ (h1 h).1, (h1 h).2⟩, h2⟩
    by_contra hn
    simp only [ruleCheck, clkgateCheck, h] at c4
    simp at hn
    simp [hn] at c4
  case mcr =>
    have e1 : t.regs.rcsr = s.regs.rcsr := by rw [hr]; rfl
    have e2 : modeAdmitted t = modeAdmitted s := hma (by rw [hr]; rfl) (by rw [hr]; rfl) (by rw [hr]; rfl)
    rw [e1, e2]
    refine ⟨fun h => ⟨?_, (h1 h).2⟩, h2⟩
    have b := (h1 h).1
    simp only [clkOk, mdrLegal, hp, hr, regsAfter, Bool.and_eq_true] at b ⊢
    refine ⟨⟨b.1.1, ?_⟩, b.2⟩
    by_contra hn
    simp only [mcrOf] at hn
    simp only [ruleCheck, mcrCheck, h] at c4
    simp at hn
    simp [hn] at c4
  case mdr =>
    have e1 : t.regs.rcsr = s.regs.rcsr := by rw [hr]; rfl
    have e2 : modeAdmitted t = modeAdmitted s := hma (by rw [hr]; rfl) (by rw [hr]; rfl) (by rw [hr]; rfl)
    rw [e1, e2]
    refine ⟨fun h => ⟨?_, (h1 h).2⟩, h2⟩
    have b := (h1 h).1
    simp only [clkOk, mdrLegal, hp, hr, regsAfter, Bool.and_eq_true] at b ⊢
    refine ⟨b.1, ?_⟩
    by_contra hn
    simp only [ruleCheck, mdrCheck, b.1.2] at c4
    simp [hn] at c4
  case rcsr =>
    have e3 : t.regs.rcsr = rcsrAfter s.params.regMap v s.regs.rcsr := by rw [hr]; rfl
    have e2 : modeAdmitted t = modeAdmitted s := hma (by rw [hr]; rfl) (by rw [hr]; rfl) (by rw [hr]; rfl)
    have e4 : clkOk t = clkOk s := by simp only [clkOk, mdrLegal, hp, hr, regsAfter]
    rw [e2, e3, e4]
    simp only [ruleCheck, rcsrCheck] at c4
    split at c4
    · cases c4
    split at c4
    · cases c4
    split at c4
    · cases c4
    rename_i a b c
    refine ⟨fun hre => ⟨?_, ?_⟩, by simpa [rcsrAfter] using c⟩
    · by_contra hn; exact a ⟨hre, by simpa using hn⟩
    · by_contra hn; exact b ⟨hre, by rw [← Bool.not_eq_true]; exact hn⟩
  case rdr => contradiction
  all_goals
    have hre := cfg _ c4
    have e1 : t.regs.rcsr = s.regs.rcsr := by rw [hr]; rfl
    rw [e1]
    exact ⟨fun h => by simp [hre] at h, h2⟩

/-- A register write stores numbers that fit their fields (R10, R15). -/
theorem regsAfter_fields {m : RegMap} {g : Regs} (h : FieldsFit m g) (r : Reg) (v : Word) :
    FieldsFit m (regsAfter m r v g) := by
  obtain ⟨h1, h2, h3, h4, h5, h6, h7, h8, h9, h10, h11, h12⟩ := h
  cases r <;> simp [FieldsFit, regsAfter, mcrOf, mdrOf, rcr1Of, rcr2Of, rcr4Of, rcr5Of, getField_lt, *]

/-- Every command answers a next state, but a macro-operation past its last write (log 15). -/
theorem exec_answers_next {i : Instr} {s : State}
    (hc : s.mpos < (expansion s.params i).length ∨ expansion s.params i = []) : ∃ t, exec i s = .next t := by
  have hm : ∀ o, s.mpos < (expansion s.params i).length → ∃ t, hostMacro o (expansion s.params i) s = .next t := by
    intro o hl
    rcases hostMacro_cases o (expansion s.params i) s with ⟨_, b⟩ | ⟨_, b, _⟩ | ⟨_, st, rest, hd, hh⟩
    · exact ⟨_, b⟩
    · have := congrArg List.length b
      simp at this; omega
    · rcases hh with ⟨_, hh⟩ | ⟨_, e, _, hh⟩ | ⟨_, s', hw, hr, hh⟩ | ⟨_, s', hw, hr, hh⟩ <;> exact ⟨_, hh⟩
  have ha : ∀ o body, ∃ t, hostAtomic o body s = .next t := by
    intro o body
    rcases hostAtomic_cases o body s with ⟨a, b⟩ | ⟨_, e, _, hh⟩ | ⟨_, s', hw, hh⟩
    · exact ⟨_, b⟩
    · exact ⟨_, hh⟩
    · exact ⟨_, hh⟩
  have hh : ∀ o body, ∃ t, handlerOp o body s = .next t := by
    intro o body
    rcases handlerOp_cases o body s with ⟨a, b⟩ | ⟨_, e, _, _, hh⟩ | ⟨_, s', hw, hh⟩
    · exact ⟨_, b⟩
    · exact ⟨_, hh⟩
    · exact ⟨_, hh⟩
  cases i with
  | gateEn => exact hm _ (hc.resolve_right (by simp [expansion]))
  | mclkRate r => exact hm _ (hc.resolve_right (by simp [expansion, mclkRateSteps]; split <;> simp))
  | mclkPair _ _ => exact hm _ (hc.resolve_right (by simp [expansion, mclkPairSteps]))
  | frameCfg _ _ => exact hm _ (hc.resolve_right (by simp [expansion, frameCfgSteps]))
  | beginRate _ _ _ => exact hm _ (hc.resolve_right (by simp [expansion, beginRateSteps, mclkRateSteps]; split <;> simp))
  | beginPair _ _ _ _ => exact hm _ (hc.resolve_right (by simp [expansion, beginPairSteps, mclkPairSteps]))
  | hRet => simp only [exec, execHRet]; split <;> exact ⟨_, rfl⟩
  | hRd k => exact hh _ _
  | hFr => exact hh _ _
  | hCall d => exact hh (inHandler d s) (hCallBody d)
  | stopRx => exact ha .stopRx stopRxBody
  | stopTx => exact ha .stopTx stopTxBody
  | _ => exact ha _ _

/-- A macro-operation has at least one write, and an atomic command none. -/
theorem expansion_pos (p : Params) (i : Instr) : 0 < (expansion p i).length ∨ expansion p i = [] := by
  cases h : expansion p i <;> simp

/-- No macro-operation writes RDR (R98). -/
theorem expansion_reg {p : Params} {i : Instr} {st : MacroStep} (h : st ∈ expansion p i) : st.reg ≠ .rdr := by
  have hr : ∀ m off r, ∀ st ∈ mclkRateSteps m off r, st.reg ≠ .rdr := by
    intro m off r
    unfold mclkRateSteps
    split <;> simp [gateStep]
  have hp : ∀ m off f d, ∀ st ∈ mclkPairSteps m off f d, st.reg ≠ .rdr := by simp [mclkPairSteps, gateStep]
  have hf : ∀ c b, ∀ st ∈ frameCfgSteps p c b, st.reg ≠ .rdr := by simp [frameCfgSteps]
  cases i with
  | gateEn => simp [expansion, gateStep] at h; simp [h]
  | mclkRate r => exact hr _ _ _ _ h
  | mclkPair f d => exact hp _ _ _ _ _ h
  | frameCfg c b => exact hf _ _ _ h
  | beginRate r c b =>
    rcases List.mem_append.1 h with h | h
    · exact hr _ _ _ _ h
    · split at h
      · exact hf _ _ _ h
      · cases h
  | beginPair f d c b =>
    rcases List.mem_append.1 h with h | h
    · exact hp _ _ _ _ _ h
    · exact hf _ _ _ h
  | _ => cases h

end Sys2Proof.Machine
end

