-- ==== Sys2Proof/Tests/Slice0.lean ====
section
/-! SUPPORT. Tests. Every expected value is one of 95_test_vectors.md (named V-… or P…) or is written out from the encoding
of 30_encoding.md. After the tests of the model, one witness per statement that has hypotheses. -/

namespace Sys2Proof.Tests

open Sys2Proof.Config Sys2Proof.Machine

/-! ### Helpers -/

/-- The state a step leaves. -/
def next (o : Host.Outcome State Fault Refusal) : Option State :=
  match o with
  | .next s => some s
  | .fault _ => none
  | .refused _ => none

/-- One command run in the foreground of `s`. -/
def after (i : Instr) (s : State) : Option State := next (exec i s)

/-- Reset with other registers. -/
def withRegs (g : Regs) : State := { State.reset with regs := g }

/-- Reset with the gate open. -/
def open0 : State := withRegs { Regs.reset with gate := true }

/-- "Clocked" of section 2.6. -/
def clocked : State := withRegs { Regs.reset with gate := true, mcr := ⟨true, 0⟩, mdr := ⟨16, 125⟩ }

/-- "Configured" of section 2.6, with the images of V-FRM-1. -/
def configured : State :=
  withRegs { clocked.regs with
    rcr1 := ⟨1⟩, rcr2 := ⟨0, 1, true, true, 1⟩, rcr4 := ⟨1, 31, true, true, true, true⟩, rcr5 := ⟨31, 31, 31⟩ }

/-- The registers after V-REG-18. -/
def running : State := withRegs { configured.regs with rcsr := ⟨true, true, true, false⟩ }

/-- RX Running as in V-DRN-1: three entries held, both destinations stored. -/
def rxReady : State :=
  { running with
    rxq := [0x11, 0x22, 0x33]
    irqenRx := true
    cbRx := some 0x100
    dest0 := some 0x20000000
    dest1 := some 0x20000004 }

/-- The same inside the RX handler. -/
def inRx (n : Nat) : State := { rxReady with ctx := .handler .rx n }

/-- TX Running, and a TX handler. -/
def txReady : State := { State.reset with irqenTx := true, cbTx := some 0x200 }

def inTx (n : Nat) : State := { txReady with ctx := .handler .tx n }

/-- R22's table with RCR1.RFW moved to [6:4], RCR5.WNW to [31:27], and RCSR.RE and RCSR.FRIE exchanged. -/
def moved : RegMap :=
  { RegMap.default with rfw := ⟨4, 3⟩, wnw := ⟨27, 5⟩, re := 8, frie := 31 }

/-- A state under that layout. -/
def withMoved (s : State) : State := { s with params := { s.params with regMap := moved } }

/-! ### Well-formedness: the one check, and a term it refuses -/

theorem test_wf_refuses_regwr_rdr : (Instr.regwr .rdr 0).wf = false := by decide

theorem test_wf_admits_regwr_rcr5 : (Instr.regwr .rcr5 0).wf = true := by decide

theorem test_wf_admits_regrd_rdr : (Instr.regrd .rdr).wf = true := by decide

/-! ### Decoding: words written out from R92 and R97 (section 2.1) -/

theorem test_decode_gate_en : decode [0x01000000] = .command .gateEn := by decide

theorem test_decode_mclk_rate : decode [0x02000001, 0x0000BB80] = .command (.mclkRate 48000) := by decide

theorem test_decode_mclk_pair :
    decode [0x03000002, 0x00000010, 0x0000007D] = .command (.mclkPair 16 125) := by decide

theorem test_decode_frame_cfg :
    decode [0x04000002, 0x00000002, 0x00000020] = .command (.frameCfg 2 32) := by decide

theorem test_decode_begin_rate :
    decode [0x05000003, 0x0000BB80, 0x00000002, 0x00000020] = .command (.beginRate 48000 2 32) := by decide

theorem test_decode_begin_pair :
    decode [0x06000004, 0x00000010, 0x0000007D, 0x00000002, 0x00000010] = .command (.beginPair 16 125 2 16) := by
  decide

theorem test_decode_start_rx :
    decode [0x08000003, 0x00000100, 0x20000000, 0x20000004] =
      .command (.startRx 0x100 0x20000000 0x20000004) := by decide

theorem test_decode_stop_rx : decode [0x09000000] = .command .stopRx := by decide

theorem test_decode_start_tx : decode [0x0A000001, 0x00000200] = .command (.startTx 0x200) := by decide

theorem test_decode_stop_tx : decode [0x0B000000] = .command .stopTx := by decide

theorem test_decode_regwr : decode [0x10050001, 0x07000001] = .command (.regwr .rcr2 0x07000001) := by decide

theorem test_decode_regwr_ids :
    [0, 1, 2, 3, 4, 5, 6, 7].map (fun k => decode [BitVec.ofNat 32 (0x10000001 + k * 65536), 9]) =
      [Reg.clkgate, .mcr, .mdr, .rcsr, .rcr1, .rcr2, .rcr4, .rcr5].map (fun r => .command (.regwr r 9)) := by decide

theorem test_decode_regrd : decode [0x11080000] = .command (.regrd .rdr) := by decide

theorem test_decode_rx_program :
    [0x20000000, 0x20010000, 0x20020000, 0x21000000, 0x22000000, 0x23000000].map (fun w => decode [w]) =
      [Instr.hRd .ch0, .hRd .skip, .hRd .ch1, .hFr, .hCall .rx, .hRet].map .command := by decide

theorem test_decode_tx_program :
    [0x22010000, 0x23000000].map (fun w => decode [w]) = [Instr.hCall .tx, .hRet].map .command := by decide

/-- V-ENC-15 to V-ENC-22, V-ENC-25 to V-ENC-27. -/
theorem test_decode_refusals :
    [[0x00000000], [0x07000000], [0x01000001], [0x01000100], [0x01000101], [0x01010000], [0x10080001, 0x00000000],
      [0x11090000], [0x20030000], [0x22020000], [0x02000001], [0x24000000], [0xFF000000], [0x12000000]].map decode =
    [RefuseReason.xOpcode, .xOpcode, .xOpcode, .xInstance, .xOpcode, .xOpcode, .xReg, .xReg, .xOpcode, .xOpcode,
      .xOpcode, .xOpcode, .xOpcode, .xOpcode].map .refused := by decide

/-! ### The placed table word -/

theorem test_fetch_gate_en :
    ((next (step (State.reset.withFetchWord 32 0x01000000))).map fun s => (s.regs.gate, s.hp)) = some (true, 1) := by
  decide

theorem test_fetch_begin_pair_zero_operands :
    decodeTableWord 32 0x06000004 = some (.beginPair 0 0 0 0) := by decide

theorem test_fetch_h_ret :
    ((next (step (State.reset.withFetchWord 32 0x23000000))).map fun s => (s.ctx, s.hist)) =
      some (.fg, [.ret .rx]) := by decide

/-! ### Clock (section 2.2) -/

/-- V-CLK-2. -/
theorem test_gate_en_twice :
    ((after .gateEn State.reset).bind (after .gateEn)).map (fun s => (s.regs.gate, s.hist)) =
      some (true, [.regWr .clkgate 0x8000, .regWr .clkgate 0x8000]) := by decide

/-- V-CLK-4. -/
theorem test_mclk_rate_offset :
    (next (execTimes 3 (.mclkRate 48000)
      { State.reset with params := { Params.default with mdrEncOffset := 1 } })).map
        (fun s => (s.regs.mdr, s.cfgRate, s.res)) = some (⟨15, 124⟩, some 48000, some 1) := by decide

/-- V-CLK-5. -/
theorem test_mclk_rate_unsupported :
    (after (.mclkRate 44100) State.reset).map (fun s => (s.regs.gate, s.regs.mcr.moe, s.res, s.hp)) =
      some (true, false, some 0, 2) := by decide

/-- V-CLK-11. -/
theorem test_mclk_pair_largest :
    (next (execTimes 3 (.mclkPair 255 4095) State.reset)).map (fun s => (s.regs.mdr, s.hist.getLast?)) =
      some (⟨255, 4095⟩, some (.status 1)) := by decide

/-- V-CLK-12. -/
theorem test_mclk_pair_too_large :
    (next (execTimes 2 (.mclkPair 256 4096) State.reset)).map (fun s => (s.regs.gate, s.regs.mdr, s.faults)) =
      some (true, ⟨0, 0⟩, [⟨.fRange, .host, .opcode .mclkPair⟩]) := by decide

/-! ### Frame (section 2.3) -/

/-- V-FRM-4. -/
theorem test_frame_cfg_eight_by_eight :
    (next (execTimes 4 (.frameCfg 8 8) clocked)).map (fun s => s.hist) =
      some [.regWr .rcr2 0x07000001, .regWr .rcr4 0x0007071B, .regWr .rcr5 0x07070700, .regWr .rcr1 7] := by decide

/-- V-FRM-8. -/
theorem test_frame_cfg_without_clock :
    (next (execTimes 5 (.frameCfg 2 32) open0)).map (fun s => (s.regs.rcr1, s.regs.rcsr.re, s.faults)) =
      some (⟨1⟩, false, [⟨.fSeq, .host, .reg .rcsr⟩]) := by decide

/-- V-FRM-10. -/
theorem test_begin_rate :
    (next (execTimes 8 (.beginRate 48000 2 32) State.reset)).map (fun s => (s.regs, s.cfgRate, s.res, s.hp)) =
      some (running.regs, some 48000, some 1, 4) := by decide

/-- V-FRM-11. -/
theorem test_begin_rate_unsupported :
    (after (.beginRate 44100 9 32) State.reset).map (fun s => (s.res, s.faults, s.hp)) = some (some 0, [], 4) := by
  decide

/-- V-FRM-12. -/
theorem test_begin_pair :
    (next (execTimes 8 (.beginPair 16 125 2 16) State.reset)).map (fun s => (s.regs.rcr4, s.regs.rcr5, s.cfgRate)) =
      some (⟨1, 15, true, true, true, true⟩, ⟨15, 15, 15⟩, none) := by decide

/-- V-FRM-13. -/
theorem test_begin_pair_bad_frame :
    (next (execTimes 4 (.beginPair 16 125 9 32) State.reset)).map
      (fun s => (s.regs.mcr.moe, s.res, s.regs.rcsr.re, s.faults.map fun r => r.code)) =
        some (true, some 1, false, [.fRange]) := by decide

/-! ### Lifecycle (section 2.4) -/

/-- V-LIF-2. -/
theorem test_start_rx_unconfigured :
    (after (.startRx 0x100 0x20000000 0x20000004) State.reset).map (fun s => (s.irqenRx, s.cbRx, s.faults)) =
      some (false, none, [⟨.fSeq, .host, .opcode .startRx⟩]) := by decide

/-- V-LIF-3. -/
theorem test_start_rx :
    (after (.startRx 0x100 0x20000000 0x20000004) running).map (fun s => (s.irqenRx, s.cbRx, s.dest0, s.dest1)) =
      some (true, some 0x100, some 0x20000000, some 0x20000004) := by decide

/-- V-LIF-4. -/
theorem test_stop_rx :
    (after .stopRx rxReady).map (fun s => (s.irqenRx, s.cbRx, s.dest0, s.dest1)) =
      some (false, some 0x100, some 0x20000000, some 0x20000004) := by decide

/-- V-LIF-9. -/
theorem test_start_tx_running :
    (after (.startTx 0x201) txReady).map (fun s => (s.cbTx, s.faults.map fun r => r.code)) =
      some (some 0x200, [.fSeq]) := by decide

/-- V-LIF-10. -/
theorem test_stop_tx : (after .stopTx txReady).map (fun s => (s.irqenTx, s.cbTx)) = some (false, some 0x200) := by
  decide

/-! ### Register access (section 2.6) -/

/-- V-REG-20. -/
theorem test_regwr_rcsr_reset_keeps_enables :
    (after (.regwr .rcsr 0x92000100) rxReady).map (fun s => (s.rxq, s.regs.rcsr)) =
      some ([], ⟨true, true, true, false⟩) := by decide

/-- V-EXC-5 and V-EXC-6: the order of the checks. -/
theorem test_regwr_check_order :
    (after (.regwr .mcr 1) State.reset).map (fun s => (s.faults.map (fun r => r.code), s.refused)) =
      some ([.fGate], none) ∧
    (after (.regwr .rcr4 0xFFFFFFFF) running).map (fun s => (s.faults.map (fun r => r.code), s.refused)) =
      some ([], some .xField) := by decide

/-- V-REG-29, the drawn bits 0. -/
theorem test_regrd_rcsr :
    (after (.regrd .rcsr) { running with draws := [0] }).map (fun s => s.res) = some (some 0x90000100) := by decide

/-- V-REG-32. -/
theorem test_regrd_rdr_empty :
    (after (.regrd .rdr) { open0 with draws := [0xCAFEF00D] }).map (fun s => (s.res, s.rxq, s.faults)) =
      some (some 0xCAFEF00D, [], []) := by decide

/-! ### Another REGMAP (R11): V-FRM-1, V-REG-18 and the field checks of R212 with the fields moved -/

theorem test_moved_begin_rate :
    (next (execTimes 8 (.beginRate 48000 2 32) (withMoved State.reset))).map (fun s => (s.regs, s.hist.drop 4)) =
      some (running.regs,
        [.regWr .rcr2 0x07000001, .regWr .rcr4 0x00011F1B, .regWr .rcr5 0xF81F1F00, .regWr .rcr1 0x10,
          .regWr .rcsr 0x90000100]) := by decide

theorem test_moved_regwr :
    (after (.regwr .rcr1 0x70) (withMoved configured)).map (fun s => (s.regs.rcr1, s.refused)) = some (⟨7⟩, none) ∧
    (after (.regwr .rcr1 7) (withMoved configured)).map (fun s => (s.regs.rcr1, s.refused)) =
      some (⟨1⟩, some .xField) := by decide

/-! ### Drain (section 2.5) -/

/-- V-DRN-14. -/
theorem test_h_rd_misaligned :
    (after (.hRd .ch0) { inRx 0 with dest0 := some 0x20000002 }).map (fun s => (s.rxq, s.faults, s.mem, s.ctx)) =
      some ([0x22, 0x33], [⟨.fDest, .handler, .dest (some 0x20000002)⟩], [], .handler .rx 0) := by decide

/-- The example of R188. -/
theorem test_h_rd_ch0_bytes :
    (after (.hRd .ch0) { inRx 0 with rxq := [0x1234, 0xDEADBEEF, 0x5678] }).map (fun s => (s.rxq, s.mem)) =
      some ([0xDEADBEEF, 0x5678],
        [(0x20000000, 0x34), (0x20000001, 0x12), (0x20000002, 0x00), (0x20000003, 0x00)]) := by decide

/-- V-DRN-11. -/
theorem test_h_fr_keeps_fef :
    (after .hFr { inRx 3 with regs := { running.regs with rcsr := ⟨true, true, true, true⟩ } }).map
      (fun s => (s.rxq, frf s, s.regs.rcsr.fef)) = some ([], false, true) := by decide

/-- V-DRN-12. -/
theorem test_h_call_rx :
    (after (.hCall .rx) (inRx 4)).map (fun s => (s.hist, s.ctx)) =
      some ([.callback .rx (some 0x100)], .handler .rx 5) := by decide

/-- V-DRN-13. -/
theorem test_h_ret : (after .hRet (inRx 5)).map (fun s => (s.hist, s.ctx)) = some ([.ret .rx], .fg) := by decide

/-- V-ENC-24: a handler opcode in the host program. -/
theorem test_host_h_rd_refused : (after (.hRd .ch0) rxReady).map (fun s => s.refused) = some (some .xContext) := by decide

/-- V-DRN-2, with B = 16. -/
theorem test_receiver_frame :
    (next (runTurn .receiver
      { running with
        regs := { running.regs with rcr5 := ⟨15, 15, 15⟩ }
        draws := [0xFFFF8001, 0x1234ABCD, 0xDEADBEEF] })).map (fun s => (s.hist, s.rxq, rxReq s)) =
      some ([.frame [0x8001, 0xABCD]], [0x8001, 0xDEADBEEF, 0xABCD], true) := by decide

/-- V-DRN-3. -/
theorem test_receiver_overflow :
    (next (runTurn .receiver { running with rxq := [1, 2, 3, 4, 5, 6], draws := [0xA, 0xB, 0xD] })).map
      (fun s => (s.rxq, s.regs.rcsr.fef)) = some ([1, 2, 3, 4, 5, 6, 0xA, 0xD], true) := by decide

/-- V-EXC-1 and V-EXC-3: either line may be taken, and none inside a handler. -/
theorem test_dispatch_choice :
    (next (runTurn (.dispatcher true .rx) { rxReady with irqenTx := true })).map (fun s => s.ctx) =
      some (.handler .rx 0) ∧
    (next (runTurn (.dispatcher true .tx) { rxReady with irqenTx := true })).map (fun s => s.ctx) =
      some (.handler .tx 0) ∧
    (next (runTurn (.dispatcher true .tx) { inRx 2 with irqenTx := true })).map (fun s => s.ctx) =
      some (.handler .rx 2) := by decide

/-- The derived clocks of section 2.2, C = 2 and B = 32. -/
theorem test_derived_clocks :
    mclkHz configured = some 12288000 ∧ bclkHz configured = some 3072000 ∧ frameHz configured = some 48000 := by
  have hm : mclkHz configured = some (96000000 * 16 / 125) := rfl
  have hb : bclkHz configured = some (96000000 * 16 / 125 / ((1 + 1) * 2)) := rfl
  have hf : frameHz configured = some (96000000 * 16 / 125 / ((1 + 1) * 2) / ((2 * 32 : Nat) : Rat)) := rfl
  rw [hm, hb, hf]
  norm_num

/-! ### Witnesses: one per statement with hypotheses, each clause at a boundary of its range -/

theorem witness_DecodeReadsWhatEncodeWrites : (Instr.regwr .rcr5 0xFFFFFFFF).wf = true := by decide

theorem witness_DecodedWordsAreTheirEncoding : decode [0x11080000, 0x55] = .command (.regrd .rdr) := by decide

/-- The five reserved ranges at their ends, and for each later check a word that reaches it. -/
theorem witness_DecoderChecksInOrder :
    [0x00000000, 0x07000000, 0x0C000000, 0x0F000000, 0x12000000, 0x1F000000, 0x24000000, 0xFF000000].map
      (fun w : Word => (opcField w).toNat) = [0x00, 0x07, 0x0C, 0x0F, 0x12, 0x1F, 0x24, 0xFF] ∧
    (opcField 0x01000001 = Opcode.gateEn.code ∧ (nargField 0x01000001).toNat ≠ Opcode.gateEn.narg) ∧
    (opcField 0x01000100 = Opcode.gateEn.code ∧ (nargField 0x01000100).toNat = Opcode.gateEn.narg ∧
      instField 0x01000100 ≠ 0) ∧
    (opcField 0x10080001 = Opcode.regwr.code ∧ (nargField 0x10080001).toNat = Opcode.regwr.narg ∧
      instField 0x10080001 = 0 ∧ 8 ≤ (subField 0x10080001).toNat) ∧
    (opcField 0x11090000 = Opcode.regrd.code ∧ 8 < (subField 0x11090000).toNat) ∧
    (opcField 0x20030000 = Opcode.hRd.code ∧ 2 < (subField 0x20030000).toNat) ∧
    (opcField 0x22020000 = Opcode.hCall.code ∧ 1 < (subField 0x22020000).toNat) ∧
    (opcField 0x01010000 = Opcode.gateEn.code ∧ (subField 0x01010000).toNat ≠ 0) ∧
    (opcField 0x10070001 = Opcode.regwr.code ∧ (subField 0x10070001).toNat < 8) ∧
    (opcField 0x11080000 = Opcode.regrd.code ∧ (subField 0x11080000).toNat ≤ 8) ∧
    (opcField 0x20020000 = Opcode.hRd.code ∧ (subField 0x20020000).toNat ≤ 2) ∧
    (opcField 0x22010000 = Opcode.hCall.code ∧ (subField 0x22010000).toNat ≤ 1) ∧
    ([] : List Word).length < Opcode.mclkRate.narg ∧ Opcode.mclkRate.narg ≤ [(0 : Word)].length := by decide

/-- A host turn given by the schedule, in a state where the host may step, and in ones where it may not. -/
theorem witness_StepRunsTheFetchedCommand :
    let s : State := { State.reset with sched := [.host], program := [0x01000000] }
    let bad : State := { s with program := [0x00000000] }
    ((nextTurn s).1 = .host ∧ s.ctx = .fg ∧ (∀ r ∈ s.faults, r.agent ≠ .host) ∧ s.refused = none ∧
      s.hp ≠ s.program.length ∧ decode (s.program.drop s.hp) = .command .gateEn) ∧
    (decode (bad.program.drop bad.hp) = .refused .xOpcode) ∧
    ({ s with hp := 1 } : State).hp = s.program.length ∧ (inRx 0).ctx ≠ .fg := by decide

theorem witness_StepRunsTheMicroOperation :
    let s : State := { inRx 5 with sched := [.handler] }
    let u : State := { inTx 1 with sched := [.handler] }
    ((nextTurn s).1 = .handler ∧ s.ctx = .handler .rx 5 ∧ (∀ r ∈ s.faults, r.agent ≠ .handler) ∧
      [Instr.hRd .ch0, .hRd .skip, .hRd .ch1, .hFr, .hCall .rx, .hRet][5]? = some .hRet) ∧
    ((nextTurn u).1 = .handler ∧ u.ctx = .handler .tx 1 ∧ (∀ r ∈ u.faults, r.agent ≠ .handler) ∧
      [Instr.hCall .tx, .hRet][1]? = some .hRet) ∧
    ((nextTurn { State.reset with sched := [.handler] }).1 = .handler ∧ State.reset.ctx = .fg) := by decide

theorem witness_FaultIsRecordedAndStopsItsAgent :
    let r : FaultRecord := ⟨.fGate, .host, .reg .mdr⟩
    let q : FaultRecord := ⟨.fDest, .handler, .dest (some 2)⟩
    (r.agent = .host ∧ r ∈ (raiseFault r State.reset).faults) ∧
    (q.agent = .handler ∧ q ∈ (raiseFault q (inRx 0)).faults) := by decide

theorem witness_WrongContextIsRefused :
    (isHandlerOp .gateEn = false ∧ (inRx 0).ctx ≠ .fg) ∧ (isHandlerOp .hRet = true ∧ State.reset.ctx = .fg) ∧
    (inTx 0).ctx = .handler .tx 0 ∧ (inRx 4).ctx = .handler .rx 4 := by decide

/-- The default parameters are ones a launch may give, and so are they with the fields of `moved`. -/
theorem default_ok : paramsOk Params.default = true ∧ paramsOk { Params.default with regMap := moved } = true := by
  simp only [paramsOk_iff, Params.default]
  refine ⟨⟨by norm_num, ?_⟩, by norm_num, ?_⟩ <;> decide

theorem witness_GateEnSetsTheGate :
    State.reset.ctx = .fg ∧ State.reset.mpos = 0 ∧ regMapOk State.reset.params.regMap = true ∧
    regMapOk (withMoved State.reset).params.regMap = true := by decide

theorem witness_MclkRateProgramsOrReports :
    State.reset.ctx = .fg ∧ State.reset.mpos = 0 ∧ paramsOk State.reset.params = true ∧
    paramsOk (withMoved State.reset).params = true ∧ (0xFFFFFFFF : Word) ≠ 48000 :=
  ⟨rfl, rfl, default_ok.1, default_ok.2, by decide⟩

/-- The largest and the smallest pair of both offsets, and the pairs just past them. -/
theorem witness_MclkPairProgramsOrFaults :
    let m := RegMap.default
    State.reset.ctx = .fg ∧ State.reset.mpos = 0 ∧ regMapOk State.reset.params.regMap = true ∧
    EncFits m 0 255 4095 ∧ EncFits m 0 1 1 ∧ EncFits m 1 256 4096 ∧ ¬ EncFits m 0 256 4095 ∧ ¬ EncFits m 0 255 4096 ∧
    ¬ EncFits m 0 0 1 ∧ ¬ EncFits m 0 126 125 ∧ ¬ EncFits m 1 257 4096 := by
  unfold EncFits
  decide

theorem witness_EncodedPairReadsBackLogically :
    regMapOk RegMap.default = true ∧ EncFits RegMap.default 0 255 4095 ∧ EncFits RegMap.default 1 256 4096 ∧
    regMapOk moved = true ∧ EncFits moved 0 255 4095 := by
  unfold EncFits
  decide

theorem witness_DerivedClocksOfTheTableEntry :
    configured.params.fMclkIn = 96000000 ∧ fractL configured.params.mdrEncOffset configured.regs.mdr = 16 ∧
    divideL configured.params.mdrEncOffset configured.regs.mdr = 125 ∧ configured.regs.rcr2.div = 1 ∧
    cfgC configured = 2 ∧ cfgB { configured with regs := { configured.regs with rcr5 := ⟨15, 15, 15⟩ } } = 16 :=
  ⟨rfl, by decide⟩

/-- The ends of the ranges of C and B, just past them, and a state for each of the four outcomes. -/
theorem witness_FrameCfgProgramsTheReceiver :
    paramsOk State.reset.params = true ∧
    FrameOk Params.default 1 8 ∧ FrameOk Params.default 8 32 ∧ ¬ FrameOk Params.default 0 8 ∧
    ¬ FrameOk Params.default 9 8 ∧ ¬ FrameOk Params.default 1 7 ∧ ¬ FrameOk Params.default 1 33 ∧
    State.reset.regs.gate = false ∧ (running.regs.gate = true ∧ running.regs.rcsr.re = true) ∧
    (open0.regs.gate = true ∧ open0.regs.rcsr.re = false ∧ clkOk open0 = false) ∧
    (clocked.ctx = .fg ∧ clocked.mpos = 0 ∧ clocked.regs.gate = true ∧ clocked.regs.rcsr.re = false ∧
      clkOk clocked = true) := by
  refine ⟨default_ok.1, ?_⟩
  unfold FrameOk
  decide

theorem witness_FrameImagesAreAdmitted :
    clocked.ctx = .fg ∧ clocked.mpos = 0 ∧ paramsOk clocked.params = true ∧ FrameOk clocked.params 8 32 ∧
    clocked.regs.gate = true ∧ clocked.regs.rcsr.re = false := by
  refine ⟨rfl, rfl, default_ok.1, ?_⟩
  unfold FrameOk
  decide

theorem witness_BeginRateInitialises :
    State.reset.ctx = .fg ∧ State.reset.mpos = 0 ∧ paramsOk State.reset.params = true ∧ (0 : Word) ≠ 48000 ∧
    ¬ FrameOk State.reset.params 9 32 ∧
    (paramsOk running.params = true ∧ FrameOk running.params 2 32 ∧ running.regs.rcsr.re = true) ∧
    (FrameOk State.reset.params 8 8 ∧ State.reset.regs.rcsr.re = false) := by
  refine ⟨rfl, rfl, default_ok.1, by decide, ?_, ⟨default_ok.1, ?_⟩, ?_⟩ <;> unfold FrameOk <;> decide

theorem witness_BeginPairInitialises :
    State.reset.ctx = .fg ∧ State.reset.mpos = 0 ∧ paramsOk State.reset.params = true ∧
    ¬ EncFits RegMap.default 0 256 4096 ∧ EncFits RegMap.default 0 255 4095 ∧ ¬ FrameOk State.reset.params 2 33 ∧
    (paramsOk running.params = true ∧ FrameOk running.params 1 32 ∧ running.regs.rcsr.re = true) ∧
    (FrameOk State.reset.params 8 8 ∧ State.reset.regs.rcsr.re = false) := by
  refine ⟨rfl, rfl, default_ok.1, ?_, ?_, ?_, ⟨default_ok.1, ?_⟩, ?_⟩ <;>
    (first | unfold EncFits | unfold FrameOk) <;> decide

theorem witness_StartRxStoresAndEnables :
    (rxReady.ctx = .fg ∧ rxReady.irqenRx = true) ∧ State.reset.regs.rcsr.re = false ∧
    (running.ctx = .fg ∧ running.irqenRx = false ∧ running.regs.rcsr.re = true) := by decide

theorem witness_StartTxStoresAndEnables :
    (txReady.ctx = .fg ∧ txReady.irqenTx = true) ∧ (State.reset.ctx = .fg ∧ State.reset.irqenTx = false) := by decide

theorem witness_StopDisablesTheLineOnly : rxReady.ctx = .fg := by decide

/-- A macro-operation that meets the closed gate at its first write, and one inside its expansion. -/
theorem witness_ClosedGateFaultsEveryAccess :
    (State.reset.regs.gate = false ∧ State.reset.ctx = .fg ∧ (0x8000 : Word).getLsbD State.reset.params.regMap.gate = true) ∧
    (∃ st, (expansion State.reset.params (.frameCfg 2 32))[State.reset.mpos]? = some st ∧ st.check = true ∧
      st.reg ≠ .clkgate) ∧
    (∃ st, (expansion State.reset.params (.beginPair 16 125 2 32))[7]? = some st ∧ st.check = true ∧
      st.reg ≠ .clkgate) ∧
    (let s : State := { inRx 3 with regs := Regs.reset }
     s.regs.gate = false ∧ s.ctx = .handler .rx 3) :=
  ⟨by decide, ⟨_, rfl, by decide⟩, ⟨_, rfl, by decide⟩, by decide⟩

theorem witness_RegwrChecksInOrder :
    (State.reset.ctx = .fg ∧ State.reset.regs.gate = false ∧ open0.ctx = .fg ∧ open0.regs.gate = true) ∧
    ¬ Within RegMap.default .mcr 0x20000000 ∧ ¬ Within RegMap.default .mdr 0x00100000 ∧
    ¬ Within RegMap.default .rcsr 0x01000000 ∧ ¬ Within RegMap.default .rcr1 0x00000008 ∧
    ¬ Within RegMap.default .rcr2 0x00000100 ∧ ¬ Within RegMap.default .rcr4 0x00100000 ∧
    ¬ Within RegMap.default .rcr5 0x00000001 := by
  refine ⟨by decide, ?_, ?_, ?_, ?_, ?_, ?_, ?_⟩ <;> rw [← within_iff (by decide)] <;> decide

theorem witness_RegwrClkgate :
    (clocked.ctx = .fg ∧ (0xFFFF7FFF : Word).getLsbD RegMap.default.gate = false ∧ clocked.regs.mcr.moe = true) ∧
    ((0x00008000 : Word).getLsbD RegMap.default.gate = true) ∧
    (open0.ctx = .fg ∧ open0.regs.mcr.moe = false ∧ open0.regs.rcsr.re = false) := by
  decide

theorem witness_RegwrClockRegisters :
    (open0.ctx = .fg ∧ open0.regs.gate = true ∧ mdrLegal open0 = false ∧ open0.regs.rcsr.re = false ∧
      open0.regs.mcr.moe = false) ∧
    (Within RegMap.default .mcr 0x40000000 ∧ (0x40000000 : Word).getLsbD RegMap.default.moe = true) ∧
    (Within RegMap.default .mcr 0x83000000 ∧ (0x83000000 : Word).getLsbD RegMap.default.moe = false) ∧
    (running.regs.gate = true ∧ running.regs.rcsr.re = true ∧ mdrLegal running = true) ∧
    (Within RegMap.default .mdr 0x000FF07D ∧ Within RegMap.default .mdr 0x0000107D ∧ clocked.regs.mcr.moe = true ∧
      ratioLegal clocked.params.mdrEncOffset (mdrOf RegMap.default 0x000FF07D) = false ∧
      ratioLegal clocked.params.mdrEncOffset (mdrOf RegMap.default 0x0000107D) = true) := by
  refine ⟨by decide, ⟨?_, by decide⟩, ⟨?_, by decide⟩, by decide, ?_, ?_, by decide⟩ <;>
    rw [← within_iff (by decide)] <;> decide

theorem witness_RegwrRcsr :
    (Within RegMap.default .rcsr 0x90000100 ∧ (0x90000100 : Word).getLsbD RegMap.default.re = true ∧
      (0x90000100 : Word).getLsbD RegMap.default.bce = (0x90000100 : Word).getLsbD RegMap.default.re) ∧
    (open0.ctx = .fg ∧ open0.regs.gate = true ∧ clkOk open0 = false) ∧
    (clocked.regs.gate = true ∧ clkOk clocked = true ∧ modeAdmitted clocked = false) ∧
    (configured.regs.gate = true ∧ clkOk configured = true ∧ modeAdmitted configured = true) ∧
    (Within RegMap.default .rcsr 0x10000000 ∧ (0x10000000 : Word).getLsbD RegMap.default.re = false ∧
      (0x10000000 : Word).getLsbD RegMap.default.bce ≠ (0x10000000 : Word).getLsbD RegMap.default.re) := by
  refine ⟨⟨?_, by decide⟩, by decide, by decide, by decide, ?_, by decide⟩ <;>
    rw [← within_iff (by decide)] <;> decide

theorem witness_RegwrConfigRegisters :
    (running.ctx = .fg ∧ running.regs.gate = true ∧ running.regs.rcsr.re = true) ∧
    (configured.ctx = .fg ∧ configured.regs.gate = true ∧ configured.regs.rcsr.re = false) ∧
    Within RegMap.default .rcr1 0x00000007 ∧ Within RegMap.default .rcr2 0xCF0000FF ∧
    Within RegMap.default .rcr4 0x000F1F1B ∧ Within RegMap.default .rcr5 0x1F1F1F00 := by
  refine ⟨by decide, by decide, ?_, ?_, ?_, ?_⟩ <;> rw [← within_iff (by decide)] <;> decide

theorem witness_RegrdReadsTheFields :
    regMapOk RegMap.default = true ∧ FieldsFit RegMap.default running.regs ∧
    (State.reset.ctx = .fg ∧ FieldsFit RegMap.default State.reset.regs ∧ Reg.clkgate ≠ .rdr) ∧
    (running.ctx = .fg ∧ Reg.rcr5 ≠ .rdr ∧ running.regs.gate = true) := by
  unfold FieldsFit
  decide

theorem witness_RdrReadTakesTheOldestEntry :
    (rxReady.regs.gate = true ∧ rxReady.rxq = 0x11 :: [0x22, 0x33] ∧ rxReady.ctx = .fg) ∧
    ((inRx 1).regs.gate = true ∧ (inRx 1).ctx = .handler .rx 1) ∧
    (running.regs.gate = true ∧ running.rxq = [] ∧ running.ctx = .fg) ∧
    (({ inRx 1 with rxq := [] } : State).rxq = []) := by decide

theorem witness_RegisterReadsBackWhatWasWritten :
    regMapOk RegMap.default = true ∧ regMapOk moved = true ∧
    (running.ctx = .fg ∧ writeCheck .rcsr 0x92040100 running = none) ∧
    (configured.ctx = .fg ∧ writeCheck .rcr5 0x1F1F1F00 configured = none) ∧
    (open0.ctx = .fg ∧ writeCheck .clkgate 0xFFFF7FFF open0 = none) ∧
    writeCheck .rcr5 0xF81F1F00 (withMoved configured) = none := by decide

/-- An admitted destination at each end of the 32-bit space, a misaligned one, and one nothing makes writable. -/
theorem witness_HRdReadsAndStores :
    State.reset.ctx = .fg ∧ (inRx 0).ctx = .handler .rx 0 ∧ (inRx 0).regs.gate = true ∧
    ({ inRx 0 with regs := Regs.reset } : State).regs.gate = false ∧ (inRx 0).dest0 = some 0x20000000 ∧
    (inRx 0).dest1 = some 0x20000004 ∧ Admitted (inRx 0).params 0x20000000 ∧ Admitted Params.default 0 ∧
    Admitted Params.default 0xFFFFFFFC ∧ ¬ Admitted Params.default 0xFFFFFFFD ∧
    ¬ Admitted { Params.default with writable := [⟨0x20000000, 3⟩] } 0x20000000 := by
  unfold Admitted
  decide

theorem witness_HFrEmptiesTheFifo :
    (inTx 0).ctx = .handler .tx 0 ∧ (inRx 3).ctx = .handler .rx 3 ∧ (inRx 3).regs.gate = true ∧
    ({ inRx 3 with regs := Regs.reset } : State).regs.gate = false := by decide

theorem witness_HCallRecordsTheCallback :
    (∀ n, State.reset.ctx ≠ .handler .rx n) ∧ (inRx 4).ctx = .handler .rx 4 ∧ (inTx 0).ctx = .handler .tx 0 :=
  ⟨fun _ h => (by cases h), rfl, rfl⟩

theorem witness_HRetReturnsToTheForeground :
    State.reset.ctx = .fg ∧ (inRx 5).ctx = .handler .rx 5 ∧ (inTx 1).ctx = .handler .tx 1 := by decide

/-- A word at the last address of the space wraps: its other bytes stand at 0, 1 and 2. -/
theorem witness_MemWriteIsLittleEndian :
    (5 : Nat) ≠ (0xFFFFFFFF : Word).toNat ∧ (5 : Nat) ≠ ((0xFFFFFFFF : Word).toNat + 1) % 2 ^ 32 ∧
    (5 : Nat) ≠ ((0xFFFFFFFF : Word).toNat + 2) % 2 ^ 32 ∧ (5 : Nat) ≠ ((0xFFFFFFFF : Word).toNat + 3) % 2 ^ 32 := by
  decide

/-- An idle receiver, one with room, and one whose FIFO is full. -/
theorem witness_ReceiverPushesOneFrame :
    State.reset.regs.rcsr.re = false ∧
    (let s : State := { running with draws := [0xA, 0xB, 0xD] }
     s.regs.rcsr.re = true ∧ s.rxq.length ≤ s.params.rxFifoDepth ∧ frameWords s = [0xA, 0xB] ∧
       frameEntries s = [0xA, 0xD, 0xB] ∧ frameDraws s = 3) ∧
    (let s : State := { running with rxq := [1, 2, 3, 4, 5, 6, 7, 8] }
     s.regs.rcsr.re = true ∧ s.rxq.length ≤ s.params.rxFifoDepth) := by decide

/-- One whole frame held, and three frames of which the depth keeps eight entries. -/
theorem witness_ReceiverKeepsWholeFrames :
    (rxReady.params.rxStreamMap = .dummyInterleaved ∧ rxReady.regs.rcr4.frsz + 1 = 2 ∧
      rxReady.regs.rcsr.re = true ∧ HoldsFrames [⟨0x11, 0x22, 0x33⟩] rxReady ∧ rxReady.params.rxFifoDepth = 8) ∧
    HoldsFrames [⟨1, 2, 3⟩, ⟨4, 5, 6⟩, ⟨7, 8, 9⟩] { running with rxq := [1, 2, 3, 4, 5, 6, 7, 8] } := by
  unfold HoldsFrames
  decide

/-- Each clause of the dispatcher's turn. -/
theorem witness_DispatcherStartsAHandler :
    (inRx 0).ctx ≠ .fg ∧ (State.reset.ctx = .fg ∧ rxOk State.reset = false ∧ (State.reset.irqenTx && true) = false) ∧
    (rxReady.ctx = .fg ∧ rxOk rxReady = true ∧ (rxReady.irqenTx && true) = false) ∧
    (txReady.ctx = .fg ∧ (txReady.irqenTx && true) = true ∧ rxOk txReady = false) ∧
    (let s : State := { rxReady with irqenTx := true }
     s.ctx = .fg ∧ rxOk s = true ∧ (s.irqenTx && true) = true) := by decide

theorem witness_TxHandlerRunRestoresTheForeground :
    txReady.ctx = .fg ∧ txReady.irqenTx = true ∧ (∀ r ∈ txReady.faults, r.agent ≠ .handler) := by decide

theorem witness_LaunchSatisfiesTheInvariant : Launch { State.reset with program := [0x01000000], sched := [.host] } :=
  ⟨Params.default, [0x01000000], [], [.host], [], 0, default_ok.1, by decide, rfl⟩

theorem witness_ResetState : Launch { State.reset with draws := [0] } ∧ Launch { State.reset with mem := [(0, 1)] } :=
  ⟨⟨Params.default, [], [], [], [0], 0, default_ok.1, by decide, rfl⟩,
    ⟨Params.default, [], [(0, 1)], [], [], 0, default_ok.1, by decide, rfl⟩⟩

/-- A state inside the RX handler, with the handler's turn next, meets the invariant. -/
theorem inRx_meets_the_invariant : RunInv { inRx 1 with sched := [.handler] } where
  parameters := default_ok.1
  fields := by
    unfold FieldsFit
    decide
  receiving := by decide
  bitClock := by decide
  fifoBound := by decide
  rxStored := by decide
  txStored := by decide
  rxHandler := by
    intro n h
    cases h
    decide
  txHandler := by
    intro n h
    cases h
  stuck := by decide
  memory := by decide
  position := by decide
  macroPosition := .inl rfl

theorem witness_EveryStepKeepsTheInvariant :
    ∃ s t, RunInv s ∧ step s = .next t ∧ t.ctx = .handler .rx 2 := ⟨_, _, inRx_meets_the_invariant, rfl, rfl⟩

theorem witness_TheMachineNeverStops : ∃ s, RunInv s ∧ s.ctx ≠ .fg := ⟨_, inRx_meets_the_invariant, by decide⟩

/-- The state after so many steps. -/
def runs : Nat → State → Option State
  | 0, s => some s
  | n + 1, s => (next (step s)).bind (runs n)

/-- A run's end can be reached. -/
theorem reachable_of_runs (n : Nat) (s t : State) (h : Reachable s) (hr : runs n s = some t) : Reachable t := by
  induction n generalizing s with
  | zero =>
    cases hr
    exact h
  | succ n ih =>
    cases hs : step s with
    | next u =>
      rw [runs, hs] at hr
      exact ih u (.step h hs) hr
    | fault f =>
      rw [runs, hs] at hr
      cases hr
    | refused r =>
      rw [runs, hs] at hr
      cases hr

/-- The launch of `begin.rate 48000, 2, 32` with eight host turns. -/
def beginLaunch : State :=
  { State.reset with
    program := [0x05000003, 0x0000BB80, 0x00000002, 0x00000020]
    sched := [.host, .host, .host, .host, .host, .host, .host, .host] }

theorem beginLaunch_receives : (runs 8 beginLaunch).map (fun s => s.regs.rcsr.re) = some true := by decide

/-- Eight host turns of `begin.rate 48000, 2, 32` from launch reach a receiving state. -/
theorem witness_ReceiverRunsOnlyClockedAndAdmitted : ∃ s, Reachable s ∧ s.regs.rcsr.re = true := by
  have hl : Launch beginLaunch :=
    ⟨Params.default, _, [], _, [], 0, default_ok.1, by decide, rfl⟩
  obtain ⟨s, hs, hre⟩ := Option.map_eq_some_iff.mp beginLaunch_receives
  exact ⟨s, reachable_of_runs 8 _ s (.launch hl) hs, hre⟩

theorem witness_NothingRecordedIsTakenBack :
    ∃ t, step { inRx 4 with sched := [.handler] } = .next t ∧ t.hist = [.callback .rx (some 0x100)] :=
  ⟨_, rfl, rfl⟩

theorem witness_OnlyLifecycleCommandsWriteTheLines :
    (∃ t, exec .gateEn State.reset = .next t) ∧ (∃ t, exec .stopRx rxReady = .next t ∧ t.irqenRx = false) ∧
    (∃ t, runTurn (.dispatcher false .rx) rxReady = .next t ∧ t.ctx = .handler .rx 0) :=
  ⟨⟨_, rfl⟩, ⟨_, rfl, rfl⟩, ⟨_, rfl, rfl⟩⟩

theorem witness_OnlyTheDrainWritesMemory :
    (∃ t, exec (.hRd .ch0) (inRx 0) = .next t ∧ storesTo (.hRd .ch0) (inRx 0) = some 0x20000000 ∧ t.mem ≠ []) ∧
    (∃ t, exec (.hRd .skip) (inRx 1) = .next t ∧ storesTo (.hRd .skip) (inRx 1) = none) :=
  ⟨⟨_, rfl, rfl, by decide⟩, ⟨_, rfl, rfl⟩⟩

theorem witness_HandlerOperationsFrame :
    ∃ t, isHandlerOp (.hRd .ch1) = true ∧ exec (.hRd .ch1) (inRx 2) = .next t ∧ t.mem ≠ [] :=
  ⟨_, rfl, rfl, by decide⟩

theorem witness_ConfigurationCommandsFrame :
    regMapOk clocked.params.regMap = true ∧ regMapOk State.reset.params.regMap = true ∧
    (∃ t, exec (.frameCfg 2 32) clocked = .next t ∧ t.regs ≠ clocked.regs) ∧
    (∃ t, exec .gateEn State.reset = .next t ∧ t.regs ≠ State.reset.regs) :=
  ⟨by decide, by decide, ⟨_, rfl, by decide⟩, ⟨_, rfl, by decide⟩⟩

theorem witness_LifecycleCommandsFrame :
    (∃ t, exec (.startRx 1 2 3) running = .next t ∧ t.irqenRx = true) ∧
    (∃ t, exec .stopTx txReady = .next t ∧ t.irqenTx = false) :=
  ⟨⟨_, rfl, rfl⟩, ⟨_, rfl, rfl⟩⟩

theorem witness_RegisterAccessFrame :
    (∃ t, exec (.regwr .rcr1 7) configured = .next t ∧ t.regs.rcr1 = ⟨7⟩) ∧
    (∃ t, exec (.regrd .rdr) rxReady = .next t ∧ t.res = some 0x11) :=
  ⟨⟨_, rfl, rfl⟩, ⟨_, rfl, rfl⟩⟩

/-- Frames arrive and the host and the dispatcher are offered turns inside the drain. -/
theorem witness_DrainRunInOrderUnderAnyInterleaving :
    rxReady.ctx = .fg ∧ rxReady.irqenRx = true ∧ rxReady.regs.rcsr.frie = true ∧
    rxReady.rxq.length > rxReady.regs.rcr1.rfw ∧ (true = true → Dir.rx = .rx) ∧ rxReady.regs.gate = true ∧
    rxReady.dest0 = some 0x20000000 ∧ rxReady.dest1 = some 0x20000004 ∧
    (∀ r ∈ rxReady.faults, r.agent ≠ .handler) ∧ rxReady.rxq = 0x11 :: 0x22 :: 0x33 :: [] ∧
    handlerTurns [.handler, .receiver, .handler, .host, .handler, .dispatcher true .tx, .handler, .handler] = 5 ∧
    Admitted rxReady.params 0x20000000 ∧ Admitted rxReady.params 0x20000004 := by
  unfold Admitted
  decide

theorem witness_DrainDeliversTheOldestFrame :
    3 ≤ rxReady.params.rxFifoDepth ∧ HoldsFrames [⟨0x11, 0x22, 0x33⟩] rxReady := by
  unfold HoldsFrames
  decide

/-- The launch of `start.tx 0x200` and `stop.tx`, with a TX handler run between them. -/
def demoLaunch : State :=
  { State.reset with
    program := [0x0A000001, 0x00000200, 0x0B000000]
    sched := [.host, .dispatcher true .tx, .handler, .handler, .host] }

/-- The run from there: five scheduled turns, then free ones. -/
def demoRun : Nat → State
  | 0 => demoLaunch
  | n + 1 => ((next (step (demoRun n)))).getD (demoRun n)

/-- The state after the schedule's last turn, with `n` free turns taken. -/
def demoEnd (n : Nat) : State := { demoRun 5 with freeIdx := n }

/-- Whatever agent a free turn offers, no agent is enabled: the host has finished, RE = 0, and both lines are off. -/
theorem demoEnd_step (n : Nat) : step (demoEnd n) = .next (demoEnd (n + 1)) := by
  have h : step (demoEnd n) = runTurn (freeTurn n) (demoEnd (n + 1)) := rfl
  rw [h]
  cases freeTurn n with
  | host => rfl
  | handler => rfl
  | receiver => rfl
  | dispatcher txReq pick => cases txReq <;> rfl

theorem demoRun_end (n : Nat) : demoRun (n + 5) = demoEnd n := by
  induction n with
  | zero => rfl
  | succ n ih =>
    have h : demoRun (n + 1 + 5) = (next (step (demoRun (n + 5)))).getD (demoRun (n + 5)) := by
      rw [show n + 1 + 5 = (n + 5) + 1 by omega]
      rfl
    rw [h, ih, demoEnd_step]
    rfl

/-- A run in which the handler is weakly fair, and in which it runs. -/
theorem witness_FairHandlerReturns : IsRun demoRun ∧ FairHandler demoRun ∧ (demoRun 2).ctx = .handler .tx 0 := by
  have hfg : ∀ n, 4 ≤ n → (demoRun n).ctx = .fg := by
    intro n hn
    obtain rfl | hn : n = 4 ∨ 5 ≤ n := by omega
    · rfl
    · obtain ⟨m, rfl⟩ := Nat.exists_eq_add_of_le' hn
      rw [demoRun_end]
      rfl
  refine ⟨⟨⟨Params.default, _, [], _, [], 0, default_ok.1, by decide, rfl⟩, ?_⟩, ?_, rfl⟩
  · intro n
    obtain hn | hn : n < 5 ∨ 5 ≤ n := by omega
    · interval_cases n <;> rfl
    · obtain ⟨m, rfl⟩ := Nat.exists_eq_add_of_le' hn
      rw [show m + 5 + 1 = (m + 1) + 5 by omega, demoRun_end, demoRun_end]
      exact demoEnd_step m
  · intro n dir hpc h _
    refine ⟨n + 4, by omega, .inl ?_⟩
    rw [hfg (n + 4) (by omega)]
    intro hc
    cases hc

/-- The fields of a register under R22's table and under another one, beside a bit that is in none of them. -/
theorem witness_FieldsStandAtTheirPositions :
    (0 < 32 ∧ Reg.rcr1 ≠ .rdr ∧ Reg.rcr1 ≠ .clkgate ∧ Reg.rcr1 ≠ .mcr) ∧
    layoutOk ([(RegMap.default.wnw, 31), (RegMap.default.w0w, 31), (RegMap.default.fbt, 32)].map Prod.fst) = true ∧
    layoutOk ([(moved.wnw, 31), (moved.w0w, 31), (moved.fbt, 32)].map Prod.fst) = true ∧
    (∀ p ∈ [(moved.rfw, 7)], ¬ (p.1.lo ≤ 7 ∧ 7 < p.1.lo + p.1.width)) := by decide

theorem witness_ImagesHoldTheirFields :
    paramsOk Params.default = true ∧ paramsOk { Params.default with regMap := moved } = true ∧
    FrameOk Params.default 1 8 ∧ FrameOk Params.default 8 32 ∧
    FrameOk { Params.default with regMap := moved } 8 32 := by
  refine ⟨default_ok.1, default_ok.2, ?_⟩
  unfold FrameOk
  decide

end Sys2Proof.Tests
end

/-! Proofs of the scope family: the REGMAP's fields and images, the MDR encoding, the receiver's step, the launch states. -/

namespace Sys2Proof.Machine

open Sys2Proof.Config

/-! ### Fields and masks -/

/-- Settles O55: the default REGMAP is one closed layout, and its table and masks are computed from it. -/
theorem defaultRegMapIsTheTable : Obligations.DefaultRegMapIsTheTable := by
  unfold Obligations.DefaultRegMapIsTheTable
  decide

/-- Settles O56: masks and packed values are known bit by bit in every layout. -/
theorem fieldsStandAtTheirPositions : Obligations.FieldsStandAtTheirPositions := by
  refine ⟨getField_eq, fun m r n hn hrdr => ?masks, fun l hl => ?packed⟩
  case masks =>
    exact ⟨fun hgate => wmask_bit hgate n hn, fun hmcr => rmask_bit hmcr hrdr n hn, rmask_mcr_bit m n hn⟩
  case packed =>
    refine ⟨fun p hp => getField_packFields hl hp, fun n _ hout => ?_⟩
    by_contra hbit
    obtain ⟨p, hp, hin⟩ := packFields_within (Bool.eq_true_of_not_eq_false hbit)
    exact hout p hp hin

/-! ### The MDR encoding -/

/-- With R10's widths of FRACT and DIVIDE the bounds of `enc_fits` are R122's literals. -/
theorem encFits_default_iff (off : Fin 2) (f d : Nat) :
    EncFits RegMap.default off f d ↔ 1 ≤ f ∧ f ≤ d ∧ f - off.val ≤ 255 ∧ d - off.val ≤ 4095 := by
  have hfract : RegMap.default.fract.width = 8 := rfl
  have hdivide : RegMap.default.divide.width = 12 := rfl
  unfold EncFits
  rw [hfract, hdivide]
  omega

/-- Settles O13: the raw fields of an encoded pair are the pair less the offset, which the read-back adds again. -/
theorem encodedPairReadsBackLogically : Obligations.EncodedPairReadsBackLogically := by
  refine ⟨fun m off f d hm h => ?_, fun off f d => ⟨encFits_default_iff off f d, fun h => ?_⟩, by decide, by decide⟩
  · rw [mdrOf_encMdr hm h]
    exact ⟨fractL_enc h, divideL_enc h, legal_enc h⟩
  · obtain ⟨_, _, hf, hd⟩ := (encFits_default_iff off f d).1 h
    exact encMdr_default off f d hf hd

/-! ### The register images -/

/-- The C- and B-dependent images under the default layout are R141's sums, for every C and B its fields hold. -/
theorem frameImgs_default {c b : Nat} (hc1 : 1 ≤ c) (hc8 : c ≤ 8) (hb1 : 1 ≤ b) (hb32 : b ≤ 32) :
    rcr4Img RegMap.default c b = BitVec.ofNat 32 ((c - 1) * 2 ^ 16 + (b - 1) * 2 ^ 8 + 2 ^ 4 + 2 ^ 3 + 2 ^ 1 + 1) ∧
    rcr5Img RegMap.default b = BitVec.ofNat 32 ((b - 1) * 2 ^ 24 + (b - 1) * 2 ^ 16 + (b - 1) * 2 ^ 8) ∧
    rcr1Img RegMap.default c = BitVec.ofNat 32 (c - 1) := by
  obtain ⟨x, rfl⟩ := Nat.exists_eq_add_of_le' hc1
  obtain ⟨y, rfl⟩ := Nat.exists_eq_add_of_le' hb1
  obtain ⟨h4, h5, h1⟩ := images_default ⟨x, by omega⟩ ⟨y, by omega⟩
  simp only [Nat.add_sub_cancel]
  exact ⟨h4.trans (congrArg _ (by dsimp only; omega)), h5, h1⟩

/-- Settles O57: each image is a value packed into its register's fields, and every number packed fits its field. -/
theorem imagesHoldTheirFields : Obligations.ImagesHoldTheirFields := by
  refine ⟨fun p c b hp hframe => ?_, by decide, by decide, fun c b => frameImgs_default⟩
  have hm := paramsOk_regMap hp
  obtain ⟨hrfw, hfrsz, hsywd, hwnw, hw0w, hfbt⟩ := frameOk_fits hp hframe
  obtain ⟨_, _, hfr, _, _⟩ := rcsrImg_bits hm
  exact ⟨⟨gateImg_gate hm, mcrOf_mcrImg hm, packFields_within_reg rfl⟩,
    ⟨rcr2Of_rcr2Img hm, packFields_within_reg rfl⟩,
    ⟨rcr4Of_rcr4Img hm hfrsz hsywd, packFields_within_reg rfl⟩,
    ⟨rcr5Of_rcr5Img hm hwnw hw0w hfbt, packFields_within_reg rfl⟩,
    ⟨rcr1Of_rcr1Img hm hrfw, packFields_within_reg rfl⟩,
    ⟨(rcsrAfter_rcsrImg hm _ []).1, hfr, packFields_within_reg rfl⟩⟩

/-! ### The receiver -/

/-- The receiver's turn passes while RE = 0 (R181; log 1). -/
theorem receiverTurn_off {s : State} (h : s.regs.rcsr.re = false) : receiverTurn s = s := by
  simp [receiverTurn, rxActive, h]

/-- The receiver's turn is one whole frame while RE = 1 (R181, R182). -/
theorem receiverTurn_on {s : State} (h : s.regs.rcsr.re = true) : receiverTurn s = receiveFrame s := by
  simp [receiverTurn, rxActive, h]

/-- Pushing a list sets FEF exactly when the depth has no room for all of it (R184). -/
theorem pushAll_eq_fef (es : List Word) (s : State) (h : s.rxq.length ≤ s.params.rxFifoDepth) :
    pushAll es s =
      { s with
        rxq := (s.rxq ++ es).take s.params.rxFifoDepth
        regs := { s.regs with
          rcsr := { s.regs.rcsr with
            fef := decide (s.params.rxFifoDepth < s.rxq.length + es.length) || s.regs.rcsr.fef } } } := by
  rw [pushAll_eq es s h]
  by_cases hfit : s.rxq.length + es.length ≤ s.params.rxFifoDepth
  · simp [hfit, Nat.not_lt.2 hfit]
  · simp [hfit, Nat.lt_of_not_le hfit]

/-- Settles O36: a receiver step pushes the frame's entries, and pushing keeps what the depth has room for. -/
theorem receiverPushesOneFrame : Obligations.ReceiverPushesOneFrame := by
  refine fun s => ⟨fun hoff => ?_, fun hon hdepth => ?_⟩
  · rw [runTurn, receiverTurn_off hoff]
  · rw [runTurn, receiverTurn_on hon, receiveFrame_eq]
    exact congrArg Host.Outcome.next (pushAll_eq_fef _ _ hdepth)

/-! ### The launch states -/

/-- The parameters of R8's defaults are ones a launch may give. -/
theorem paramsOk_default : paramsOk Params.default = true := by decide

/-- Reset is a state a run may start from (R270). -/
theorem launch_reset : Launch State.reset :=
  ⟨Params.default, [], [], [], [], 0, paramsOk_default, rfl, rfl⟩

/-- The fields at reset, all 0, fit any width (R270). -/
theorem fieldsFit_reset (m : RegMap) : FieldsFit m Regs.reset := by
  simp [FieldsFit, Regs.reset]

/-- Every launch state meets the run invariant: only the parameters and the memory are the launch's, the receiver and
both lines are off, and the host stands in the foreground before its first word. -/
theorem runInv_of_launch {s : State} (h : Launch s) : RunInv s := by
  obtain ⟨p, prog, m, ts, ds, n, hp, hm, rfl⟩ := h
  exact
    { parameters := hp
      fields := fieldsFit_reset p.regMap
      receiving := fun hre => by cases hre
      bitClock := rfl
      fifoBound := Nat.zero_le _
      rxStored := fun hrx => by cases hrx
      txStored := fun htx => by cases htx
      rxHandler := fun _ hctx => by cases hctx
      txHandler := fun _ hctx => by cases hctx
      stuck := fun hfault => by cases hfault
      memory := hm
      position := Nat.zero_le _
      macroPosition := .inl rfl }

/-- Settles O41: reset is itself a launch state. -/
theorem launchSatisfiesTheInvariant : Obligations.LaunchSatisfiesTheInvariant :=
  ⟨runInv_of_launch launch_reset, fun _ => runInv_of_launch⟩

end Sys2Proof.Machine

/-! Proofs of the state family: what one command can do to the state, the run invariant of 10_state.md, what no step takes
back, who writes the lines and data memory, and the turns of the host and the dispatcher. -/

namespace Sys2Proof.Machine

open Sys2Proof.Config

/-! ### What one command can do

`Work` is what a command's own effect does before a position moves or a record is left; `Effect` is one whole step of a
command. `exec_effect` ties both to `exec`, and every statement about commands below is a case analysis of them. -/

/-- The work of a command: the state its effect makes of `s`. -/
inductive Work (s : State) : Instr → State → Prop where
  | idle {i : Instr} : Work s i s
  | wrote {i : Instr} {r : Reg} {v : Word} (hw : writeCheck r v s = none) (rate : Option Nat) (result : Option Word)
      (es : List Event) :
      Work s i { s with
        regs := regsAfter s.params.regMap r v s.regs
        rxq := rxqAfter s.params.regMap r v s.rxq
        cfgRate := rate
        res := result
        hist := s.hist ++ es }
  | read {r : Reg} {q : List Word} (hq : q.length ≤ s.rxq.length) (result : Option Word) (es : List Event)
      (ds : List Word) (n : Nat) :
      Work s (.regrd r) { s with rxq := q, res := result, hist := s.hist ++ es, draws := ds, freeIdx := n }
  | startedRx (cb d0 d1 : Word) :
      Work s (.startRx cb d0 d1) { s with cbRx := some cb, dest0 := some d0, dest1 := some d1, irqenRx := true }
  | stoppedRx (hc : s.ctx = .fg) : Work s .stopRx { s with irqenRx := false }
  | startedTx (cb : Word) : Work s (.startTx cb) { s with cbTx := some cb, irqenTx := true }
  | stoppedTx (hc : s.ctx = .fg) : Work s .stopTx { s with irqenTx := false }
  | drained {k : DrainPos} {m : Memory} {q : List Word}
      (hm : m = s.mem ∨ ∃ d v, storesTo (.hRd k) s = some d ∧ m = s.mem.writeWord d v)
      (hq : q.length ≤ s.rxq.length) (es : List Event) (ds : List Word) (n : Nat) :
      Work s (.hRd k) { s with mem := m, rxq := q, hist := s.hist ++ es, draws := ds, freeIdx := n }
  | emptied (es : List Event) : Work s .hFr { s with rxq := [], hist := s.hist ++ es }
  | called {d : Dir} (es : List Event) : Work s (.hCall d) { s with hist := s.hist ++ es }

/-- One step of a command: an agent stops (R240, R241), a host command completes (R102) or has writes left (R103), a
handler moves on (R188) or returns (R195). -/
inductive Effect (s : State) (i : Instr) : State → Prop where
  | stopped {s' : State} {a : Agent} (e : Stop) (hw : Work s i s') (ha : a = .handler → s.ctx ≠ .fg) :
      Effect s i (stopAgent a e s')
  | completed {s' : State} (hc : s.ctx = .fg) (hw : Work s i s') : Effect s i (hostDone i.opcode.narg s')
  | continued {s' : State} (hc : s.ctx = .fg) (hw : Work s i s') (hm : s.mpos + 1 < (expansion s.params i).length) :
      Effect s i { s' with mpos := s'.mpos + 1 }
  | advanced {s' : State} {d : Dir} {n : Nat} (hc : s.ctx = .handler d n) (hi : i ≠ .hRet) (hw : Work s i s') :
      Effect s i { s' with ctx := .handler d (n + 1) }
  | returned {d : Dir} {n : Nat} (hc : s.ctx = .handler d n) (hi : i = .hRet) : Effect s i (leaveHandler d s)

/-- What no command's work touches: the parameters, the program, the context, the host's position and the records. -/
theorem Work.frame {s s' : State} {i : Instr} (h : Work s i s') :
    s'.params = s.params ∧ s'.program = s.program ∧ s'.ctx = s.ctx ∧ s'.hp = s.hp ∧ s'.mpos = s.mpos ∧
      s'.faults = s.faults ∧ s'.refused = s.refused := by
  cases h <;> exact ⟨rfl, rfl, rfl, rfl, rfl, rfl, rfl⟩

/-- The work of a command only adds events. -/
theorem Work.hist_prefix {s s' : State} {i : Instr} (h : Work s i s') : s.hist <+: s'.hist := by
  cases h with
  | idle | startedRx | stoppedRx | startedTx | stoppedTx => exact List.prefix_refl _
  | wrote | read | drained | emptied | called => exact List.prefix_append _ _

/-- A made step of an expansion is one admitted register write (R103). -/
theorem macroWrite_work {st : MacroStep} {s s' : State} (i : Instr) (h : macroWrite st s = .ok s') : Work s i s' := by
  obtain ⟨hw, heq, es, hes⟩ := macroWrite_inv h
  rw [heq, hes]
  exact .wrote hw _ _ es

/-- A made register write is one admitted register write. -/
theorem regWrite_work {r : Reg} {v : Word} {s s' : State} (i : Instr) (h : regWrite r v s = .ok s') : Work s i s' := by
  obtain ⟨hw, rfl⟩ := regWrite_inv h
  exact .wrote hw _ _ _

/-- A made `regrd` takes at most one entry and changes the inputs and the result. -/
theorem regrdBody_work {r : Reg} {s s' : State} (h : regrdBody r s = .ok s') : Work s (.regrd r) s' := by
  cases hr : regRead r s with
  | error e => simp [regrdBody, hr] at h
  | ok p =>
    obtain ⟨v, s1⟩ := p
    simp only [regrdBody, hr, Except.ok.injEq] at h
    rw [← h, regRead_inv hr]
    refine .read ?_ _ _ _ _
    split <;> simp

/-- A made `start.rx` stores and enables. -/
theorem startRxBody_work {cb d0 d1 : Word} {s s' : State} (h : startRxBody cb d0 d1 s = .ok s') :
    Work s (.startRx cb d0 d1) s' := by
  unfold startRxBody at h
  split at h
  · cases h
  · split at h
    · cases h
    · cases h; exact .startedRx cb d0 d1

/-- A made `start.tx` stores and enables. -/
theorem startTxBody_work {cb : Word} {s s' : State} (h : startTxBody cb s = .ok s') : Work s (.startTx cb) s' := by
  unfold startTxBody at h
  split at h
  · cases h
  · cases h; exact .startedTx cb

/-- A made `stop.rx` disables, in the foreground. -/
theorem stopRxBody_work {s : State} (hc : s.ctx = .fg) (s' : State) (h : stopRxBody s = .ok s') :
    Work s .stopRx s' := by
  cases h
  exact .stoppedRx hc

/-- A made `stop.tx` disables, in the foreground. -/
theorem stopTxBody_work {s : State} (hc : s.ctx = .fg) (s' : State) (h : stopTxBody s = .ok s') :
    Work s .stopTx s' := by
  cases h
  exact .stoppedTx hc

/-- The drain's read is work already, and so is its destination write on top of it. -/
theorem readRdr_writeDest_work {k : DrainPos} {v : Word} {s s1 : State} (hr : regRead .rdr s = .ok (v, s1)) :
    Work s (.hRd k) (emit (.regRd .rdr v) s1) ∧
      ∀ s', writeDest (storesTo (.hRd k) s) v (emit (.regRd .rdr v) s1) = .ok s' → Work s (.hRd k) s' := by
  have hs1 := regRead_inv hr
  have htail : s.rxq.tail.length ≤ s.rxq.length := by simp
  refine ⟨?_, fun s' hd => ?_⟩
  · rw [hs1]
    exact .drained (.inl rfl) htail _ _ _
  · obtain ⟨d, hdest, _, rfl⟩ := writeDest_inv hd
    rw [hs1, emit_hist, List.append_assoc]
    exact .drained (.inr ⟨d, v, hdest, rfl⟩) htail _ _ _

/-- The state `h.rd` leaves, whether it completes or stops, is its work. -/
theorem hRdBody_work {k : DrainPos} {s s' : State} (h : hRdBody k s = .ok s' ∨ ∃ e, hRdBody k s = .error (e, s')) :
    Work s (.hRd k) s' := by
  cases hr : regRead .rdr s with
  | error e =>
    simp [hRdBody, hr] at h
    exact h ▸ .idle
  | ok p =>
    obtain ⟨v, s1⟩ := p
    obtain ⟨hread, hstore⟩ := readRdr_writeDest_work (k := k) hr
    have hs1 := regRead_inv hr
    have h0 : (emit (.regRd .rdr v) s1).dest0 = s.dest0 := by rw [hs1]; rfl
    have h1 : (emit (.regRd .rdr v) s1).dest1 = s.dest1 := by rw [hs1]; rfl
    cases k with
    | skip =>
      simp [hRdBody, hr] at h
      exact h ▸ hread
    | ch0 =>
      simp only [hRdBody, hr, h0] at h
      cases hd : writeDest s.dest0 v (emit (.regRd .rdr v) s1) with
      | error e => simp [hd] at h; exact h ▸ hread
      | ok s3 => simp [hd] at h; exact h ▸ hstore s3 hd
    | ch1 =>
      simp only [hRdBody, hr, h1] at h
      cases hd : writeDest s.dest1 v (emit (.regRd .rdr v) s1) with
      | error e => simp [hd] at h; exact h ▸ hread
      | ok s3 => simp [hd] at h; exact h ▸ hstore s3 hd

/-- The state `h.fr` leaves is its work. -/
theorem hFrBody_work {s s' : State} (h : hFrBody s = .ok s' ∨ ∃ e, hFrBody s = .error (e, s')) : Work s .hFr s' := by
  by_cases hg : s.regs.gate = false
  · simp [hFrBody, hg] at h
    exact h ▸ .idle
  · simp [hFrBody, hg] at h
    exact h ▸ .emptied _

/-- The state `h.call` leaves is its work. -/
theorem hCallBody_work {d : Dir} {s s' : State} (h : hCallBody d s = .ok s' ∨ ∃ e, hCallBody d s = .error (e, s')) :
    Work s (.hCall d) s' := by
  simp [hCallBody] at h
  exact h ▸ .called _

/-- A refusal is a stop that leaves the mark alone; the mark names no agent (R241). -/
theorem refuse_effect (x : RefuseReason) (s : State) (i : Instr) : Effect s i (refuse x s) :=
  .stopped (a := .host) (.refuse x) .idle nofun

/-- What a step of a command with an expansion does (R103). -/
theorem hostMacro_effect {i : Instr} {s t : State} (h : hostMacro i.opcode (expansion s.params i) s = .next t) :
    Effect s i t := by
  rcases hostMacro_cases i.opcode (expansion s.params i) s with ⟨_, heq⟩ | ⟨_, _, heq⟩ | ⟨hc, st, rest, hd, hcases⟩
  · rw [heq] at h; cases h
    exact refuse_effect .xContext s _
  · rw [heq] at h; cases h
  rcases hcases with ⟨_, heq⟩ | ⟨_, e, _, heq⟩ | ⟨_, s', hw, _, heq⟩ | ⟨_, s', hw, hrest, heq⟩ <;> rw [heq] at h <;>
    cases h
  · exact .stopped _ .idle nofun
  · exact .stopped e .idle nofun
  · exact .completed hc (macroWrite_work i hw)
  · refine .continued hc (macroWrite_work i hw) ?_
    have hlen := congrArg List.length hd
    have hpos := List.length_pos_iff.2 hrest
    simp only [List.length_drop, List.length_cons] at hlen
    omega

/-- What an atomic host command does, given the work of its body. -/
theorem hostAtomic_effect {i : Instr} {body : State → Except Stop State} {s t : State}
    (hbody : s.ctx = .fg → ∀ s', body s = .ok s' → Work s i s') (h : hostAtomic i.opcode body s = .next t) :
    Effect s i t := by
  rcases hostAtomic_cases i.opcode body s with ⟨_, heq⟩ | ⟨_, e, _, heq⟩ | ⟨hc, s', hb, heq⟩ <;> rw [heq] at h <;> cases h
  · exact refuse_effect .xContext s _
  · exact .stopped e .idle nofun
  · exact .completed hc (hbody hc s' hb)

/-- What a handler micro-operation does, given the work of its body. -/
theorem handlerOp_effect {i : Instr} {d : Dir} {body : State → Except (Stop × State) State} {s t : State}
    (hi : i ≠ .hRet) (hbody : ∀ s', body s = .ok s' ∨ (∃ e, body s = .error (e, s')) → Work s i s')
    (h : handlerOp (inHandler d s) body s = .next t) : Effect s i t := by
  rcases handlerOp_cases (inHandler d s) body s with ⟨_, heq⟩ | ⟨hin, e, s1, hb, heq⟩ | ⟨hin, s', hb, heq⟩ <;>
    rw [heq] at h <;> cases h
  · exact refuse_effect .xContext s _
  · obtain ⟨n, hc⟩ := (inHandler_iff d s).1 hin
    exact .stopped e (hbody s1 (.inr ⟨e, hb⟩)) fun _ => by rw [hc]; nofun
  · obtain ⟨n, hc⟩ := (inHandler_iff d s).1 hin
    have hw := hbody s' (.inl hb)
    obtain ⟨_, _, hctx, _⟩ := hw.frame
    rw [advanceHpc_handler s' d n (hctx.trans hc)]
    exact .advanced hc hi hw

/-- What `h.ret` does. -/
theorem execHRet_effect {s t : State} (h : execHRet s = .next t) : Effect s .hRet t := by
  unfold execHRet at h
  split at h <;> cases h
  · exact refuse_effect .xContext s _
  · exact .returned ‹_› rfl

/-- Everything a command can do. -/
theorem exec_effect {i : Instr} {s t : State} (h : exec i s = .next t) : Effect s i t := by
  cases i with
  | gateEn | mclkRate | mclkPair | frameCfg | beginRate | beginPair => exact hostMacro_effect h
  | startRx cb d0 d1 => exact hostAtomic_effect (i := .startRx cb d0 d1) (fun _ _ => startRxBody_work) h
  | stopRx => exact hostAtomic_effect (i := .stopRx) (body := stopRxBody) stopRxBody_work h
  | startTx cb => exact hostAtomic_effect (i := .startTx cb) (fun _ _ => startTxBody_work) h
  | stopTx => exact hostAtomic_effect (i := .stopTx) (body := stopTxBody) stopTxBody_work h
  | regwr r v => exact hostAtomic_effect (i := .regwr r v) (fun _ _ => regWrite_work _) h
  | regrd r => exact hostAtomic_effect (i := .regrd r) (fun _ _ => regrdBody_work) h
  | hRd k => exact handlerOp_effect nofun (fun _ => hRdBody_work) h
  | hFr => exact handlerOp_effect nofun (fun _ => hFrBody_work) h
  | hCall d => exact handlerOp_effect nofun (fun _ => hCallBody_work) h
  | hRet => exact execHRet_effect h

/-! ### The run invariant, update by update -/

/-- A record or the mark leaves every other field. -/
theorem stopAgent_frame (a : Agent) (e : Stop) (s : State) :
    ∃ fs rf, stopAgent a e s = { s with faults := fs, refused := rf } :=
  ⟨_, _, stopAgent_eq a e s⟩

/-- A stop makes no agent but its own a faulted one. -/
theorem hasFaulted_stopAgent {a b : Agent} {e : Stop} {s : State} (h : hasFaulted b (stopAgent a e s) = true) :
    hasFaulted b s = true ∨ a = b := by
  cases e with
  | refuse x => exact .inl h
  | fault code info =>
    obtain ⟨r, hr, hb⟩ := (hasFaulted_iff _ _).1 h
    rcases (mem_raiseFault _ _ _).1 hr with hr | rfl
    · exact .inl ((hasFaulted_iff _ _).2 ⟨r, hr, hb⟩)
    · exact .inr hb

/-- The line enable of a direction (R52). -/
def lineEnabled (d : Dir) (s : State) : Bool :=
  match d with
  | .rx => s.irqenRx
  | .tx => s.irqenTx

/-- In a handler, the line of its direction is enabled and its position is one of its micro-program. -/
theorem RunInv.handler {s : State} (h : RunInv s) {d : Dir} {n : Nat} (hc : s.ctx = .handler d n) :
    lineEnabled d s = true ∧ n < (microProgram d).length := by
  cases d with
  | rx => exact h.rxHandler n hc
  | tx => exact h.txHandler n hc

/-- Standing at a position of an enabled line's micro-program keeps the invariant. -/
theorem setHandler_keeps_runInv {s : State} (h : RunInv s) {d : Dir} {n : Nat} (hline : lineEnabled d s = true)
    (hn : n < (microProgram d).length) : RunInv { s with ctx := .handler d n } :=
  { h with
    rxHandler := fun _ hc => by cases hc; exact ⟨hline, hn⟩
    txHandler := fun _ hc => by cases hc; exact ⟨hline, hn⟩
    stuck := fun _ => nofun }

/-- Standing in the foreground keeps the invariant while the handler has not faulted. -/
theorem leaveHandler_keeps_runInv {s : State} (h : RunInv s) (d : Dir) (hok : hasFaulted .handler s = false) :
    RunInv (leaveHandler d s) :=
  { h with
    rxHandler := nofun
    txHandler := nofun
    stuck := fun hf => by rw [show hasFaulted .handler s = true from hf] at hok; cases hok }

/-- A stop keeps the invariant where the handler stops in a handler only. -/
theorem stopAgent_keeps_runInv {s : State} (h : RunInv s) {a : Agent} (e : Stop) (ha : a = .handler → s.ctx ≠ .fg) :
    RunInv (stopAgent a e s) := by
  have hstuck : hasFaulted .handler (stopAgent a e s) = true → s.ctx ≠ .fg := fun hf =>
    (hasFaulted_stopAgent hf).elim h.stuck ha
  obtain ⟨fs, rf, heq⟩ := stopAgent_frame a e s
  rw [heq] at hstuck ⊢
  exact { h with stuck := hstuck }

/-- An admitted write empties the FIFO or leaves it. -/
theorem length_rxqAfter_le (m : RegMap) (r : Reg) (v : Word) (q : List Word) : (rxqAfter m r v q).length ≤ q.length := by
  unfold rxqAfter
  split <;> simp

/-- The work of a command keeps the invariant. -/
theorem Work.keeps_runInv {s s' : State} {i : Instr} (hw : Work s i s') (h : RunInv s) : RunInv s' := by
  cases hw with
  | idle => exact h
  | @wrote _ r v hw =>
    obtain ⟨hreceiving, hbitClock⟩ := admitted_write_keeps_receiving hw h.receiving h.bitClock
      (t := { s with regs := regsAfter s.params.regMap r v s.regs }) rfl rfl
    exact { h with
      fields := regsAfter_fields h.fields _ _
      receiving := hreceiving
      bitClock := hbitClock
      fifoBound := (length_rxqAfter_le _ _ _ _).trans h.fifoBound }
  | read hq => exact { h with fifoBound := hq.trans h.fifoBound }
  | startedRx =>
    exact { h with
      rxStored := fun _ => ⟨rfl, rfl, rfl⟩
      rxHandler := fun n hc => ⟨rfl, (h.rxHandler n hc).2⟩ }
  | stoppedRx hfg =>
    exact { h with
      rxStored := nofun
      rxHandler := fun _ hc => by cases hfg.symm.trans hc }
  | startedTx =>
    exact { h with
      txStored := fun _ => rfl
      txHandler := fun n hc => ⟨rfl, (h.txHandler n hc).2⟩ }
  | stoppedTx hfg =>
    exact { h with
      txStored := nofun
      txHandler := fun _ hc => by cases hfg.symm.trans hc }
  | drained hm hq =>
    refine { h with fifoBound := hq.trans h.fifoBound, memory := ?_ }
    rcases hm with rfl | ⟨d, v, _, rfl⟩
    · exact h.memory
    · exact wf_writeWord _ _ _ h.memory
  | emptied => exact { h with fifoBound := Nat.zero_le _ }
  | called => exact { h with }

/-- The words of a fetched command stand inside the program (R98, R102). -/
theorem fetched_end_le {s : State} {i : Instr} (h : fetched s = .command i) :
    s.hp + 1 + i.opcode.narg ≤ s.program.length := by
  unfold fetched at h
  cases hd : s.program.drop s.hp with
  | nil => rw [hd] at h; cases h
  | cons w args =>
    rw [hd] at h
    obtain ⟨o, _, _, _, hsub, hasm⟩ := Laws.decode_inv h
    obtain ⟨rfl, _, _, _, hargs⟩ := Laws.assemble_inv hsub hasm
    have hlen := congrArg List.length hd
    simp only [List.length_drop, List.length_cons] at hlen
    omega

/-- Completing the fetched command keeps the invariant. -/
theorem hostDone_keeps_runInv {s : State} (h : RunInv s) {i : Instr} (hf : fetched s = .command i) :
    RunInv (hostDone i.opcode.narg s) :=
  { h with
    position := fetched_end_le hf
    macroPosition := .inl rfl }

/-- Only `h.ret` stands last in its micro-program (R196). -/
theorem succ_lt_microProgram {d : Dir} {n : Nat} {i : Instr} (h : (microProgram d)[n]? = some i) (hi : i ≠ .hRet) :
    n + 1 < (microProgram d).length := by
  obtain ⟨hn, rfl⟩ := List.getElem?_eq_some_iff.1 h
  by_contra hlast
  have : n = (microProgram d).length - 1 := by omega
  subst this
  cases d <;> exact hi rfl

/-- A step of the command the host fetched, or of the handler's micro-operation, keeps the invariant. -/
theorem Effect.keeps_runInv {s t : State} {i : Instr} (he : Effect s i t) (h : RunInv s)
    (hhost : s.ctx = .fg → fetched s = .command i)
    (hmicro : ∀ d n, s.ctx = .handler d n → hasFaulted .handler s = false ∧ (microProgram d)[n]? = some i) :
    RunInv t := by
  have hfetched : ∀ s', Work s i s' → s.ctx = .fg → fetched s' = .command i := fun s' hw hc => by
    obtain ⟨_, hprogram, _, hhp, _⟩ := hw.frame
    rw [← hhost hc, fetched, fetched, hprogram, hhp]
  cases he with
  | @stopped s' a e hw ha =>
    obtain ⟨_, _, hctx, _⟩ := hw.frame
    exact stopAgent_keeps_runInv (hw.keeps_runInv h) e (hctx ▸ ha)
  | @completed s' hc hw => exact hostDone_keeps_runInv (hw.keeps_runInv h) (hfetched s' hw hc)
  | @continued s' hc hw hm =>
    obtain ⟨hparams, _, _, _, hmpos, _⟩ := hw.frame
    have h' := hw.keeps_runInv h
    exact { h' with macroPosition := .inr ⟨i, hfetched s' hw hc, by rw [hmpos, hparams]; exact hm⟩ }
  | @advanced s' d n hc hi hw =>
    obtain ⟨_, _, hctx, _⟩ := hw.frame
    have h' := hw.keeps_runInv h
    exact setHandler_keeps_runInv h' (h'.handler (hctx.trans hc)).1 (succ_lt_microProgram (hmicro d n hc).2 hi)
  | @returned d n hc => exact leaveHandler_keeps_runInv h d (hmicro d n hc).1

/-! ### The turns of the agents -/

/-- When the host may take a step (R57, R240, R241, R290). -/
theorem hostEnabled_iff (s : State) :
    hostEnabled s = true ↔
      s.ctx = .fg ∧ (∀ r ∈ s.faults, r.agent ≠ .host) ∧ s.refused = none ∧ s.hp ≠ s.program.length := by
  simp only [hostEnabled, hostFinished, Bool.and_eq_true, decide_eq_true_eq, Bool.not_eq_true', hasFaulted_false_iff,
    Bool.and_eq_false_iff, decide_eq_false_iff_not]
  constructor
  · rintro ⟨⟨⟨hc, hf⟩, hr⟩, he⟩
    exact ⟨hc, hf, hr, he.resolve_right (not_not_intro hc)⟩
  · rintro ⟨hc, hf, hr, he⟩
    exact ⟨⟨⟨hc, hf⟩, hr⟩, .inl he⟩

/-- The host's turn passes where the host may not step (log 1). -/
theorem hostTurn_passes {s : State} (h : hostEnabled s = false) : hostTurn s = .next s := by
  simp [hostTurn, h]

/-- The host's turn runs the fetched command (R102). -/
theorem hostTurn_command {s : State} {i : Instr} (h : hostEnabled s = true) (hf : fetched s = .command i) :
    hostTurn s = exec i s := by
  simp [hostTurn, h, hf]

/-- The host's turn refuses words that do not decode (R101). -/
theorem hostTurn_refused {s : State} {x : RefuseReason} (h : hostEnabled s = true) (hf : fetched s = .refused x) :
    hostTurn s = .next (refuse x s) := by
  simp [hostTurn, h, hf]

/-- Everything a host's turn can do. -/
theorem hostTurn_cases (s : State) :
    hostTurn s = .next s ∨ (∃ x, hostTurn s = .next (refuse x s)) ∨
      (s.ctx = .fg ∧ ∃ i, fetched s = .command i ∧ hostTurn s = exec i s) := by
  cases hen : hostEnabled s with
  | false => exact .inl (hostTurn_passes hen)
  | true =>
    cases hf : fetched s with
    | refused x => exact .inr (.inl ⟨x, hostTurn_refused hen hf⟩)
    | command i => exact .inr (.inr ⟨((hostEnabled_iff s).1 hen).1, i, rfl, hostTurn_command hen hf⟩)

/-- Everything a handler's turn can do. -/
theorem handlerTurn_cases (s : State) :
    handlerTurn s = .next s ∨ ∃ d n, s.ctx = .handler d n ∧ hasFaulted .handler s = false ∧
      (((microProgram d)[n]? = none ∧ handlerTurn s = .fault .noSuchPosition) ∨
        ∃ i, (microProgram d)[n]? = some i ∧ handlerTurn s = exec i s) := by
  unfold handlerTurn
  cases hc : s.ctx with
  | fg => exact .inl rfl
  | handler d n =>
    cases hf : hasFaulted .handler s with
    | true => exact .inl rfl
    | false =>
      refine .inr ⟨d, n, rfl, rfl, ?_⟩
      cases hi : (microProgram d)[n]? with
      | none => exact .inl ⟨rfl, by simp [hi]⟩
      | some i => exact .inr ⟨i, rfl, by simp [hi]⟩

/-! ### Every step keeps the run invariant -/

/-- A receiver step keeps the invariant: the depth bounds the FIFO (R184), and FEF is no part of it. -/
theorem receiverTurn_keeps_runInv {s : State} (h : RunInv s) : RunInv (receiverTurn s) := by
  unfold receiverTurn
  split
  · obtain ⟨_, es, q, f, _, _, _, _, _, hq, heq⟩ := receiveFrame_inv s
    obtain ⟨rfl, _⟩ := hq h.fifoBound
    rw [heq]
    exact { h with fifoBound := List.length_take_le _ _ }
  · exact h

/-- Entering a handler of an enabled line keeps the invariant (R244, R246). -/
theorem enterHandler_keeps_runInv {s : State} (h : RunInv s) {d : Dir} (hline : lineEnabled d s = true) :
    RunInv (enterHandler d s) := by
  have hpos : 0 < (microProgram d).length := by cases d <;> decide
  exact { setHandler_keeps_runInv h hline hpos with }

/-- A dispatcher's turn keeps the invariant: only an enabled line requests (R244). -/
theorem dispatcherTurn_keeps_runInv {s : State} (h : RunInv s) (tx : Bool) (pick : Dir) :
    RunInv (dispatcherTurn tx pick s) := by
  rcases dispatcherTurn_cases tx pick s with ⟨heq, _⟩ | ⟨_, hrx, heq⟩ | ⟨_, htx, heq⟩ <;> rw [heq]
  · exact h
  · exact enterHandler_keeps_runInv h (Bool.and_eq_true_iff.1 hrx).1
  · exact enterHandler_keeps_runInv h (Bool.and_eq_true_iff.1 htx).1

/-- A host's turn keeps the invariant. -/
theorem hostTurn_keeps_runInv {s t : State} (h : RunInv s) (ht : hostTurn s = .next t) : RunInv t := by
  rcases hostTurn_cases s with heq | ⟨x, heq⟩ | ⟨hc, i, hf, heq⟩ <;> rw [heq] at ht
  · cases ht; exact h
  · cases ht; exact stopAgent_keeps_runInv (a := .host) h (.refuse x) nofun
  · exact (exec_effect ht).keeps_runInv h (fun _ => hf) fun d n hd => by cases hc.symm.trans hd

/-- A handler's turn keeps the invariant. -/
theorem handlerTurn_keeps_runInv {s t : State} (h : RunInv s) (ht : handlerTurn s = .next t) : RunInv t := by
  rcases handlerTurn_cases s with heq | ⟨d, n, hc, hok, ⟨_, heq⟩ | ⟨i, hi, heq⟩⟩ <;> rw [heq] at ht
  · cases ht; exact h
  · cases ht
  · refine (exec_effect ht).keeps_runInv h (fun hfg => by cases hfg.symm.trans hc) fun d' n' hd => ?_
    cases hc.symm.trans hd
    exact ⟨hok, hi⟩

/-- Every agent's turn keeps the invariant. -/
theorem runTurn_keeps_runInv {u : Turn} {s t : State} (h : RunInv s) (ht : runTurn u s = .next t) : RunInv t := by
  cases u with
  | host => exact hostTurn_keeps_runInv h ht
  | handler => exact handlerTurn_keeps_runInv h ht
  | receiver => cases ht; exact receiverTurn_keeps_runInv h
  | dispatcher tx pick => cases ht; exact dispatcherTurn_keeps_runInv h tx pick

/-- Taking the next turn moves the model's own inputs, of which the invariant says nothing. -/
theorem nextTurn_keeps_runInv {s : State} (h : RunInv s) : RunInv (nextTurn s).2 := by
  rw [nextTurn_snd]
  exact { h with }

/-- Settles O42: taking the turn keeps the invariant, and so does the turn of every agent. -/
theorem everyStepKeepsTheInvariant : Obligations.EveryStepKeepsTheInvariant :=
  fun _ _ h ht => runTurn_keeps_runInv (nextTurn_keeps_runInv h) ht

/-! ### No stop of the machine -/

/-- The fetched command has a write left, or is atomic. -/
theorem RunInv.write_left {s : State} (h : RunInv s) {i : Instr} (hf : fetched s = .command i) :
    s.mpos < (expansion s.params i).length ∨ expansion s.params i = [] := by
  rcases h.macroPosition with h0 | ⟨j, hj, hlt⟩
  · rw [h0]
    exact expansion_pos s.params i
  · cases hj.symm.trans hf
    exact .inl hlt

/-- Micro-operations are atomic. -/
theorem expansion_microProgram {d : Dir} {n : Nat} {i : Instr} (p : Params) (h : (microProgram d)[n]? = some i) :
    expansion p i = [] := by
  have hall : ∀ j ∈ microProgram d, expansion p j = [] := by
    cases d <;> simp [microProgram, expansion]
  exact hall i (List.mem_of_getElem? h)

/-- Every agent's turn answers a next state. -/
theorem runTurn_answers_next (u : Turn) {s : State} (h : RunInv s) : ∃ t, runTurn u s = .next t := by
  cases u with
  | host =>
    rcases hostTurn_cases s with heq | ⟨x, heq⟩ | ⟨_, i, hf, heq⟩
    · exact ⟨_, heq⟩
    · exact ⟨_, heq⟩
    · obtain ⟨t, ht⟩ := exec_answers_next (h.write_left hf)
      exact ⟨t, heq.trans ht⟩
  | handler =>
    rcases handlerTurn_cases s with heq | ⟨d, n, hc, _, ⟨hnone, _⟩ | ⟨i, hi, heq⟩⟩
    · exact ⟨_, heq⟩
    · exact absurd (h.handler hc).2 (Nat.not_lt.2 (List.getElem?_eq_none_iff.1 hnone))
    · obtain ⟨t, ht⟩ := exec_answers_next (s := s) (.inr (expansion_microProgram s.params hi))
      exact ⟨t, heq.trans ht⟩
  | receiver => exact ⟨_, rfl⟩
  | dispatcher => exact ⟨_, rfl⟩

/-- Settles O43: no turn stops the machine in a state that meets the invariant. -/
theorem theMachineNeverStops : Obligations.TheMachineNeverStops :=
  fun _ h => runTurn_answers_next _ (nextTurn_keeps_runInv h)

/-! ### The receiver's invariant along a run -/

/-- Every state a run reaches meets the invariant. -/
theorem runInv_of_reachable {s : State} (h : Reachable s) : RunInv s := by
  induction h with
  | launch hl => exact runInv_of_launch hl
  | step _ hstep ih => exact everyStepKeepsTheInvariant _ _ ih hstep

/-- Settles O44: it is a part of the run invariant. -/
theorem receiverRunsOnlyClockedAndAdmitted : Obligations.ReceiverRunsOnlyClockedAndAdmitted := by
  refine fun s hs => ⟨Iff.rfl, fun hre => ?_⟩
  have h := runInv_of_reachable hs
  obtain ⟨hclk, hmode⟩ := h.receiving hre
  exact ⟨hclk, hmode, h.bitClock.trans hre⟩

/-! ### What no step takes back -/

/-- From `s` to `t` the parameters and the program stay, and no event, record or mark is taken back. -/
structure KeepsRecords (s t : State) : Prop where
  params : t.params = s.params
  program : t.program = s.program
  hist : s.hist <+: t.hist
  faults : s.faults ⊆ t.faults
  refused : s.refused ≠ none → t.refused ≠ none

/-- Nothing done takes nothing back. -/
theorem KeepsRecords.refl (s : State) : KeepsRecords s s :=
  ⟨rfl, rfl, List.prefix_refl _, List.Subset.refl _, id⟩

/-- One thing done after another takes nothing back where neither does. -/
theorem KeepsRecords.trans {s t u : State} (h : KeepsRecords s t) (h' : KeepsRecords t u) : KeepsRecords s u :=
  ⟨h'.params.trans h.params, h'.program.trans h.program, h.hist.trans h'.hist, List.Subset.trans h.faults h'.faults,
    h'.refused ∘ h.refused⟩

/-- The work of a command takes nothing back. -/
theorem Work.keepsRecords {s s' : State} {i : Instr} (hw : Work s i s') : KeepsRecords s s' := by
  obtain ⟨hparams, hprogram, _, _, _, hfaults, hrefused⟩ := hw.frame
  exact ⟨hparams, hprogram, hw.hist_prefix, by rw [hfaults]; exact List.Subset.refl _, by rw [hrefused]; exact id⟩

/-- A stop adds a record or sets the mark. -/
theorem stopAgent_keepsRecords (a : Agent) (e : Stop) (s : State) : KeepsRecords s (stopAgent a e s) := by
  cases e with
  | refuse x => exact ⟨rfl, rfl, List.prefix_refl _, List.Subset.refl _, fun _ => nofun⟩
  | fault code info =>
    have hmem : s.faults ⊆ (stopAgent a (.fault code info) s).faults := fun r hr => (mem_raiseFault _ r s).2 (.inl hr)
    simp only [stopAgent, raiseFault_eq] at hmem ⊢
    exact ⟨rfl, rfl, List.prefix_refl _, hmem, id⟩

/-- A step of a command takes nothing back. -/
theorem Effect.keepsRecords {s t : State} {i : Instr} (he : Effect s i t) : KeepsRecords s t := by
  cases he with
  | stopped e hw => exact hw.keepsRecords.trans (stopAgent_keepsRecords _ e _)
  | completed _ hw | continued _ hw | advanced _ _ hw => exact { hw.keepsRecords with }
  | returned => exact { KeepsRecords.refl s with hist := List.prefix_append _ _ }

/-- A receiver's turn takes nothing back. -/
theorem receiverTurn_keepsRecords (s : State) : KeepsRecords s (receiverTurn s) := by
  obtain ⟨_, ws, _, _, _, heq⟩ := receiverTurn_grows s
  rw [heq]
  exact { KeepsRecords.refl s with hist := List.prefix_append _ _ }

/-- A dispatcher's turn takes nothing back. -/
theorem dispatcherTurn_keepsRecords (tx : Bool) (pick : Dir) (s : State) :
    KeepsRecords s (dispatcherTurn tx pick s) := by
  have henter : ∀ d, KeepsRecords s (enterHandler d s) := fun d =>
    { KeepsRecords.refl s with hist := List.prefix_append _ _ }
  rcases dispatcherTurn_cases tx pick s with ⟨heq, _⟩ | ⟨_, _, heq⟩ | ⟨_, _, heq⟩ <;> rw [heq]
  · exact .refl s
  · exact henter .rx
  · exact henter .tx

/-- No turn takes anything back. -/
theorem runTurn_keepsRecords {u : Turn} {s t : State} (ht : runTurn u s = .next t) : KeepsRecords s t := by
  cases u with
  | host =>
    rcases hostTurn_cases s with heq | ⟨x, heq⟩ | ⟨_, i, _, heq⟩ <;> rw [runTurn, heq] at ht
    · cases ht; exact .refl s
    · cases ht; exact stopAgent_keepsRecords .host (.refuse x) s
    · exact (exec_effect ht).keepsRecords
  | handler =>
    rcases handlerTurn_cases s with heq | ⟨_, _, _, _, ⟨_, heq⟩ | ⟨i, _, heq⟩⟩ <;> rw [runTurn, heq] at ht
    · cases ht; exact .refl s
    · cases ht
    · exact (exec_effect ht).keepsRecords
  | receiver => cases ht; exact receiverTurn_keepsRecords s
  | dispatcher tx pick => cases ht; exact dispatcherTurn_keepsRecords tx pick s

/-- Settles O45: taking the turn leaves all of them, and no agent's turn takes any back. -/
theorem nothingRecordedIsTakenBack : Obligations.NothingRecordedIsTakenBack := by
  intro s t ht
  have h := runTurn_keepsRecords ht
  rw [nextTurn_snd] at h
  exact ⟨h.params, h.program, h.hist.imp fun _ => Eq.symm, fun _ hr => h.faults hr, h.refused⟩

/-! ### Who writes the lines and the memory -/

/-- A step of a command leaves the lines, what they store and data memory as its work does. -/
theorem Effect.exists_work {s t : State} {i : Instr} (he : Effect s i t) :
    ∃ s', Work s i s' ∧ ∃ hs fs rf c hp mp,
      t = { s' with hist := hs, faults := fs, refused := rf, ctx := c, hp := hp, mpos := mp } := by
  cases he with
  | @stopped s' a e hw =>
    obtain ⟨fs, rf, heq⟩ := stopAgent_frame a e s'
    exact ⟨s', hw, s'.hist, fs, rf, s'.ctx, s'.hp, s'.mpos, heq⟩
  | @completed s' _ hw => exact ⟨s', hw, s'.hist, s'.faults, s'.refused, s'.ctx, _, _, rfl⟩
  | @continued s' _ hw => exact ⟨s', hw, s'.hist, s'.faults, s'.refused, s'.ctx, s'.hp, _, rfl⟩
  | @advanced s' _ _ _ _ hw => exact ⟨s', hw, s'.hist, s'.faults, s'.refused, _, s'.hp, s'.mpos, rfl⟩
  | returned => exact ⟨s, .idle, _, s.faults, s.refused, _, s.hp, s.mpos, rfl⟩

/-- A command's work on the RX line: only `start.rx` stores, only `start.rx` and `stop.rx` write its enable. -/
theorem Work.rx_line {s s' : State} {i : Instr} (hw : Work s i s') (hi : ∀ cb d0 d1, i ≠ .startRx cb d0 d1) :
    s'.cbRx = s.cbRx ∧ s'.dest0 = s.dest0 ∧ s'.dest1 = s.dest1 ∧ (i ≠ .stopRx → s'.irqenRx = s.irqenRx) := by
  cases hw with
  | startedRx cb d0 d1 => exact absurd rfl (hi cb d0 d1)
  | stoppedRx => exact ⟨rfl, rfl, rfl, fun h => absurd rfl h⟩
  | _ => exact ⟨rfl, rfl, rfl, fun _ => rfl⟩

/-- A command's work on the TX line. -/
theorem Work.tx_line {s s' : State} {i : Instr} (hw : Work s i s') (hi : ∀ cb, i ≠ .startTx cb) :
    s'.cbTx = s.cbTx ∧ (i ≠ .stopTx → s'.irqenTx = s.irqenTx) := by
  cases hw with
  | startedTx cb => exact absurd rfl (hi cb)
  | stoppedTx => exact ⟨rfl, fun h => absurd rfl h⟩
  | _ => exact ⟨rfl, fun _ => rfl⟩

/-- A command's work on data memory: nothing, or one word at the destination it stores to. -/
theorem Work.mem {s s' : State} {i : Instr} (hw : Work s i s') :
    s'.mem = s.mem ∨ ∃ d v, storesTo i s = some d ∧ s'.mem = s.mem.writeWord d v := by
  cases hw with
  | drained hm => exact hm
  | _ => exact .inl rfl

/-- The environment writes the FIFO, FEF, the history, the context and the inputs alone. -/
theorem environment_frame {s t : State} {tx : Bool} {pick : Dir}
    (h : runTurn .receiver s = .next t ∨ runTurn (.dispatcher tx pick) s = .next t) :
    ∃ q g hs c ds n, t = { s with rxq := q, regs := g, hist := hs, ctx := c, draws := ds, freeIdx := n } := by
  rcases h with h | h <;> cases h
  · obtain ⟨_, _, _, _, _, heq⟩ := receiverTurn_grows s
    exact ⟨_, _, _, s.ctx, _, _, heq⟩
  · rcases dispatcherTurn_cases tx pick s with ⟨heq, _⟩ | ⟨_, _, heq⟩ | ⟨_, _, heq⟩ <;>
      exact ⟨s.rxq, s.regs, _, _, s.draws, s.freeIdx, heq⟩

/-- Settles O46: of the work commands do, only the lifecycle commands' is on the lines. -/
theorem onlyLifecycleCommandsWriteTheLines : Obligations.OnlyLifecycleCommandsWriteTheLines := by
  refine ⟨fun i s t ht => ?commands, fun s t tx pick ht => ?environment⟩
  case commands =>
    obtain ⟨s', hw, _, _, _, _, _, _, rfl⟩ := (exec_effect ht).exists_work
    exact ⟨hw.rx_line, hw.tx_line⟩
  case environment =>
    obtain ⟨_, _, _, _, _, _, rfl⟩ := environment_frame ht
    exact ⟨rfl, rfl, rfl, rfl, rfl, rfl⟩

/-- A byte apart from the four bytes at `d` is none of those a word write at `d` makes (R72). -/
theorem ne_byteAddr_of_ne {d : Word} {x : Nat} (h0 : x ≠ d.toNat) (h1 : x ≠ (d.toNat + 1) % 2 ^ 32)
    (h2 : x ≠ (d.toNat + 2) % 2 ^ 32) (h3 : x ≠ (d.toNat + 3) % 2 ^ 32) : ∀ i < 4, x ≠ byteAddr d i := by
  intro i hi
  rw [byteAddr_eq]
  have := d.isLt
  interval_cases i <;> omega

/-- Settles O47: of the work commands do, only the drain's is on memory, and it is one word write. -/
theorem onlyTheDrainWritesMemory : Obligations.OnlyTheDrainWritesMemory := by
  refine ⟨fun i s t ht => ?commands, fun s t tx pick ht => ?environment⟩
  case commands =>
    obtain ⟨s', hw, _, _, _, _, _, _, rfl⟩ := (exec_effect ht).exists_work
    rcases hw.mem with hm | ⟨d, v, hd, hm⟩
    · exact ⟨fun _ => hm, fun _ _ x _ _ _ _ => congrArg (Memory.readByte · x) hm⟩
    · refine ⟨fun hnone => absurd (hnone.symm.trans hd) nofun, fun d' hd' x h0 h1 h2 h3 => ?_⟩
      cases hd.symm.trans hd'
      exact (congrArg (Memory.readByte · x) hm).trans
        (readByte_writeWord_outside _ _ _ _ (ne_byteAddr_of_ne h0 h1 h2 h3))
  case environment =>
    obtain ⟨_, _, _, _, _, _, rfl⟩ := environment_frame ht
    rfl

/-! ### The host's turn, faults, and the dispatcher -/

/-- Taking the next turn moves the schedule and the count of free values alone. -/
theorem nextTurn_frame {u : Turn} {s s' : State} (h : nextTurn s = (u, s')) :
    s' = { s with sched := s'.sched, freeIdx := s'.freeIdx } := by
  have hs' : s' = (nextTurn s).2 := by rw [h]
  rw [hs', nextTurn_snd]

/-- Settles O6: taking the turn moves the inputs alone, so the host's turn sees the same position, records and words. -/
theorem stepRunsTheFetchedCommand : Obligations.StepRunsTheFetchedCommand := by
  intro s s' hturn
  have hs' := nextTurn_frame hturn
  have hstep : step s = hostTurn s' := by rw [step, hturn, runTurn]
  have hfetched : fetched s' = decode (s.program.drop s.hp) := by rw [hs']; rfl
  have henabled : hostEnabled s' = hostEnabled s := by rw [hs']; rfl
  refine ⟨hs', fun hc hf hr he => ?runs, fun hstop => ?passes⟩
  case runs =>
    have hen : hostEnabled s' = true := henabled.trans ((hostEnabled_iff s).2 ⟨hc, hf, hr, he⟩)
    exact ⟨fun i hi => hstep.trans (hostTurn_command hen (hfetched.trans hi)),
      fun x hx => hstep.trans (hostTurn_refused hen (hfetched.trans hx))⟩
  case passes =>
    rw [hstep]
    refine hostTurn_passes (henabled.trans (Bool.eq_false_iff.2 fun hen => ?_))
    obtain ⟨hc, hf, hr, he⟩ := (hostEnabled_iff s).1 hen
    rcases hstop with h | ⟨r, hmem, hagent⟩ | h | h
    · exact h hc
    · exact hf r hmem hagent
    · exact h hr
    · exact he h

/-- A faulted host takes no step (R240). -/
theorem hostTurn_faulted {r : FaultRecord} {s : State} (hr : r ∈ s.faults) (ha : r.agent = .host) :
    hostTurn s = .next s :=
  hostTurn_passes (Bool.eq_false_iff.2 fun hen => ((hostEnabled_iff s).1 hen).2.1 r hr ha)

/-- A faulted handler takes no step (R240, R246). -/
theorem handlerTurn_faulted {r : FaultRecord} {s : State} (hr : r ∈ s.faults) (ha : r.agent = .handler) :
    handlerTurn s = .next s := by
  rcases handlerTurn_cases s with heq | ⟨_, _, _, hok, _⟩
  · exact heq
  · exact absurd ha ((hasFaulted_false_iff _ _).1 hok r hr)

/-- Settles O8: the record joins the set, and an agent that a record names has no turn but a passing one. -/
theorem faultIsRecordedAndStopsItsAgent : Obligations.FaultIsRecordedAndStopsItsAgent := by
  refine fun r s => ⟨fun x => mem_raiseFault r x s, ?_, fun ha t hr => hostTurn_faulted hr ha,
    fun ha t hr => handlerTurn_faulted hr ha⟩
  rw [raiseFault_eq]

/-- RX requests when its line is enabled and FRIE = 1 with the FIFO above its watermark (R34, R63, R244). -/
theorem rxOk_iff (s : State) :
    rxOk s = true ↔ s.irqenRx = true ∧ s.regs.rcsr.frie = true ∧ s.rxq.length > s.regs.rcr1.rfw := by
  simp [rxOk, rxReq, frf]

/-- A dispatcher's turn in the foreground that starts a handler: RX where it requests and is not passed over, TX likewise
(R244). -/
theorem dispatcherTurn_starts {s : State} {txReq : Bool} {pick d : Dir} (hc : s.ctx = .fg)
    (h : (d = .rx ∧ rxOk s = true ∧ ((s.irqenTx && txReq) = false ∨ pick = .rx)) ∨
      (d = .tx ∧ (s.irqenTx && txReq) = true ∧ (rxOk s = false ∨ pick = .tx))) :
    dispatcherTurn txReq pick s = enterHandler d s := by
  unfold dispatcherTurn
  rw [if_neg (not_not_intro hc)]
  rcases h with ⟨rfl, hrx, htx | rfl⟩ | ⟨rfl, htx, hrx | rfl⟩
  · rw [hrx, htx]
  · rw [hrx]; cases (s.irqenTx && txReq) <;> rfl
  · rw [hrx, htx]
  · rw [htx]; cases rxOk s <;> rfl

/-- A dispatcher's turn passes inside a handler, and where no enabled line requests (R244; log 1). -/
theorem dispatcherTurn_passes {s : State} {txReq : Bool} (pick : Dir)
    (h : s.ctx ≠ .fg ∨ (rxOk s = false ∧ (s.irqenTx && txReq) = false)) : dispatcherTurn txReq pick s = s := by
  unfold dispatcherTurn
  rcases h with hc | ⟨hrx, htx⟩
  · rw [if_pos hc]
  · rw [hrx, htx]; exact ite_self s

/-- Settles O38: a dispatcher's turn starts the handler of a line that requests, or passes. -/
theorem dispatcherStartsAHandler : Obligations.DispatcherStartsAHandler := by
  refine fun s txReq pick => ⟨fun hc => ?_, fun hc => ⟨rxOk_iff s, fun hrx htx => ?_, fun d hd => ?_⟩⟩
  · exact congrArg Host.Outcome.next (dispatcherTurn_passes pick (.inl hc))
  · exact congrArg Host.Outcome.next (dispatcherTurn_passes pick (.inr ⟨hrx, htx⟩))
  · exact congrArg Host.Outcome.next (dispatcherTurn_starts hc hd)

end Sys2Proof.Machine

/-! Proofs of the memory family: the little-endian word write, the drain's reads with their destination writes, and what
the host's register access leaves. -/

namespace Sys2Proof.Machine

open Sys2Proof.Config

/-! ### A word in data memory -/

/-- A word write is read back at the byte addresses R72 writes, modulo 2^32. -/
theorem readByte_writeWord_at (m : Memory) (a v : Word) (i : Nat) (hi : i < 4) :
    (m.writeWord a v).readByte ((a.toNat + i) % 2 ^ 32) = some (v.extractLsb' (8 * i) 8) := by
  rw [← byteAddr_eq]
  exact readByte_writeWord_inside m a v i hi

/-- Settles O35: the four bytes are read back at their addresses, and no other address is one of them. -/
theorem memWriteIsLittleEndian : Obligations.MemWriteIsLittleEndian := by
  intro m a v
  have hat := readByte_writeWord_at m a v
  refine ⟨?first, hat 1 (by decide), hat 2 (by decide), hat 3 (by decide), fun x h0 h1 h2 h3 => ?others⟩
  case first =>
    rw [← byteAddr_zero a]
    exact readByte_writeWord_inside m a v 0 (by decide)
  case others => exact readByte_writeWord_outside m a v x (ne_byteAddr_of_ne h0 h1 h2 h3)

/-! ### Handler micro-operations -/

/-- A micro-operation outside a handler of its direction (R100). -/
theorem handlerOp_outside {d : Dir} (body : State → Except (Stop × State) State) {s : State}
    (h : ∀ n, s.ctx ≠ .handler d n) : handlerOp (inHandler d s) body s = .next (refuse .xContext s) :=
  if_pos <| Bool.eq_false_iff.2 fun hin =>
    let ⟨n, hc⟩ := (inHandler_iff d s).1 hin
    h n hc

/-- A micro-operation in a handler of its direction whose effect stops: what it did before stays (R240). -/
theorem handlerOp_stop {d : Dir} {n : Nat} {body : State → Except (Stop × State) State} {e : Stop} {s s1 : State}
    (hc : s.ctx = .handler d n) (hb : body s = .error (e, s1)) :
    handlerOp (inHandler d s) body s = .next (stopAgent .handler e s1) := by
  simp [handlerOp, inHandler_of hc, hb]

/-- A micro-operation in a handler of its direction whose effect completes. -/
theorem handlerOp_done {d : Dir} {n : Nat} {body : State → Except (Stop × State) State} {s s' : State}
    (hc : s.ctx = .handler d n) (hb : body s = .ok s') (hc' : s'.ctx = s.ctx) :
    handlerOp (inHandler d s) body s = .next { s' with ctx := .handler d (n + 1) } := by
  rw [← advanceHpc_handler s' d n (hc'.trans hc)]
  simp [handlerOp, inHandler_of hc, hb]

/-! ### The drain's reads -/

/-- A destination write where R74 admits it. -/
theorem writeDest_admitted {d : Word} (v : Word) {s : State} (h : Admitted s.params d) :
    writeDest (some d) v s = .ok (emit (.memWr d 4 v) { s with mem := s.mem.writeWord d v }) :=
  if_pos ((destAdmitted_iff s.params d).2 h)

/-- A destination write that R74 does not let through. -/
theorem writeDest_not_admitted {d : Word} (v : Word) {s : State} (h : ¬ Admitted s.params d) :
    writeDest (some d) v s = .error (.fault .fDest (.dest (some d))) :=
  if_neg (mt (destAdmitted_iff s.params d).1 h)

/-- What a read of RDR returns and leaves: the oldest entry taken off the FIFO, or a draw (R222). -/
theorem readRdr_cases (s : State) :
    (∃ rest, s.rxq = (readRdr s).1 :: rest ∧ (readRdr s).2 = { s with rxq := rest }) ∨
      (s.rxq = [] ∧ (readRdr s).1 = (draw s).1 ∧ (readRdr s).2 = (draw s).2) := by
  cases hq : s.rxq with
  | nil => rw [readRdr_nil hq]; exact .inr ⟨rfl, rfl, rfl⟩
  | cons v rest => rw [readRdr_cons hq]; exact .inl ⟨rest, rfl, rfl⟩

/-- The state of the drain once it has read RDR and recorded the read, before its destination write (R188). -/
def popped (s : State) : State := emit (.regRd .rdr (readRdr s).1) (readRdr s).2

/-- The read leaves all but the FIFO, the history and the inputs. -/
theorem popped_eq (s : State) :
    popped s =
      { s with
        rxq := s.rxq.tail
        hist := s.hist ++ [.regRd .rdr (readRdr s).1]
        draws := (readRdr s).2.draws
        freeIdx := (readRdr s).2.freeIdx } := by
  unfold popped
  rw [readRdr_snd]
  rfl

/-- The drain's read behind a closed gate stops before the pop (R188). -/
theorem hRdBody_gate (k : DrainPos) {s : State} (hg : s.regs.gate = false) :
    hRdBody k s = .error (.fault .fGate (.reg .rdr), s) := by
  simp only [hRdBody, regRead_gate (r := .rdr) nofun hg]

/-- The discarded read stores nothing (R188). -/
theorem hRdBody_skip {s : State} (hg : s.regs.gate = true) : hRdBody .skip s = .ok (popped s) := by
  simp only [hRdBody, regRead_rdr hg]
  rfl

/-- A channel read is the pop and then the write of its destination, whose stop keeps the pop (R188, R240). -/
theorem hRdBody_channel {k : DrainPos} {d : Word} {s : State} (hg : s.regs.gate = true)
    (hd : storesTo (.hRd k) s = some d) :
    hRdBody k s = (writeDest (some d) (readRdr s).1 (popped s)).mapError (·, popped s) := by
  have hdest : storesTo (.hRd k) (popped s) = some d := by
    rw [popped_eq]
    cases k <;> exact hd
  rw [← hdest]
  cases k with
  | skip => cases hd
  | ch0 | ch1 =>
    simp only [hRdBody, regRead_rdr hg]
    rw [← popped]
    simp only [storesTo]
    split <;> simp [*, Except.mapError]

/-- `h.rd` is a micro-operation of the RX handler (R188). -/
theorem exec_hRd (k : DrainPos) (s : State) : exec (.hRd k) s = handlerOp (inHandler .rx s) (hRdBody k) s := rfl

/-- Settles O31: `h.rd` is the pop, and at a channel position the destination write on top of it. -/
theorem hRdReadsAndStores : Obligations.HRdReadsAndStores := by
  refine ⟨rfl, rfl, rfl, fun s => ⟨fun h k => handlerOp_outside (hRdBody k) h, fun n hc =>
    ⟨fun hg k => handlerOp_stop hc (hRdBody_gate k hg), fun hg =>
      ⟨(readRdr s).1, (readRdr s).2, readRdr_cases s, ?skip, fun k d hk => ?channel⟩⟩⟩⟩
  case skip =>
    rw [exec_hRd, handlerOp_done hc (hRdBody_skip hg) (by rw [popped_eq]), popped_eq, readRdr_snd]
  case channel =>
    have hd : storesTo (.hRd k) s = some d := by
      rcases hk with ⟨rfl, hd⟩ | ⟨rfl, hd⟩ <;> exact hd
    have hparams : (popped s).params = s.params := by rw [popped_eq]
    have hbody := hRdBody_channel hg hd
    refine ⟨fun ha => ?stored, fun ha => ?faulted⟩
    case stored =>
      rw [writeDest_admitted _ (hparams ▸ ha)] at hbody
      rw [exec_hRd, handlerOp_done hc hbody (by rw [popped_eq]; rfl), popped_eq, readRdr_snd]
      simp
    case faulted =>
      rw [writeDest_not_admitted _ (hparams ▸ ha)] at hbody
      rw [exec_hRd, handlerOp_stop hc hbody, popped_eq, readRdr_snd]
      rfl

/-! ### The host's register access -/

/-- Two register states agree in every register but `r`. -/
def AgreeBut (r : Reg) (g g' : Regs) : Prop :=
  (r ≠ .clkgate → g'.gate = g.gate) ∧ (r ≠ .mcr → g'.mcr = g.mcr) ∧ (r ≠ .mdr → g'.mdr = g.mdr) ∧
    (r ≠ .rcsr → g'.rcsr = g.rcsr) ∧ (r ≠ .rcr1 → g'.rcr1 = g.rcr1) ∧ (r ≠ .rcr2 → g'.rcr2 = g.rcr2) ∧
    (r ≠ .rcr4 → g'.rcr4 = g.rcr4) ∧ (r ≠ .rcr5 → g'.rcr5 = g.rcr5)

/-- Where nothing is written, every register agrees. -/
theorem agreeBut_refl (r : Reg) (g : Regs) : AgreeBut r g g := by simp [AgreeBut]

/-- A register write leaves every register but its own (R210). -/
theorem regsAfter_agreeBut (m : RegMap) (r : Reg) (v : Word) (g : Regs) : AgreeBut r g (regsAfter m r v g) := by
  cases r <;> simp [AgreeBut, regsAfter]

/-- Only a write of FR = 1 empties the FIFO (R216). -/
theorem rxqAfter_eq_self {m : RegMap} {r : Reg} {v : Word} (q : List Word)
    (h : r ≠ .rcsr ∨ v.getLsbD m.fr = false) : rxqAfter m r v q = q :=
  if_neg fun ⟨hr, hfr⟩ => h.elim (· hr) fun hfr' => Bool.noConfusion (hfr'.symm.trans hfr)

/-- What a `regwr` can change: its register, the FIFO by FR, the history, the records and the host's position (R210). -/
theorem regwr_frame {r : Reg} {v : Word} {s t : State} (h : exec (.regwr r v) s = .next t) :
    ∃ g q hs fs rf hp mp,
      t = { s with regs := g, rxq := q, hist := hs, faults := fs, refused := rf, hp := hp, mpos := mp } ∧
        AgreeBut r s.regs g ∧ (r ≠ .rcsr ∨ v.getLsbD s.params.regMap.fr = false → q = s.rxq) := by
  rcases hostAtomic_next h with ⟨fs, rf, rfl⟩ | ⟨s', hb, hp, rfl⟩
  · exact ⟨s.regs, s.rxq, s.hist, fs, rf, s.hp, s.mpos, rfl, agreeBut_refl r s.regs, fun _ => rfl⟩
  · obtain ⟨_, rfl⟩ := regWrite_inv hb
    exact ⟨_, _, _, s.faults, s.refused, hp, 0, rfl, regsAfter_agreeBut _ r v s.regs, rxqAfter_eq_self s.rxq⟩

/-- A `regrd` that is made changes the FIFO (a read of RDR), the result, the history and the inputs alone (R220). -/
theorem regrdBody_inv {r : Reg} {s s' : State} (h : regrdBody r s = .ok s') :
    s' = { s with
      rxq := if r = .rdr then s.rxq.tail else s.rxq
      res := s'.res
      hist := s'.hist
      draws := s'.draws
      freeIdx := s'.freeIdx } := by
  cases hr : regRead r s with
  | error e => simp [regrdBody, hr] at h
  | ok p =>
    obtain ⟨v, s1⟩ := p
    simp only [regrdBody, hr, Except.ok.injEq] at h
    rw [← h, regRead_inv hr]
    rfl

/-- What a `regrd` can change: the FIFO by a read of RDR, the result, the history, the inputs, the records and the
host's position (R220, R222). -/
theorem regrd_frame {r : Reg} {s t : State} (h : exec (.regrd r) s = .next t) :
    ∃ q res hs ds n fs rf hp mp,
      t = { s with
        rxq := q, res := res, hist := hs, draws := ds, freeIdx := n
        faults := fs, refused := rf, hp := hp, mpos := mp } ∧
        (r ≠ .rdr → q = s.rxq) := by
  rcases hostAtomic_next h with ⟨fs, rf, rfl⟩ | ⟨s', hb, hp, rfl⟩
  · exact ⟨s.rxq, s.res, s.hist, s.draws, s.freeIdx, fs, rf, s.hp, s.mpos, rfl, fun _ => rfl⟩
  · rw [regrdBody_inv hb]
    exact ⟨_, _, _, _, _, s.faults, s.refused, hp, 0, rfl, fun hr => if_neg hr⟩

/-- Settles O51: a `regwr` changes its register and a `regrd` none, and only FR and a read of RDR reach the FIFO. -/
theorem registerAccessFrame : Obligations.RegisterAccessFrame := by
  refine fun i s t ht => ⟨?both, ?regwr, ?regrd⟩
  case both =>
    rintro (⟨r, v, rfl⟩ | ⟨r, rfl⟩)
    · obtain ⟨_, _, _, _, _, _, _, rfl, _⟩ := regwr_frame ht
      exact ⟨rfl, rfl, rfl, rfl, rfl, rfl, rfl, rfl, rfl, rfl, rfl, rfl⟩
    · obtain ⟨_, _, _, _, _, _, _, _, _, rfl, _⟩ := regrd_frame ht
      exact ⟨rfl, rfl, rfl, rfl, rfl, rfl, rfl, rfl, rfl, rfl, rfl, rfl⟩
  case regwr =>
    rintro r v rfl
    obtain ⟨_, _, _, _, _, _, _, rfl, hregs, hfifo⟩ := regwr_frame ht
    exact ⟨rfl, rfl, rfl, hfifo, hregs⟩
  case regrd =>
    rintro r rfl
    obtain ⟨_, _, _, _, _, _, _, _, _, rfl, hfifo⟩ := regrd_frame ht
    exact ⟨rfl, hfifo⟩

end Sys2Proof.Machine

/-! Proofs of the encoding family: decode against encode and the decoder's checks in order, the turns and contexts of
commands, the first checks of a register write, and the clock and initialisation commands run write by write. -/

namespace Sys2Proof.Machine

open Sys2Proof.Config Sys2Proof.Laws

/-! ### Decoding -/

/-- A register's id finds the register. -/
theorem ofId_id (r : Reg) : Reg.ofId? r.id = some r := by cases r <;> rfl

/-- A read's index finds the read. -/
theorem ofIndex_index (k : DrainPos) : DrainPos.ofIndex? k.index = some k := by cases k <;> rfl

/-- A direction's index finds the direction. -/
theorem dirOfIndex_dirIndex (d : Dir) : dirOfIndex? (dirIndex d) = some d := by cases d <;> rfl

/-- R98 admits the SUB field of every well-formed command. -/
theorem subRefusal_of_wf {i : Instr} (h : i.wf = true) : subRefusal i.opcode i.sub = none := by
  cases i with
  | regwr r v =>
    cases r with
    | rdr => cases h
    | _ => rfl
  | regrd r => cases r <;> rfl
  | hRd k => cases k <;> rfl
  | hCall d => cases d <;> rfl
  | _ => rfl

/-- A command is assembled from its own parts, whatever words follow its arguments. -/
theorem assemble_parts (i : Instr) (rest : List Word) : assemble i.opcode i.sub (i.args ++ rest) = some i := by
  cases i with
  | regwr r v => exact congrArg (Option.map (Instr.regwr · v)) (ofId_id r)
  | regrd r => exact congrArg (Option.map Instr.regrd) (ofId_id r)
  | hRd k => exact congrArg (Option.map Instr.hRd) (ofIndex_index k)
  | hCall d => exact congrArg (Option.map Instr.hCall) (dirOfIndex_dirIndex d)
  | _ => rfl

/-- The last of R98's checks: past NARG, INST and SUB, the words after the command word decide. -/
theorem decode_of_admitted {w : Word} (args : List Word) {o : Opcode} (hopc : opcField w = o.code)
    (hnarg : (nargField w).toNat = o.narg) (hinst : instField w = 0) (hsub : subRefusal o (subField w) = none) :
    decode (w :: args) = ((assemble o (subField w) args).elim (.refused .xOpcode) .command) := by
  rw [decode_of_code args hopc, if_neg (not_not_intro hnarg), if_neg (not_not_intro hinst), hsub]
  cases assemble o (subField w) args <;> rfl

/-- Settles O1: the command word's fields are the command's own, so every check passes and the parts are put together. -/
theorem decodeReadsWhatEncodeWrites : Obligations.DecodeReadsWhatEncodeWrites := by
  intro i rest hwf
  obtain ⟨hopc, hsub, hinst, hnarg⟩ := commandWord_fields i.opcode i.sub
  have hadm : subRefusal i.opcode (subField (commandWord i.opcode i.sub)) = none := by
    rw [hsub]
    exact subRefusal_of_wf hwf
  rw [encode, List.cons_append, decode_of_admitted _ hopc hnarg hinst hadm, hsub, assemble_parts]
  rfl

/-- Settles O2: what the decoder checked makes the command word, and the assembled command's arguments are the words
after it. -/
theorem decodedWordsAreTheirEncoding : Obligations.DecodedWordsAreTheirEncoding := by
  intro ws i h
  cases ws with
  | nil => cases h
  | cons w args =>
    obtain ⟨o, hopc, hnarg, hinst, hsub, hasm⟩ := decode_inv h
    obtain ⟨rfl, hisub, hwf, hargs, _⟩ := assemble_inv hsub hasm
    refine ⟨hwf, args.drop i.opcode.narg, ?_⟩
    rw [encode, hisub, hargs, List.cons_append, List.take_append_drop, ← eq_commandWord w _ hopc hinst hnarg]

/-- A reserved OPC is no row's (R99). -/
theorem ofCode_reserved {c : Byte} (h : c.toNat = 0x00 ∨ c.toNat = 0x07 ∨ (0x0C ≤ c.toNat ∧ c.toNat ≤ 0x0F) ∨
    (0x12 ≤ c.toNat ∧ c.toNat ≤ 0x1F) ∨ 0x24 ≤ c.toNat) : Opcode.ofCode? c = none := by
  cases ho : Opcode.ofCode? c with
  | none => rfl
  | some o =>
    exfalso
    rw [← code_of_ofCode ho] at h
    cases o <;> revert h <;> decide

/-- The SUB fields R98 admits. -/
theorem subRefusal_eq_none {o : Opcode} {sub : Byte} (h : (o = .regwr ∧ sub.toNat < 8) ∨ (o = .regrd ∧ sub.toNat ≤ 8) ∨
    (o = .hRd ∧ sub.toNat ≤ 2) ∨ (o = .hCall ∧ sub.toNat ≤ 1) ∨
    (o ≠ .regwr ∧ o ≠ .regrd ∧ o ≠ .hRd ∧ o ≠ .hCall ∧ sub.toNat = 0)) : subRefusal o sub = none := by
  rcases h with ⟨rfl, h⟩ | ⟨rfl, h⟩ | ⟨rfl, h⟩ | ⟨rfl, h⟩ | ⟨hwr, hrd, hhrd, hcall, h⟩
  · exact if_neg (Nat.not_le.2 h)
  · exact if_neg (Nat.not_lt.2 h)
  · exact if_neg (Nat.not_lt.2 h)
  · exact if_neg (Nat.not_lt.2 h)
  · cases o with
    | regwr | regrd | hRd | hCall => contradiction
    | _ => exact if_neg (not_not_intro h)

/-- An opcode without a sub-operand refuses every SUB but 0 (R98). -/
theorem subRefusal_nonzero {o : Opcode} {sub : Byte} (hwr : o ≠ .regwr) (hrd : o ≠ .regrd) (hhrd : o ≠ .hRd)
    (hcall : o ≠ .hCall) (h : sub.toNat ≠ 0) : subRefusal o sub = some .xOpcode := by
  cases o with
  | regwr | regrd | hRd | hCall => contradiction
  | _ => exact if_pos h

/-- Settles O4: the decoder's branches are R98's checks, one after the other. -/
theorem decoderChecksInOrder : Obligations.DecoderChecksInOrder := by
  refine fun w args => ⟨fun hres => ?reserved, fun o hopc => ⟨fun hnarg => ?narg, fun hnarg hinst => ?inst,
    fun hnarg hinst => ?sub⟩⟩
  case reserved => simp only [decode, ofCode_reserved hres]
  case narg => rw [decode_of_code args hopc, if_pos hnarg]
  case inst => rw [decode_of_code args hopc, if_neg (not_not_intro hnarg), if_pos hinst]
  case sub =>
    have hrefuse : ∀ x, subRefusal o (subField w) = some x → decode (w :: args) = .refused x := fun x hx => by
      rw [decode_of_code args hopc, if_neg (not_not_intro hnarg), if_neg (not_not_intro hinst), hx]
    refine ⟨?regwr, ?regrd, ?hRd, ?hCall, fun hwr hrd hhrd hcall h =>
      hrefuse _ (subRefusal_nonzero hwr hrd hhrd hcall h), fun hadm => ?args⟩
    case args =>
      have hsub := subRefusal_eq_none hadm
      have hdec := decode_of_admitted args hopc hnarg hinst hsub
      refine ⟨fun hshort => ?_, fun hlong => ?_⟩
      · rw [hdec, assemble_short hshort]
        rfl
      · obtain ⟨i, hi⟩ := assemble_some hsub hlong
        obtain ⟨hop, his, _, hargs, _⟩ := assemble_inv hsub hi
        exact ⟨i, by rw [hdec, hi]; rfl, hop, his, hargs⟩
    all_goals
      rintro rfl h
      exact hrefuse _ (if_pos h)

/-- Settles O3: both directions of R108's examples are computed. -/
theorem workedEncodings : Obligations.WorkedEncodings := by
  unfold Obligations.WorkedEncodings
  decide

/-- Settles O5: the two micro-programs are fixed lists, whose words are computed. -/
theorem handlerProgramsEncoded : Obligations.HandlerProgramsEncoded := by
  unfold Obligations.HandlerProgramsEncoded
  decide

/-! ### Turns and contexts -/

/-- The handler's turn in the foreground passes (log 1). -/
theorem handlerTurn_foreground {s : State} (hc : s.ctx = .fg) : handlerTurn s = .next s := by
  simp only [handlerTurn, hc]

/-- The turn of a handler that has not faulted runs the micro-operation at `hpc` (R196). -/
theorem handlerTurn_runs {s : State} {d : Dir} {n : Nat} {i : Instr} (hc : s.ctx = .handler d n)
    (hf : ∀ r ∈ s.faults, r.agent ≠ .handler) (hi : (microProgram d)[n]? = some i) : handlerTurn s = exec i s := by
  simp [handlerTurn, hc, (hasFaulted_false_iff .handler s).2 hf, hi]

/-- Settles O7: taking the turn moves the inputs alone, so the handler's turn sees the same context and records. -/
theorem stepRunsTheMicroOperation : Obligations.StepRunsTheMicroOperation := by
  intro s s' hturn
  have hs' := nextTurn_frame hturn
  have hstep : step s = handlerTurn s' := by rw [step, hturn, runTurn]
  have hctx : s'.ctx = s.ctx := by rw [hs']
  have hfaults : s'.faults = s.faults := by rw [hs']
  have hruns : ∀ d n i, s.ctx = .handler d n → (∀ r ∈ s.faults, r.agent ≠ .handler) →
      (microProgram d)[n]? = some i → step s = exec i s' := fun d n i hc hf hi =>
    hstep.trans (handlerTurn_runs (hctx.trans hc) (hfaults ▸ hf) hi)
  refine ⟨hs', hruns .rx, hruns .tx, ?_⟩
  rintro (hc | ⟨r, hr, ha⟩)
  · exact hstep.trans (handlerTurn_foreground (hctx.trans hc))
  · exact hstep.trans (handlerTurn_faulted (hfaults ▸ hr) ha)

/-- A host command outside the foreground is refused before anything else (R100, D47). -/
theorem exec_host_outside {s : State} {i : Instr} (hi : isHandlerOp i = false) (hc : s.ctx ≠ .fg) :
    exec i s = .next (refuse .xContext s) := by
  cases i with
  | hRd | hFr | hCall | hRet => cases hi
  | _ => exact if_pos hc

/-- A micro-operation in the foreground is refused before anything else (R100). -/
theorem exec_handler_foreground {s : State} {i : Instr} (hi : isHandlerOp i = true) (hc : s.ctx = .fg) :
    exec i s = .next (refuse .xContext s) := by
  have hout : ∀ d n, s.ctx ≠ .handler d n := by rw [hc]; nofun
  cases i with
  | hRd k => exact handlerOp_outside _ (hout .rx)
  | hFr => exact handlerOp_outside _ (hout .rx)
  | hCall d => exact handlerOp_outside (hCallBody d) (hout d)
  | hRet => simp only [exec, execHRet, hc]
  | _ => cases hi

/-- Settles O9: every command looks at its context first. -/
theorem wrongContextIsRefused : Obligations.WrongContextIsRefused := by
  refine fun s i => ⟨exec_host_outside, exec_handler_foreground, fun n hc => ?tx, fun n hc => ?rx⟩
  case tx =>
    have hout : ∀ m, s.ctx ≠ .handler .rx m := by rw [hc]; nofun
    exact ⟨fun k => handlerOp_outside (hRdBody k) hout, handlerOp_outside hFrBody hout,
      handlerOp_outside (hCallBody .rx) hout⟩
  case rx =>
    have hout : ∀ m, s.ctx ≠ .handler .tx m := by rw [hc]; nofun
    exact handlerOp_outside (hCallBody .tx) hout

/-! ### The first checks of a register write -/

/-- RDR is read-only (R98). -/
theorem writeCheck_rdr (v : Word) (s : State) : writeCheck .rdr v s = some (.refuse .xReg) := if_pos rfl

/-- A write behind a closed gate (R211). -/
theorem writeCheck_closed {r : Reg} (v : Word) {s : State} (hr : r ≠ .rdr) (hk : r ≠ .clkgate)
    (hg : s.regs.gate = false) : writeCheck r v s = some (.fault .fGate (.reg r)) := by
  rw [writeCheck, if_neg hr, if_pos ⟨hk, hg⟩]

/-- A write behind an open gate with a 1 outside the register's fields (R212). -/
theorem writeCheck_outside {r : Reg} {v : Word} {s : State} (hr : r ≠ .rdr) (hk : r ≠ .clkgate)
    (hg : s.regs.gate = true) (hv : ¬ Within s.params.regMap r v) : writeCheck r v s = some (.refuse .xField) := by
  have hgate : ¬ (r ≠ .clkgate ∧ s.regs.gate = false) := by simp [hg]
  rw [writeCheck, if_neg hr, if_neg hgate, if_pos (mt (within_iff hk v).1 hv)]

/-- Settles O23: a `regwr` that stops leaves its first failing check's record or mark. -/
theorem regwrChecksInOrder : Obligations.RegwrChecksInOrder :=
  fun s v hc => ⟨regwr_stop hc (writeCheck_rdr v s), fun _ hr hk hg => regwr_stop hc (writeCheck_closed v hr hk hg),
    fun hg _ hr hk hv => regwr_stop hc (writeCheck_outside hr hk hg hv)⟩

/-! ### Commands with an expansion, write by write

A host step of such a command makes the first of the steps left (`Before`); `written` is the state a made step leaves, and
`Admits` says that steps are let through one after the other. `exec_made`, `execTimes_made` and `execTimes_completes`
tie them to `exec`. -/

/-- In the foreground, with `sts` the steps the command `i` still has to make (R103, R246). -/
structure Before (i : Instr) (sts : List MacroStep) (s : State) : Prop where
  foreground : s.ctx = .fg
  left : (expansion s.params i).drop s.mpos = sts

/-- At the start of a command all its steps are left. -/
theorem before_start {i : Instr} {sts : List MacroStep} {s : State} (hc : s.ctx = .fg) (hp : s.mpos = 0)
    (hx : expansion s.params i = sts) : Before i sts s :=
  ⟨hc, by rw [hp, List.drop_zero, hx]⟩

/-- The state a made step leaves, its position moved on: the register write, its event, and the report (R103; log 4). -/
def written (st : MacroStep) (s : State) : State :=
  let t := emit (.regWr st.reg st.value)
    { s with
      regs := regsAfter s.params.regMap st.reg st.value s.regs
      rxq := rxqAfter s.params.regMap st.reg st.value s.rxq
      mpos := s.mpos + 1 }
  match st.report with
  | none => t
  | some r => applyReport r t

/-- A step that its own check and the register write's let through (R103, R214). -/
def StepAdmitted (st : MacroStep) (s : State) : Prop := st.check = true ∧ writeCheck st.reg st.value s = none

/-- The state steps leave, made in order. -/
def writtenAll (sts : List MacroStep) (s : State) : State := sts.foldl (fun t st => written st t) s

/-- Steps that are let through one after the other. -/
def Admits : List MacroStep → State → Prop
  | [], _ => True
  | st :: sts, s => StepAdmitted st s ∧ Admits sts (written st s)

/-- A made step leaves the context and the parameters, and moves the position by one. -/
theorem written_frame (st : MacroStep) (s : State) :
    (written st s).ctx = s.ctx ∧ (written st s).params = s.params ∧ (written st s).mpos = s.mpos + 1 := by
  unfold written
  cases st.report with
  | none => exact ⟨rfl, rfl, rfl⟩
  | some r => cases r <;> exact ⟨rfl, rfl, rfl⟩

/-- A made step that is not RCSR's leaves the FIFO (R216). -/
theorem written_of_ne_rcsr (check : Bool) {r : Reg} (v : Word) (s : State) (hr : r ≠ .rcsr) :
    written ⟨check, r, v, none⟩ s =
      { s with
        regs := regsAfter s.params.regMap r v s.regs
        hist := s.hist ++ [.regWr r v]
        mpos := s.mpos + 1 } := by
  simp only [written, rxqAfter_eq_self s.rxq (.inl hr), emit]

/-- A made step with a report is the same step without it, and then the report. -/
theorem written_report (check : Bool) (r : Reg) (v : Word) (rep : Report) (s : State) :
    written ⟨check, r, v, some rep⟩ s = applyReport rep (written ⟨check, r, v, none⟩ s) := rfl

/-- After a made step the others are left. -/
theorem Before.written {i : Instr} {st : MacroStep} {rest : List MacroStep} {s : State} (h : Before i (st :: rest) s) :
    Before i rest (written st s) := by
  obtain ⟨hctx, hparams, hmpos⟩ := written_frame st s
  refine ⟨hctx.trans h.foreground, ?_⟩
  rw [hparams, hmpos, ← List.drop_drop, h.left]
  rfl

/-- A command with steps left runs its expansion. -/
theorem exec_of_expansion {i : Instr} {s : State} (h : expansion s.params i ≠ []) :
    exec i s = hostMacro i.opcode (expansion s.params i) s := by
  cases i with
  | gateEn | mclkRate | mclkPair | frameCfg | beginRate | beginPair => rfl
  | _ => exact absurd rfl h

/-- A command before a step runs its expansion. -/
theorem Before.exec_eq {i : Instr} {st : MacroStep} {rest : List MacroStep} {s : State} (h : Before i (st :: rest) s) :
    exec i s = hostMacro i.opcode (expansion s.params i) s :=
  exec_of_expansion fun hnil => by
    have hleft := h.left
    rw [hnil, List.drop_nil] at hleft
    cases hleft

/-- The write of an admitted step, before the position moves. -/
theorem macroWrite_admitted {st : MacroStep} {s : State} (ha : StepAdmitted st s) :
    macroWrite st s = .ok { written st s with mpos := s.mpos } := by
  rw [macroWrite_ok ha.2, written]
  cases st.report with
  | none => rfl
  | some r => cases r <;> rfl

/-- An admitted step before the last. -/
theorem exec_made {i : Instr} {st st' : MacroStep} {rest : List MacroStep} {s : State}
    (h : Before i (st :: st' :: rest) s) (ha : StepAdmitted st s) : exec i s = .next (written st s) := by
  obtain ⟨_, _, hmpos⟩ := written_frame st s
  rw [h.exec_eq, hostMacro_more h.foreground h.left ha.1 (macroWrite_admitted ha), ← hmpos]

/-- An admitted last step completes the command (R102). -/
theorem exec_completes {i : Instr} {st : MacroStep} {s : State} (h : Before i [st] s) (ha : StepAdmitted st s) :
    exec i s = .next (hostDone i.opcode.narg (written st s)) := by
  rw [h.exec_eq, hostMacro_last h.foreground h.left ha.1 (macroWrite_admitted ha)]
  rfl

/-- A step whose argument check fails stops the host with F_RANGE (R240; log 5). -/
theorem exec_range {i : Instr} {st : MacroStep} {rest : List MacroStep} {s : State} (h : Before i (st :: rest) s)
    (hcheck : st.check = false) : exec i s = .next (raiseFault ⟨.fRange, .host, .opcode i.opcode⟩ s) := by
  rw [h.exec_eq, hostMacro_range h.foreground h.left hcheck]
  rfl

/-- A step whose register write does not pass its checks stops the host. -/
theorem exec_write_stops {i : Instr} {st : MacroStep} {rest : List MacroStep} {s : State} {e : Stop}
    (h : Before i (st :: rest) s) (hcheck : st.check = true) (hw : writeCheck st.reg st.value s = some e) :
    exec i s = .next (stopAgent .host e s) := by
  rw [h.exec_eq, hostMacro_stop h.foreground h.left hcheck (macroWrite_error hw)]

/-- Admitted steps with one more after them are made, a host step each, and the others are left. -/
theorem execTimes_made {i : Instr} {sts : List MacroStep} {st : MacroStep} {rest : List MacroStep} {s : State}
    (h : Before i (sts ++ st :: rest) s) (ha : Admits sts s) :
    execTimes sts.length i s = .next (writtenAll sts s) ∧ Before i (st :: rest) (writtenAll sts s) := by
  induction sts generalizing s with
  | nil => exact ⟨rfl, h⟩
  | cons a sts ih =>
    obtain ⟨ha, hrest⟩ := ha
    obtain ⟨hrun, hbefore⟩ := ih h.written hrest
    refine ⟨(execTimes_succ ?_).trans hrun, hbefore⟩
    cases sts <;> exact exec_made h ha

/-- A host step after others. -/
theorem execTimes_snoc {n : Nat} {i : Instr} {s t : State} (h : execTimes n i s = .next t) :
    execTimes (n + 1) i s = exec i t := by
  induction n generalizing s with
  | zero =>
    cases h
    cases he : exec i t <;> simp [execTimes, he]
  | succ n ih =>
    rw [execTimes] at h
    cases he : exec i s with
    | next s' =>
      rw [he] at h
      rw [execTimes_succ he]
      exact ih h
    | fault | refused => rw [he] at h; cases h

/-- Where all the steps left are admitted, the command completes with the last of them. -/
theorem execTimes_completes {i : Instr} {sts : List MacroStep} {s : State} (h : Before i sts s) (hne : sts ≠ [])
    (ha : Admits sts s) : execTimes sts.length i s = .next (hostDone i.opcode.narg (writtenAll sts s)) := by
  induction sts generalizing s with
  | nil => exact absurd rfl hne
  | cons st sts ih =>
    obtain ⟨ha, hrest⟩ := ha
    cases sts with
    | nil => exact execTimes_one (exec_completes h ha)
    | cons st' sts => exact (execTimes_succ (exec_made h ha)).trans (ih h.written nofun hrest)

/-- Steps in two parts are admitted part by part. -/
theorem admits_append {sts sts' : List MacroStep} {s : State} (h : Admits sts s) (h' : Admits sts' (writtenAll sts s)) :
    Admits (sts ++ sts') s := by
  induction sts generalizing s with
  | nil => exact h'
  | cons st sts ih => exact ⟨h.1, ih h.2 h'⟩

/-- Steps in two parts are made part by part. -/
theorem writtenAll_append (sts sts' : List MacroStep) (s : State) :
    writtenAll (sts ++ sts') s = writtenAll sts' (writtenAll sts s) := List.foldl_append

/-! ### The clock's steps -/

/-- The register state each write of a clock configuration leaves (R120, R122, R130). -/
theorem regsAfter_clock {m : RegMap} (hm : regMapOk m = true) {off : Fin 2} {f d : Nat} (h : EncFits m off f d)
    (g : Regs) :
    regsAfter m .clkgate (gateImg m) g = { g with gate := true } ∧
    regsAfter m .mdr (encMdr m off f d) g = { g with mdr := ⟨f - off.val, d - off.val⟩ } ∧
    regsAfter m .mcr (mcrImg m) g = { g with mcr := ⟨true, 0⟩ } := by
  simp [regsAfter, gateImg_gate hm, mdrOf_encMdr hm h, mcrOf_mcrImg hm]

/-- The gate write is always admitted (R213). -/
theorem gateStep_admitted {s : State} (hm : regMapOk s.params.regMap = true) (rep : Option Report) :
    StepAdmitted (gateStep s.params.regMap rep) s := ⟨rfl, writeCheck_gate hm⟩

/-- What the gate write leaves (R120). -/
theorem written_gateStep {s : State} (hm : regMapOk s.params.regMap = true) :
    written (gateStep s.params.regMap none) s =
      { s with
        regs := { s.regs with gate := true }
        hist := s.hist ++ [.regWr .clkgate (gateImg s.params.regMap)]
        mpos := s.mpos + 1 } := by
  rw [gateStep, written_of_ne_rcsr true _ s (by decide), regsAfter, gateImg_gate hm]

/-- The first step of a command that begins with the gate write and goes on. -/
theorem exec_gateStep {i : Instr} {st : MacroStep} {rest : List MacroStep} {s : State}
    (h : Before i (gateStep s.params.regMap none :: st :: rest) s) (hp : s.mpos = 0)
    (hm : regMapOk s.params.regMap = true) :
    exec i s = .next
      { s with
        regs := { s.regs with gate := true }
        hist := s.hist ++ [.regWr .clkgate (gateImg s.params.regMap)]
        mpos := 1 } := by
  rw [exec_made h (gateStep_admitted hm none), written_gateStep hm, hp]

/-- An unsupported rate sets the gate, reports, and completes (R130, D25). -/
theorem exec_unsupported {i : Instr} {s : State} (h : Before i [gateStep s.params.regMap (some .unsupported)] s)
    (hm : regMapOk s.params.regMap = true) :
    exec i s = .next
      { s with
        regs := { s.regs with gate := true }
        res := some 0
        hist := s.hist ++ [.regWr .clkgate (gateImg s.params.regMap), .status 0]
        hp := s.hp + 1 + i.opcode.narg
        mpos := 0 } := by
  rw [exec_completes h (gateStep_admitted hm _), gateStep, written_report, ← gateStep, written_gateStep hm]
  simp [hostDone, applyReport, emit]

/-- The writes of a clock configuration whose pair can be encoded (R130, R131). -/
def clockSteps (p : Params) (f d : Nat) (rep : Report) : List MacroStep :=
  [gateStep p.regMap none, ⟨true, .mdr, encMdr p.regMap p.mdrEncOffset f d, none⟩,
    ⟨true, .mcr, mcrImg p.regMap, some rep⟩]

/-- A supported rate expands to the clock's writes with the table's pair (R123, R130). -/
theorem mclkRateSteps_supported (p : Params) :
    mclkRateSteps p.regMap p.mdrEncOffset 48000 = clockSteps p 16 125 (.rateOk 48000) := rfl

/-- Any other rate expands to the gate write with its report (R130). -/
theorem mclkRateSteps_unsupported {rate : Word} (h : rate ≠ 48000) (p : Params) :
    mclkRateSteps p.regMap p.mdrEncOffset rate = [gateStep p.regMap (some .unsupported)] := by
  rw [mclkRateSteps, rateTable_none h]

/-- An encodable pair expands to the clock's writes with that pair (R131). -/
theorem mclkPairSteps_of_fits {p : Params} {f d : Word} (h : EncFits p.regMap p.mdrEncOffset f.toNat d.toNat) :
    mclkPairSteps p.regMap p.mdrEncOffset f d = clockSteps p f.toNat d.toNat .pairOk := by
  rw [mclkPairSteps, (encFits_iff _ _ _ _).2 h, clockSteps]

/-- The configured rate a report leaves (R55, R130, R131). -/
def reportedRate : Report → Option Nat
  | .rateOk rate => some rate.toNat
  | .pairOk | .unsupported => none

/-- The state after the three steps of a clock configuration with a successful report (R130, R131). -/
def clocked (f d : Nat) (rep : Report) (s : State) : State :=
  { s with
    regs := clockedRegs s.params.mdrEncOffset f d s.regs
    cfgRate := reportedRate rep
    res := some 1
    hist := s.hist ++ clockEvents s.params.regMap s.params.mdrEncOffset f d
    mpos := 3 }

section Clock

variable {s : State} (hm : regMapOk s.params.regMap = true) {f d : Nat}
  (h : EncFits s.params.regMap s.params.mdrEncOffset f d)
include hm h

/-- What the MDR write leaves after the gate write (R122). -/
theorem written_mdr_gateStep :
    written ⟨true, .mdr, encMdr s.params.regMap s.params.mdrEncOffset f d, none⟩
        (written (gateStep s.params.regMap none) s) =
      { s with
        regs := { s.regs with
          gate := true
          mdr := ⟨f - s.params.mdrEncOffset.val, d - s.params.mdrEncOffset.val⟩ }
        hist := s.hist ++ [.regWr .clkgate (gateImg s.params.regMap),
          .regWr .mdr (encMdr s.params.regMap s.params.mdrEncOffset f d)]
        mpos := s.mpos + 2 } := by
  obtain ⟨_, hmdr, _⟩ := regsAfter_clock hm h { s.regs with gate := true }
  rw [written_of_ne_rcsr true _ _ (by decide), written_gateStep hm]
  simp [hmdr]

/-- The clock's writes are admitted in every state: the gate is open for the later ones, and the pair is legal for the
last (R211, R215). -/
theorem admits_clockSteps (rep : Report) : Admits (clockSteps s.params f d rep) s := by
  refine ⟨gateStep_admitted hm none, ⟨rfl, ?mdr⟩, ⟨rfl, ?mcr⟩, trivial⟩
  case mdr =>
    rw [written_gateStep hm]
    exact writeCheck_mdr (s := { s with regs := { s.regs with gate := true }, hist := _, mpos := _ }) hm h rfl
  case mcr =>
    rw [written_mdr_gateStep hm h]
    exact writeCheck_mcr (s := { s with regs := _, hist := _, mpos := _ }) hm rfl (legal_enc h)

/-- What the clock's writes and their report leave (R130, R131). -/
theorem writtenAll_clockSteps {rep : Report} (hp : s.mpos = 0) (hrep : rep ≠ .unsupported) :
    writtenAll (clockSteps s.params f d rep) s = clocked f d rep s := by
  obtain ⟨_, _, hmcr⟩ := regsAfter_clock hm h
    { s.regs with gate := true, mdr := ⟨f - s.params.mdrEncOffset.val, d - s.params.mdrEncOffset.val⟩ }
  simp only [clockSteps, writtenAll, List.foldl_cons, List.foldl_nil]
  rw [written_report, written_of_ne_rcsr true _ _ (by decide), written_mdr_gateStep hm h]
  cases rep with
  | unsupported => exact absurd rfl hrep
  | rateOk | pairOk => simp [hp, hmcr, clocked, clockedRegs, clockEvents, applyReport, emit, reportedRate]

end Clock

/-- A command that is a clock configuration alone completes in three steps (R130, R131). -/
theorem execTimes_clock {i : Instr} {s : State} {f d : Nat} {rep : Report} (hc : s.ctx = .fg) (hp : s.mpos = 0)
    (hx : expansion s.params i = clockSteps s.params f d rep) (hm : regMapOk s.params.regMap = true)
    (hf : EncFits s.params.regMap s.params.mdrEncOffset f d) (hrep : rep ≠ .unsupported) :
    execTimes 3 i s = .next (hostDone i.opcode.narg (clocked f d rep s)) := by
  rw [← writtenAll_clockSteps hm hf hp hrep]
  exact execTimes_completes (before_start hc hp hx) nofun (admits_clockSteps hm hf rep)

/-- A pair that cannot be encoded faults at the second step, the gate set (R131). -/
theorem execTimes_pair_range {i : Instr} {s : State} {f d : Word} {rest : List MacroStep} (hc : s.ctx = .fg)
    (hp : s.mpos = 0) (hx : expansion s.params i = mclkPairSteps s.params.regMap s.params.mdrEncOffset f d ++ rest)
    (hm : regMapOk s.params.regMap = true)
    (hf : ¬ EncFits s.params.regMap s.params.mdrEncOffset f.toNat d.toNat) :
    execTimes 2 i s = .next (raiseFault ⟨.fRange, .host, .opcode i.opcode⟩
      { s with
        regs := { s.regs with gate := true }
        hist := s.hist ++ [.regWr .clkgate (gateImg s.params.regMap)]
        mpos := 1 }) := by
  have hstart := before_start hc hp hx
  have hcheck := Bool.eq_false_iff.2 (mt (encFits_iff _ _ _ _).1 hf)
  have hgate := written_gateStep hm
  rw [hp] at hgate
  rw [execTimes_snoc (execTimes_one (exec_made hstart (gateStep_admitted hm none))),
    exec_range hstart.written hcheck, hgate]

/-! ### The frame's steps -/

/-- The first four writes of a frame configuration (R140). -/
def configSteps (p : Params) (c b : Word) : List MacroStep :=
  [⟨frameOk p c.toNat b.toNat, .rcr2, rcr2Img p.regMap, none⟩, ⟨true, .rcr4, rcr4Img p.regMap c.toNat b.toNat, none⟩,
    ⟨true, .rcr5, rcr5Img p.regMap b.toNat, none⟩, ⟨true, .rcr1, rcr1Img p.regMap c.toNat, none⟩]

/-- A frame configuration is those four writes, and the enabling write last (R140, R281). -/
theorem frameCfgSteps_eq (p : Params) (c b : Word) :
    frameCfgSteps p c b = configSteps p c b ++ [⟨true, .rcsr, rcsrImg p.regMap, none⟩] := rfl

/-- A step that writes a configuration register inside its fields, with no report. -/
def WritesConfig (m : RegMap) (st : MacroStep) : Prop :=
  (st.reg = .rcr1 ∨ st.reg = .rcr2 ∨ st.reg = .rcr4 ∨ st.reg = .rcr5) ∧ st.check = true ∧ st.report = none ∧
    Within m st.reg st.value

/-- The first four writes are such steps (R141). -/
theorem configSteps_writesConfig {p : Params} {c b : Word} (h : FrameOk p c.toNat b.toNat) :
    ∀ st ∈ configSteps p c b, WritesConfig p.regMap st := by
  have hcheck := (frameOk_iff p c.toNat b.toNat).2 h
  simp only [configSteps, List.forall_mem_cons]
  exact ⟨⟨by simp, hcheck, rfl, packFields_within_reg rfl⟩, ⟨by simp, rfl, rfl, packFields_within_reg rfl⟩,
    ⟨by simp, rfl, rfl, packFields_within_reg rfl⟩, ⟨by simp, rfl, rfl, packFields_within_reg rfl⟩, nofun⟩

/-- Writes of configuration registers are admitted one after the other behind an open gate while the receiver is off:
none of them touches GATE or RE (R218). -/
theorem admits_config {sts : List MacroStep} {s : State} (h : ∀ st ∈ sts, WritesConfig s.params.regMap st)
    (hg : s.regs.gate = true) (hre : s.regs.rcsr.re = false) : Admits sts s := by
  induction sts generalizing s with
  | nil => trivial
  | cons st sts ih =>
    obtain ⟨hst, hsts⟩ := List.forall_mem_cons.1 h
    obtain ⟨check, r, v, rep⟩ := st
    obtain ⟨hr, rfl, rfl, hv⟩ := hst
    have hk : r ≠ .clkgate := by rintro rfl; simp at hr
    have hn : r ≠ .rcsr := by rintro rfl; simp at hr
    obtain ⟨hgate, _, _, hrcsr, _⟩ := regsAfter_agreeBut s.params.regMap r v s.regs
    refine ⟨⟨rfl, writeCheck_config r v s hr hg hre ((within_iff hk v).2 hv)⟩, ?_⟩
    rw [written_of_ne_rcsr true v s hn]
    exact ih hsts ((hgate hk).trans hg) ((congrArg Rcsr.re (hrcsr hn)).trans hre)

/-- What the first four writes leave (R141). -/
theorem writtenAll_configSteps {s : State} {c b : Word} (hp : paramsOk s.params = true)
    (h : FrameOk s.params c.toNat b.toNat) :
    writtenAll (configSteps s.params c b) s =
      { s with
        regs := framedRegs c.toNat b.toNat s.regs
        hist := s.hist ++ frameEvents s.params.regMap c.toNat b.toNat
        mpos := s.mpos + 4 } := by
  obtain ⟨h2, h4, h5, h1⟩ := by simpa only [forall_and] using regsAfter_frame hp h
  simp only [configSteps, writtenAll, List.foldl_cons, List.foldl_nil, written_of_ne_rcsr, ne_eq, reduceCtorEq,
    not_false_eq_true, h2, h4, h5, h1]
  simp [framedRegs, frameEvents]

/-- What the enabling write leaves (R216). -/
theorem written_rcsrImg {s : State} (hm : regMapOk s.params.regMap = true) :
    written ⟨true, .rcsr, rcsrImg s.params.regMap, none⟩ s =
      { s with
        regs := enabledRegs s.regs
        hist := s.hist ++ [.regWr .rcsr (rcsrImg s.params.regMap)]
        mpos := s.mpos + 1 } := by
  obtain ⟨hrcsr, hrxq⟩ := rcsrAfter_rcsrImg hm s.regs.rcsr s.rxq
  simp only [written, regsAfter, hrcsr, hrxq]
  rfl

/-- All five writes are admitted with a running clock while the receiver is off: the images are the admitted mode
(R142). -/
theorem admits_frameCfgSteps {s : State} {c b : Word} (hp : paramsOk s.params = true)
    (h : FrameOk s.params c.toNat b.toNat) (hg : s.regs.gate = true) (hre : s.regs.rcsr.re = false)
    (hk : clkOk s = true) : Admits (frameCfgSteps s.params c b) s := by
  refine admits_append (admits_config (configSteps_writesConfig h) hg hre) ⟨⟨rfl, ?_⟩, trivial⟩
  rw [writtenAll_configSteps hp h]
  exact writeCheck_rcsr (s := { s with regs := _, hist := _, mpos := _ }) (paramsOk_regMap hp) hg
    (modeAdmitted_framed hp h s.regs rfl) hk

/-- What all five writes leave (R140). -/
theorem writtenAll_frameCfgSteps {s : State} {c b : Word} (hp : paramsOk s.params = true)
    (h : FrameOk s.params c.toNat b.toNat) :
    writtenAll (frameCfgSteps s.params c b) s =
      { s with
        regs := enabledRegs (framedRegs c.toNat b.toNat s.regs)
        hist := s.hist ++ frameEvents s.params.regMap c.toNat b.toNat ++ [.regWr .rcsr (rcsrImg s.params.regMap)]
        mpos := s.mpos + 5 } := by
  rw [frameCfgSteps_eq, writtenAll_append, writtenAll_configSteps hp h]
  exact written_rcsrImg (s := { s with regs := _, hist := _, mpos := _ }) (paramsOk_regMap hp)

/-- A configuration register may not be written while the receiver runs (R218). -/
theorem writeCheck_config_live {r : Reg} {v : Word} {s : State} (hr : r = .rcr1 ∨ r = .rcr2 ∨ r = .rcr4 ∨ r = .rcr5)
    (hg : s.regs.gate = true) (hre : s.regs.rcsr.re = true) (hv : Within s.params.regMap r v) :
    writeCheck r v s = some (.fault .fCfgLive (.reg r)) := by
  have hk : r ≠ .clkgate := by rintro rfl; simp at hr
  have hd : r ≠ .rdr := by rintro rfl; simp at hr
  rw [writeCheck_rule hd (.inl hg) ((within_iff hk v).2 hv)]
  rcases hr with rfl | rfl | rfl | rfl <;> exact if_pos hre

/-! ### The clock and then the frame -/

section Initialise

variable {i : Instr} {s : State} {f d : Nat} {rep : Report} {c b : Word} (hc : s.ctx = .fg) (hp : s.mpos = 0)
  (hok : paramsOk s.params = true) (hf : EncFits s.params.regMap s.params.mdrEncOffset f d) (hrep : rep ≠ .unsupported)
  (hx : expansion s.params i = clockSteps s.params f d rep ++ frameCfgSteps s.params c b)
include hc hp hok hf hrep hx

/-- After the clock's three steps the frame's are left. -/
theorem execTimes_clock_part :
    execTimes 3 i s = .next (clocked f d rep s) ∧ Before i (frameCfgSteps s.params c b) (clocked f d rep s) := by
  have hm := paramsOk_regMap hok
  rw [← writtenAll_clockSteps hm hf hp hrep]
  exact execTimes_made (before_start hc hp hx) (admits_clockSteps hm hf rep)

/-- A bad C or B faults at the fourth step, the clock running (R140, R145, R146). -/
theorem execTimes_frame_range (h : ¬ FrameOk s.params c.toNat b.toNat) :
    execTimes 4 i s = .next (raiseFault ⟨.fRange, .host, .opcode i.opcode⟩ (clocked f d rep s)) := by
  obtain ⟨hrun, hleft⟩ := execTimes_clock_part hc hp hok hf hrep hx
  rw [execTimes_snoc hrun, exec_range hleft (Bool.eq_false_iff.2 (mt (frameOk_iff _ _ _).1 h))]

/-- A running receiver faults at the fourth step, the clock running (R140, R218). -/
theorem execTimes_frame_live (h : FrameOk s.params c.toNat b.toNat) (hre : s.regs.rcsr.re = true) :
    execTimes 4 i s = .next (raiseFault ⟨.fCfgLive, .host, .reg .rcr2⟩ (clocked f d rep s)) := by
  obtain ⟨hrun, hleft⟩ := execTimes_clock_part hc hp hok hf hrep hx
  have hlive : writeCheck .rcr2 (rcr2Img s.params.regMap) (clocked f d rep s) = some (.fault .fCfgLive (.reg .rcr2)) :=
    writeCheck_config_live (by simp) rfl hre (packFields_within_reg rfl)
  rw [execTimes_snoc hrun, exec_write_stops hleft ((frameOk_iff _ _ _).2 h) hlive]
  rfl

/-- Otherwise eight steps program the clock and the frame and enable the receiver (R145, R146). -/
theorem execTimes_initialises (h : FrameOk s.params c.toNat b.toNat) (hre : s.regs.rcsr.re = false) :
    execTimes 8 i s = .next
      { clocked f d rep s with
        regs := enabledRegs (framedRegs c.toNat b.toNat (clockedRegs s.params.mdrEncOffset f d s.regs))
        hist := s.hist ++ clockEvents s.params.regMap s.params.mdrEncOffset f d ++
          frameEvents s.params.regMap c.toNat b.toNat ++ [.regWr .rcsr (rcsrImg s.params.regMap)]
        hp := s.hp + 1 + i.opcode.narg
        mpos := 0 } := by
  have hm := paramsOk_regMap hok
  have hclk : clkOk (clocked f d rep s) = true := legal_enc hf
  have hall : Admits (clockSteps s.params f d rep ++ frameCfgSteps s.params c b) s := by
    refine admits_append (admits_clockSteps hm hf rep) ?_
    rw [writtenAll_clockSteps hm hf hp hrep]
    exact admits_frameCfgSteps (s := clocked f d rep s) hok h rfl hre hclk
  have hrun := execTimes_completes (before_start hc hp hx) nofun hall
  rw [writtenAll_append, writtenAll_clockSteps hm hf hp hrep] at hrun
  have hframe : writtenAll (frameCfgSteps s.params c b) (clocked f d rep s) = _ :=
    writtenAll_frameCfgSteps (s := clocked f d rep s) hok h
  rw [hframe] at hrun
  exact hrun

end Initialise

/-! ### `mclk.rate`, `mclk.pair`, `begin.rate` and `begin.pair` -/

/-- A command is its command word and then its argument words (R91, R105). -/
theorem encode_of_commandWord {i : Instr} {o : Opcode} {w : Word} (hop : i.opcode = o) (hsub : i.sub = 0)
    (hw : commandWord o 0 = w) : encode i = w :: i.args := by
  rw [encode, hop, hsub, hw]

/-- Settles O11: the supported rate expands to the clock's writes, any other to the gate write alone. -/
theorem mclkRateProgramsOrReports : Obligations.MclkRateProgramsOrReports := by
  refine ⟨fun _ => encode_of_commandWord (o := .mclkRate) rfl rfl (by decide), by decide, fun s hc hp hok => ?_⟩
  have hm := paramsOk_regMap hok
  have hf := encFits_table hok
  have hx : expansion s.params (.mclkRate 48000) = clockSteps s.params 16 125 (.rateOk 48000) :=
    mclkRateSteps_supported s.params
  refine ⟨exec_gateStep (before_start hc hp hx) hp hm, ?_, fun rate hrate => ?_⟩
  · rw [execTimes_clock hc hp hx hm hf nofun]
    rfl
  · exact exec_unsupported (before_start hc hp (mclkRateSteps_unsupported hrate s.params)) hm

/-- Settles O12: an encodable pair expands to the clock's writes, and any other fails the second step's check. -/
theorem mclkPairProgramsOrFaults : Obligations.MclkPairProgramsOrFaults := by
  refine ⟨fun _ _ => encode_of_commandWord (o := .mclkPair) rfl rfl (by decide), fun s f d hc hp hm =>
    ⟨exec_gateStep (before_start hc hp rfl) hp hm, fun hf => ?_, fun hf => execTimes_pair_range (rest := []) hc hp rfl hm hf⟩⟩
  have hx : expansion s.params (.mclkPair f d) = clockSteps s.params f.toNat d.toNat .pairOk := mclkPairSteps_of_fits hf
  rw [execTimes_clock hc hp hx hm hf nofun]
  rfl

/-- Settles O17: `begin.rate` is `mclk.rate` and, for the supported rate, the frame's steps after it. -/
theorem beginRateInitialises : Obligations.BeginRateInitialises := by
  refine ⟨fun _ _ _ => encode_of_commandWord (o := .beginRate) rfl rfl (by decide), fun s rate c b hc hp hok =>
    ⟨fun hrate => ?unsupported, ?supported⟩⟩
  case unsupported =>
    refine exec_unsupported (i := .beginRate rate c b) (before_start hc hp ?_) (paramsOk_regMap hok)
    rw [expansion, beginRateSteps, mclkRateSteps_unsupported hrate, rateTable_none hrate]
    rfl
  case supported =>
    rintro rfl
    have hf := encFits_table hok
    have hx : expansion s.params (.beginRate 48000 c b) =
        clockSteps s.params 16 125 (.rateOk 48000) ++ frameCfgSteps s.params c b := rfl
    have hrep : Report.rateOk 48000 ≠ .unsupported := nofun
    exact ⟨exec_gateStep (before_start hc hp hx) hp (paramsOk_regMap hok),
      execTimes_frame_range hc hp hok hf hrep hx, execTimes_frame_live hc hp hok hf hrep hx,
      execTimes_initialises hc hp hok hf hrep hx⟩

/-- Settles O18: `begin.pair` is `mclk.pair` and then the frame's steps. -/
theorem beginPairInitialises : Obligations.BeginPairInitialises := by
  refine ⟨fun _ _ _ _ => encode_of_commandWord (o := .beginPair) rfl rfl (by decide), fun s f d c b hc hp hok => ?_⟩
  have hm := paramsOk_regMap hok
  have hx (hf : EncFits s.params.regMap s.params.mdrEncOffset f.toNat d.toNat) :
      expansion s.params (.beginPair f d c b) =
        clockSteps s.params f.toNat d.toNat .pairOk ++ frameCfgSteps s.params c b :=
    congrArg (· ++ _) (mclkPairSteps_of_fits hf)
  have hrep : Report.pairOk ≠ .unsupported := nofun
  exact ⟨exec_gateStep (before_start hc hp rfl) hp hm, execTimes_pair_range hc hp rfl hm,
    fun hf => execTimes_frame_range hc hp hok hf hrep (hx hf),
    fun hf => execTimes_frame_live hc hp hok hf hrep (hx hf),
    fun hf => execTimes_initialises hc hp hok hf hrep (hx hf)⟩

end Sys2Proof.Machine

/-! Proofs of the clock family: `gate.en`, the clocks derived from the rate table's entry, and what a step of the clock and
frame configuration leaves unchanged. -/

namespace Sys2Proof.Machine

open Sys2Proof.Config

/-! ### `gate.en` -/

/-- Settles O10: `gate.en` is the gate write alone, which is admitted in every state and completes the command. -/
theorem gateEnSetsTheGate : Obligations.GateEnSetsTheGate := by
  refine ⟨encode_of_commandWord (o := .gateEn) rfl rfl (by decide), by decide, fun s hc hp hm => ?_⟩
  rw [exec_completes (before_start hc hp rfl) (gateStep_admitted hm none), written_gateStep hm]
  rfl

/-! ### The derived clocks -/

/-- The master clock of a legal ratio (R121). -/
theorem mclkHz_of_legal {s : State} (h : mdrLegal s = true) :
    mclkHz s = some (s.params.fMclkIn * (fractL s.params.mdrEncOffset s.regs.mdr : Rat) /
      (divideL s.params.mdrEncOffset s.regs.mdr : Rat)) := if_pos h

/-- A frame has at least one bit: C and B are stored less 1 (R55). -/
theorem frameBits_pos (s : State) : 0 < frameBits s := Nat.mul_pos (Nat.succ_pos _) (Nat.succ_pos _)

/-- The frame rate is the one whose frames take up the bit clock (R125). -/
theorem frameHz_eq_some_iff {s : State} {b : Rat} (hb : bclkHz s = some b) (r : Rat) :
    frameHz s = some r ↔ b = r * (frameBits s : Rat) := by
  have hpos : (frameBits s : Rat) ≠ 0 := Nat.cast_ne_zero.2 (frameBits_pos s).ne'
  rw [frameHz, hb, Option.map_some, Option.some_inj, div_eq_iff hpos]

/-- Settles O14: 16/125 of 96 MHz is 12.288 MHz, a quarter of that is the bit clock, and a frame takes C * B bit clocks. -/
theorem derivedClocksOfTheTableEntry : Obligations.DerivedClocksOfTheTableEntry := by
  intro s hin hfract hdivide hdiv
  have hlegal : mdrLegal s = true := by simp [mdrLegal, ratioLegal, hfract, hdivide]
  have hmclk : mclkHz s = some 12288000 := by
    rw [mclkHz_of_legal hlegal, hin, hfract, hdivide]
    norm_num
  have hbclk : bclkHz s = some 3072000 := by
    rw [bclkHz, hmclk, hdiv]
    norm_num
  refine ⟨hmclk, hbclk, ?_, fun hC hB => ?_⟩
  · rw [frameHz_eq_some_iff hbclk, ← frameBits]
    constructor
    · intro h
      have hbits : (frameBits s : Rat) = 64 := by linarith
      exact_mod_cast hbits
    · intro h
      rw [h]
      norm_num
  · rw [frameHz_eq_some_iff hbclk, frameBits, hC, hB]
    norm_num

/-! ### The steps of the clock and frame configuration -/

/-- A step that writes a register of the clock. -/
def WritesClock (st : MacroStep) : Prop := st.reg = .clkgate ∨ st.reg = .mdr ∨ st.reg = .mcr

/-- A step that writes a register of the frame, RCSR only with the enabling image, and reports nothing. -/
def WritesFrame (m : RegMap) (st : MacroStep) : Prop :=
  (st.reg = .rcr2 ∨ st.reg = .rcr4 ∨ st.reg = .rcr5 ∨ st.reg = .rcr1 ∨ st.reg = .rcsr ∧ st.value = rcsrImg m) ∧
    st.report = none

/-- `mclk.rate` writes the clock (R130). -/
theorem mclkRateSteps_writesClock (m : RegMap) (off : Fin 2) (rate : Word) :
    ∀ st ∈ mclkRateSteps m off rate, WritesClock st := by
  cases h : rateTable rate <;> simp [mclkRateSteps, h, gateStep, WritesClock]

/-- `mclk.pair` writes the clock (R131). -/
theorem mclkPairSteps_writesClock (m : RegMap) (off : Fin 2) (f d : Word) :
    ∀ st ∈ mclkPairSteps m off f d, WritesClock st := by
  simp [mclkPairSteps, gateStep, WritesClock]

/-- `frame.cfg` writes the frame (R140). -/
theorem frameCfgSteps_writesFrame (p : Params) (c b : Word) :
    ∀ st ∈ frameCfgSteps p c b, WritesFrame p.regMap st := by
  simp [frameCfgSteps, WritesFrame]

/-- Every step of a command's expansion writes the clock or the frame (R103). -/
theorem expansion_writes {p : Params} {i : Instr} {st : MacroStep} (h : st ∈ expansion p i) :
    WritesClock st ∨ WritesFrame p.regMap st := by
  cases i with
  | gateEn => exact .inl (.inl (List.mem_singleton.1 h ▸ rfl))
  | mclkRate rate => exact .inl (mclkRateSteps_writesClock _ _ rate st h)
  | mclkPair f d => exact .inl (mclkPairSteps_writesClock _ _ f d st h)
  | frameCfg c b => exact .inr (frameCfgSteps_writesFrame p c b st h)
  | beginRate rate c b =>
    rcases List.mem_append.1 h with h | h
    · exact .inl (mclkRateSteps_writesClock _ _ rate st h)
    · split at h
      · exact .inr (frameCfgSteps_writesFrame p c b st h)
      · cases h
  | beginPair f d c b =>
    rcases List.mem_append.1 h with h | h
    · exact .inl (mclkPairSteps_writesClock _ _ f d st h)
    · exact .inr (frameCfgSteps_writesFrame p c b st h)
  | _ => cases h

/-- The one write of RCSR in an expansion is that of the enabling image (R140, R141). -/
theorem expansion_rcsr {p : Params} {i : Instr} {st : MacroStep} (h : st ∈ expansion p i) (hr : st.reg = .rcsr) :
    st.value = rcsrImg p.regMap := by
  rcases expansion_writes h with hclock | ⟨hframe, _⟩
  · simp [WritesClock, hr] at hclock
  · simpa [hr] using hframe

/-- A register write that is RCSR's only with the enabling image leaves FEF and the FIFO: the image has neither FEF nor FR
(R216). -/
theorem regsAfter_keeps_fef {m : RegMap} (hm : regMapOk m = true) {r : Reg} {v : Word} (h : r = .rcsr → v = rcsrImg m)
    (g : Regs) (q : List Word) : (regsAfter m r v g).rcsr.fef = g.rcsr.fef ∧ rxqAfter m r v q = q := by
  by_cases hr : r = .rcsr
  · obtain ⟨hrcsr, hrxq⟩ := rcsrAfter_rcsrImg hm g.rcsr q
    rw [h hr, hr]
    exact ⟨(congrArg Rcsr.fef hrcsr :), hrxq⟩
  · obtain ⟨_, _, _, hrcsr, _⟩ := regsAfter_agreeBut m r v g
    exact ⟨congrArg Rcsr.fef (hrcsr hr), rxqAfter_eq_self q (.inl hr)⟩

/-- A made step with no report leaves the configured rate and the result. -/
theorem macroWrite_unreported {st : MacroStep} {s t : State} (hrep : st.report = none)
    (h : macroWrite st s = .ok t) : t.cfgRate = s.cfgRate ∧ t.res = s.res := by
  have hok := macroWrite_ok (macroWrite_inv h).1
  simp only [h, hrep, Except.ok.injEq] at hok
  rw [hok]
  exact ⟨rfl, rfl⟩

/-- What a step of a command with an expansion can change: the register of one of its steps, FEF excepted, that step's
report, the history, the records and the host's position. Where the host stops, any step of the expansion will do. -/
theorem expansion_frame {i : Instr} {s t : State} (hm : regMapOk s.params.regMap = true)
    (hx : expansion s.params i ≠ []) (h : exec i s = .next t) :
    ∃ g rate res hs fs rf hp mp,
      t = { s with
        regs := g, cfgRate := rate, res := res, hist := hs, faults := fs, refused := rf, hp := hp, mpos := mp } ∧
        g.rcsr.fef = s.regs.rcsr.fef ∧
        ∃ st ∈ expansion s.params i, AgreeBut st.reg s.regs g ∧ (st.report = none → rate = s.cfgRate ∧ res = s.res) := by
  rw [exec_of_expansion hx] at h
  rcases hostMacro_next h with ⟨fs, rf, rfl⟩ | ⟨st, hst, s', hw, hp, mp, rfl⟩
  · obtain ⟨st, hst⟩ := List.exists_mem_of_ne_nil _ hx
    exact ⟨s.regs, s.cfgRate, s.res, s.hist, fs, rf, s.hp, s.mpos, rfl, rfl, st, hst, agreeBut_refl _ _,
      fun _ => ⟨rfl, rfl⟩⟩
  · obtain ⟨_, hs', _⟩ := macroWrite_inv hw
    obtain ⟨hfef, hrxq⟩ := regsAfter_keeps_fef hm (expansion_rcsr hst) s.regs s.rxq
    rw [hrxq] at hs'
    refine ⟨_, s'.cfgRate, s'.res, s'.hist, s.faults, s.refused, hp, mp, ?_, hfef, st, hst,
      regsAfter_agreeBut _ _ _ _, fun hrep => macroWrite_unreported hrep hw⟩
    rw [hs']

/-- A step of the clock leaves the frame's registers. -/
theorem AgreeBut.of_writesClock {st : MacroStep} {g g' : Regs} (h : AgreeBut st.reg g g') (hst : WritesClock st) :
    g'.rcsr = g.rcsr ∧ g'.rcr1 = g.rcr1 ∧ g'.rcr2 = g.rcr2 ∧ g'.rcr4 = g.rcr4 ∧ g'.rcr5 = g.rcr5 := by
  obtain ⟨_, r, _, _⟩ := st
  obtain ⟨_, _, _, hrcsr, hrcr1, hrcr2, hrcr4, hrcr5⟩ := h
  rcases hst with rfl | rfl | rfl <;> exact ⟨hrcsr nofun, hrcr1 nofun, hrcr2 nofun, hrcr4 nofun, hrcr5 nofun⟩

/-- A step of the frame leaves the clock's registers. -/
theorem AgreeBut.of_writesFrame {m : RegMap} {st : MacroStep} {g g' : Regs} (h : AgreeBut st.reg g g')
    (hst : WritesFrame m st) : g'.gate = g.gate ∧ g'.mcr = g.mcr ∧ g'.mdr = g.mdr := by
  obtain ⟨_, r, _, _⟩ := st
  obtain ⟨hgate, hmcr, hmdr, _⟩ := h
  obtain ⟨rfl | rfl | rfl | rfl | ⟨rfl, _⟩, _⟩ := hst <;> exact ⟨hgate nofun, hmcr nofun, hmdr nofun⟩

/-- A rate makes at least the gate write (R130). -/
theorem mclkRateSteps_ne_nil (m : RegMap) (off : Fin 2) (rate : Word) : mclkRateSteps m off rate ≠ [] := by
  cases h : rateTable rate <;> simp [mclkRateSteps, h]

/-- The clock and frame configuration commands have an expansion (R103). -/
theorem expansion_ne_nil (p : Params) {i : Instr}
    (hi : i = .gateEn ∨ (∃ r, i = .mclkRate r) ∨ (∃ f d, i = .mclkPair f d) ∨ (∃ c b, i = .frameCfg c b) ∨
      (∃ r c b, i = .beginRate r c b) ∨ (∃ f d c b, i = .beginPair f d c b)) : expansion p i ≠ [] := by
  rcases hi with rfl | ⟨r, rfl⟩ | ⟨f, d, rfl⟩ | ⟨c, b, rfl⟩ | ⟨r, c, b, rfl⟩ | ⟨f, d, c, b, rfl⟩
  · exact nofun
  · exact mclkRateSteps_ne_nil _ _ r
  · exact nofun
  · exact nofun
  · exact List.append_ne_nil_of_left_ne_nil (mclkRateSteps_ne_nil _ _ r) _
  · exact nofun

/-- Settles O49: a step writes one register of the clock or of the frame, and RCSR only with an image that keeps FEF and
the FIFO. -/
theorem configurationCommandsFrame : Obligations.ConfigurationCommandsFrame := by
  intro i s t hm h hi
  obtain ⟨g, rate, res, hs, fs, rf, hp, mp, rfl, hfef, st, hst, hregs, hreport⟩ :=
    expansion_frame hm (expansion_ne_nil s.params hi) h
  refine ⟨rfl, rfl, rfl, hfef, rfl, rfl, rfl, rfl, rfl, rfl, rfl, rfl, rfl, rfl, rfl, fun hclock => ?clock, ?gateEn,
    ?frameCfg, fun hsilent => hreport ?silent⟩
  case clock =>
    refine hregs.of_writesClock ?_
    rcases hclock with rfl | ⟨r, rfl⟩ | ⟨f, d, rfl⟩
    · exact .inl (List.mem_singleton.1 hst ▸ rfl)
    · exact mclkRateSteps_writesClock _ _ r st hst
    · exact mclkPairSteps_writesClock _ _ f d st hst
  case gateEn =>
    rintro rfl
    obtain rfl := List.mem_singleton.1 hst
    obtain ⟨_, hmcr, hmdr, _⟩ := hregs
    exact ⟨hmcr nofun, hmdr nofun⟩
  case frameCfg =>
    rintro ⟨c, b, rfl⟩
    exact hregs.of_writesFrame (frameCfgSteps_writesFrame s.params c b st hst)
  case silent =>
    rcases hsilent with rfl | ⟨c, b, rfl⟩
    · exact List.mem_singleton.1 hst ▸ rfl
    · exact (frameCfgSteps_writesFrame s.params c b st hst).2

end Sys2Proof.Machine

/-! Proofs of the frame family: `frame.cfg` run write by write, and the mode its images are admitted in. -/

namespace Sys2Proof.Machine

open Sys2Proof.Config

/-- The state the first four writes of `frame.cfg` leave, the enabling write still to be made (R140, R141). -/
def framed (c b : Word) (s : State) : State :=
  { s with
    regs := framedRegs c.toNat b.toNat s.regs
    hist := s.hist ++ frameEvents s.params.regMap c.toNat b.toNat
    mpos := 4 }

section FrameCfg

variable {s : State} {c b : Word} (hc : s.ctx = .fg) (hp : s.mpos = 0) (h : FrameOk s.params c.toNat b.toNat)
include hc hp h

/-- Where the RCR2 write does not pass its checks, `frame.cfg` stops with what the write met (R140). -/
theorem exec_frameCfg_stops {e : Stop} (hw : writeCheck .rcr2 (rcr2Img s.params.regMap) s = some e) :
    exec (.frameCfg c b) s = .next (stopAgent .host e s) :=
  exec_write_stops (before_start hc hp rfl) ((frameOk_iff _ _ _).2 h) hw

variable (hok : paramsOk s.params = true) (hg : s.regs.gate = true) (hre : s.regs.rcsr.re = false)
include hok hg hre

/-- The first step writes RCR2's image (R140, R141). -/
theorem exec_frameCfg_first :
    exec (.frameCfg c b) s = .next
      { s with
        regs := { s.regs with rcr2 := ⟨0, 1, true, true, 1⟩ }
        hist := s.hist ++ [.regWr .rcr2 (rcr2Img s.params.regMap)]
        mpos := 1 } := by
  obtain ⟨hadm, _⟩ := admits_config (configSteps_writesConfig h) hg hre
  obtain ⟨hregs, _⟩ := regsAfter_frame hok h s.regs
  rw [exec_made (before_start hc hp rfl) hadm, written_of_ne_rcsr _ _ s (by decide), hregs, hp]

/-- The first four steps write the images, and the enabling write is left (R140, R281). -/
theorem execTimes_frameCfg_four :
    execTimes 4 (.frameCfg c b) s = .next (framed c b s) ∧
      Before (.frameCfg c b) [⟨true, .rcsr, rcsrImg s.params.regMap, none⟩] (framed c b s) := by
  have hall : writtenAll (configSteps s.params c b) s = framed c b s := by
    rw [writtenAll_configSteps hok h, hp, framed]
  rw [← hall]
  exact execTimes_made (sts := configSteps s.params c b) (before_start hc hp rfl)
    (admits_config (configSteps_writesConfig h) hg hre)

/-- Without a running clock the enabling write, the fifth step, is F_SEQ (R140). -/
theorem execTimes_frameCfg_no_clock (hk : clkOk s = false) :
    execTimes 5 (.frameCfg c b) s = .next (raiseFault ⟨.fSeq, .host, .reg .rcsr⟩ (framed c b s)) := by
  obtain ⟨hrun, hleft⟩ := execTimes_frameCfg_four hc hp h hok hg hre
  rw [execTimes_snoc hrun]
  exact exec_write_stops hleft rfl (writeCheck_rcsr_clock (s := framed c b s) (paramsOk_regMap hok) hg hk)

/-- With a running clock all five writes are made and `frame.cfg` completes (R140, R142). -/
theorem execTimes_frameCfg_completes (hk : clkOk s = true) :
    execTimes 5 (.frameCfg c b) s = .next
      { s with
        regs := enabledRegs (framedRegs c.toNat b.toNat s.regs)
        hist := s.hist ++ frameEvents s.params.regMap c.toNat b.toNat ++ [.regWr .rcsr (rcsrImg s.params.regMap)]
        hp := s.hp + 3
        mpos := 0 } := by
  have hrun := execTimes_completes (i := .frameCfg c b) (sts := frameCfgSteps s.params c b)
    (before_start hc hp rfl) nofun (admits_frameCfgSteps hok h hg hre hk)
  rw [writtenAll_frameCfgSteps hok h] at hrun
  exact hrun

end FrameCfg

/-- Settles O15: the five writes of `frame.cfg`, or the stop at the shape's check, at the first write's or at the
last's. -/
theorem frameCfgProgramsTheReceiver : Obligations.FrameCfgProgramsTheReceiver := by
  refine ⟨fun _ _ => encode_of_commandWord (o := .frameCfg) rfl rfl (by decide), fun s c b hc hp =>
    ⟨fun h => ?shape, fun h hg => ?gate, fun h hg hre => ?live, fun hok h hg hre => ?programs⟩⟩
  case shape => exact exec_range (before_start hc hp rfl) (Bool.eq_false_iff.2 (mt (frameOk_iff _ _ _).1 h))
  case gate => exact exec_frameCfg_stops hc hp h (writeCheck_closed _ (by decide) (by decide) hg)
  case live =>
    exact exec_frameCfg_stops hc hp h (writeCheck_config_live (by simp) hg hre (packFields_within_reg rfl))
  case programs =>
    exact ⟨exec_frameCfg_first hc hp h hok hg hre, execTimes_frameCfg_no_clock hc hp h hok hg hre,
      execTimes_frameCfg_completes hc hp h hok hg hre⟩

/-- Settles O16: the images are the admitted mode, so the fifth step completes with a running clock and is F_SEQ without
one, and neither sets a refusal. -/
theorem frameImagesAreAdmitted : Obligations.FrameImagesAreAdmitted := by
  intro s c b hc hp hok h hg hre
  obtain ⟨hrun, _⟩ := execTimes_frameCfg_four hc hp h hok hg hre
  have hfifth : ∃ u, execTimes 5 (.frameCfg c b) s = .next u ∧ u.refused = s.refused := by
    cases hk : clkOk s with
    | false => exact ⟨_, execTimes_frameCfg_no_clock hc hp h hok hg hre hk, by rw [raiseFault_eq]; rfl⟩
    | true => exact ⟨_, execTimes_frameCfg_completes hc hp h hok hg hre hk, rfl⟩
  obtain ⟨u, hu, hrefused⟩ := hfifth
  rw [execTimes_snoc hrun] at hu
  exact ⟨framed c b s, u, hrun, modeAdmitted_framed hok h s.regs rfl, rfl, rfl, rfl, rfl, hu, hrefused⟩

end Sys2Proof.Machine

/-! Proofs of the lifecycle family: what `start.rx`, `stop.rx`, `start.tx` and `stop.tx` do to the lines and what they store,
and what they leave unchanged. -/

namespace Sys2Proof.Machine

open Sys2Proof.Config

/-! ### The effects of the start commands -/

/-- `start.rx` while RX is Running, or with the receiver not enabled, is F_SEQ (R160). -/
theorem startRxBody_seq {s : State} (cb d0 d1 : Word) (h : s.irqenRx = true ∨ s.regs.rcsr.re = false) :
    startRxBody cb d0 d1 s = .error (.fault .fSeq (.opcode .startRx)) := by
  unfold startRxBody
  split
  · rfl
  · exact if_pos (h.resolve_left ‹_›)

/-- `start.rx` otherwise stores its arguments and enables the line (R160). -/
theorem startRxBody_ok {s : State} (cb d0 d1 : Word) (hrx : s.irqenRx = false) (hre : s.regs.rcsr.re = true) :
    startRxBody cb d0 d1 s = .ok { s with cbRx := some cb, dest0 := some d0, dest1 := some d1, irqenRx := true } := by
  simp [startRxBody, hrx, hre]

/-- A made `start.rx` has stored its arguments and enabled the line. -/
theorem startRxBody_inv {cb d0 d1 : Word} {s s' : State} (h : startRxBody cb d0 d1 s = .ok s') :
    s' = { s with cbRx := some cb, dest0 := some d0, dest1 := some d1, irqenRx := true } := by
  by_cases hseq : s.irqenRx = true ∨ s.regs.rcsr.re = false
  · rw [startRxBody_seq cb d0 d1 hseq] at h; cases h
  · obtain ⟨hrx, hre⟩ := not_or.1 hseq
    rw [startRxBody_ok cb d0 d1 (Bool.eq_false_iff.2 hrx) (Bool.eq_true_of_not_eq_false hre)] at h
    cases h; rfl

/-- `start.tx` while TX is Running is F_SEQ (R164). -/
theorem startTxBody_seq {s : State} (cb : Word) (h : s.irqenTx = true) :
    startTxBody cb s = .error (.fault .fSeq (.opcode .startTx)) := if_pos h

/-- `start.tx` otherwise stores its argument and enables the line (R164). -/
theorem startTxBody_ok {s : State} (cb : Word) (h : s.irqenTx = false) :
    startTxBody cb s = .ok { s with cbTx := some cb, irqenTx := true } := if_neg (Bool.eq_false_iff.1 h)

/-- A made `start.tx` has stored its argument and enabled the line. -/
theorem startTxBody_inv {cb : Word} {s s' : State} (h : startTxBody cb s = .ok s') :
    s' = { s with cbTx := some cb, irqenTx := true } := by
  cases htx : s.irqenTx with
  | true => rw [startTxBody_seq cb htx] at h; cases h
  | false => rw [startTxBody_ok cb htx] at h; cases h; rfl

/-! ### What the commands do -/

/-- Settles O19: `start.rx` is one atomic step, stopped by either of its checks and completed past both. -/
theorem startRxStoresAndEnables : Obligations.StartRxStoresAndEnables :=
  ⟨fun _ _ _ => encode_of_commandWord (o := .startRx) rfl rfl (by decide), fun _ cb d0 d1 hc =>
    ⟨fun hseq => hostAtomic_error hc (startRxBody_seq cb d0 d1 hseq),
      fun hrx hre => hostAtomic_ok hc (startRxBody_ok cb d0 d1 hrx hre)⟩⟩

/-- Settles O20: `start.tx` is one atomic step, stopped by its check and completed past it. -/
theorem startTxStoresAndEnables : Obligations.StartTxStoresAndEnables :=
  ⟨fun _ => encode_of_commandWord (o := .startTx) rfl rfl (by decide), fun _ cb hc =>
    ⟨fun htx => hostAtomic_error hc (startTxBody_seq cb htx), fun htx => hostAtomic_ok hc (startTxBody_ok cb htx)⟩⟩

/-- Settles O21: both are one atomic step without a check, whose whole effect is on the enable. -/
theorem stopDisablesTheLineOnly : Obligations.StopDisablesTheLineOnly :=
  ⟨encode_of_commandWord (o := .stopRx) rfl rfl (by decide), encode_of_commandWord (o := .stopTx) rfl rfl (by decide),
    fun _ hc => ⟨hostAtomic_ok (body := stopRxBody) hc rfl, hostAtomic_ok (body := stopTxBody) hc rfl⟩⟩

/-! ### What the commands leave -/

/-- `t` is `s` but for the lines and what they store, the records and the host's position. -/
def SameButLines (s t : State) : Prop :=
  ∃ rx tx cbRx cbTx d0 d1 fs rf hp mp, t =
    { s with
      irqenRx := rx, irqenTx := tx, cbRx := cbRx, cbTx := cbTx, dest0 := d0, dest1 := d1
      faults := fs, refused := rf, hp := hp, mpos := mp }

/-- A host step keeps all that its effect keeps: a stop leaves a record or the mark, and completion moves the position. -/
theorem hostAtomic_sameButLines {o : Opcode} {body : State → Except Stop State} {s t : State}
    (hbody : ∀ s', body s = .ok s' → SameButLines s s') (h : hostAtomic o body s = .next t) : SameButLines s t := by
  rcases hostAtomic_next h with ⟨fs, rf, rfl⟩ | ⟨s', hb, hp, rfl⟩
  · exact ⟨_, _, _, _, _, _, fs, rf, _, _, rfl⟩
  · obtain ⟨_, _, _, _, _, _, _, _, _, _, rfl⟩ := hbody s' hb
    exact ⟨_, _, _, _, _, _, _, _, hp, 0, rfl⟩

/-- What a lifecycle command can change (R160, R162, R164, R166). -/
theorem lifecycle_sameButLines {i : Instr} {s t : State} (h : exec i s = .next t)
    (hi : (∃ cb d0 d1, i = .startRx cb d0 d1) ∨ i = .stopRx ∨ (∃ cb, i = .startTx cb) ∨ i = .stopTx) :
    SameButLines s t := by
  rcases hi with ⟨cb, d0, d1, rfl⟩ | rfl | ⟨cb, rfl⟩ | rfl
  · exact hostAtomic_sameButLines (fun _ hb => ⟨_, _, _, _, _, _, _, _, _, _, startRxBody_inv hb⟩) h
  · exact hostAtomic_sameButLines (body := stopRxBody)
      (fun _ hb => ⟨_, _, _, _, _, _, _, _, _, _, (Except.ok.inj hb).symm⟩) h
  · exact hostAtomic_sameButLines (fun _ hb => ⟨_, _, _, _, _, _, _, _, _, _, startTxBody_inv hb⟩) h
  · exact hostAtomic_sameButLines (body := stopTxBody)
      (fun _ hb => ⟨_, _, _, _, _, _, _, _, _, _, (Except.ok.inj hb).symm⟩) h

/-- Settles O50: only the lines and what they store change, and of these each command writes only its own. -/
theorem lifecycleCommandsFrame : Obligations.LifecycleCommandsFrame := by
  intro i s t ht hi
  obtain ⟨hrx, htx⟩ := onlyLifecycleCommandsWriteTheLines.1 i s t ht
  obtain ⟨_, _, _, _, _, _, _, _, _, _, rfl⟩ := lifecycle_sameButLines ht hi
  refine ⟨rfl, rfl, rfl, rfl, rfl, rfl, rfl, rfl, rfl, rfl, rfl, rfl, ?rxCommands, ?txCommands, ?stopRx, ?stopTx⟩
  case rxCommands =>
    rintro (⟨cb, d0, d1, rfl⟩ | rfl) <;> obtain ⟨hcb, hon⟩ := htx nofun <;> exact ⟨hon nofun, hcb⟩
  case txCommands =>
    rintro (⟨cb, rfl⟩ | rfl) <;> obtain ⟨hcb, h0, h1, hon⟩ := hrx nofun <;> exact ⟨hon nofun, hcb, h0, h1⟩
  case stopRx =>
    rintro rfl
    obtain ⟨hcb, h0, h1, _⟩ := hrx nofun
    exact ⟨hcb, h0, h1⟩
  case stopTx =>
    rintro rfl
    exact (htx nofun).1

end Sys2Proof.Machine

/-! Proofs of the drain family: the micro-operations one by one, the receiver's whole frames, the RX handler run under
any interleaving, and the end of every handler run under a weakly fair handler. -/

namespace Sys2Proof.Machine

open Sys2Proof.Config

/-! ### The micro-operations -/

/-- `h.fr` is a micro-operation of the RX handler (R190). -/
theorem exec_hFr (s : State) : exec .hFr s = handlerOp (inHandler .rx s) hFrBody s := rfl

/-- `h.fr` behind an open gate in the RX handler (R190). -/
theorem exec_hFr_open {s : State} {n : Nat} (hc : s.ctx = .handler .rx n) (hg : s.regs.gate = true) :
    exec .hFr s = .next
      { s with
        rxq := []
        hist := s.hist ++ [.regWr .rcsr (frImg s.params.regMap)]
        ctx := .handler .rx (n + 1) } := by
  have hbody : hFrBody s = .ok (emit (.regWr .rcsr (frImg s.params.regMap)) { s with rxq := [] }) :=
    if_neg (by rw [hg]; nofun)
  rw [exec_hFr, handlerOp_done hc hbody rfl]
  rfl

/-- Settles O32: `h.fr` is the gate's check and the emptied FIFO, which is above no watermark. -/
theorem hFrEmptiesTheFifo : Obligations.HFrEmptiesTheFifo := by
  refine ⟨rfl, by decide, fun s => ⟨handlerOp_outside hFrBody, fun n hc => ⟨fun hg => ?closed, fun hg => ?opened⟩⟩⟩
  case closed => exact handlerOp_stop (body := hFrBody) hc (if_pos hg)
  case opened =>
    refine ⟨exec_hFr_open hc hg, fun t ht => ?_⟩
    cases (exec_hFr_open hc hg).symm.trans ht
    simp [rxReq, frf]

/-- `h.call` in a handler of its direction (R194). -/
theorem exec_hCall {s : State} {d : Dir} {n : Nat} (hc : s.ctx = .handler d n) :
    exec (.hCall d) s = .next
      { s with hist := s.hist ++ [.callback d (storedHandle d s)], ctx := .handler d (n + 1) } :=
  handlerOp_done (body := hCallBody d) hc rfl rfl

/-- Settles O33: `h.call` looks at its context, and its body is one event. -/
theorem hCallRecordsTheCallback : Obligations.HCallRecordsTheCallback :=
  ⟨rfl, rfl, fun _ => ⟨fun d => handlerOp_outside (hCallBody d), fun _ => exec_hCall, fun _ => exec_hCall⟩⟩

/-- `h.ret` in a handler (R195). -/
theorem exec_hRet {s : State} {d : Dir} {n : Nat} (hc : s.ctx = .handler d n) :
    exec .hRet s = .next (leaveHandler d s) := by
  simp only [exec, execHRet, hc]

/-- Settles O34: `h.ret` is the handler's return wherever a handler runs. -/
theorem hRetReturnsToTheForeground : Obligations.HRetReturnsToTheForeground :=
  ⟨rfl, fun _ => ⟨exec_handler_foreground rfl, fun _ _ => exec_hRet⟩⟩

/-- What the micro-operation `i` can change: memory, the inputs and the FIFO by `h.rd`, the FIFO by `h.fr`, and the
history, the records and the context. -/
def OperationFrame (i : Instr) (s t : State) : Prop :=
  ∃ m ds n q hs fs rf c,
    t = { s with
      mem := m, draws := ds, freeIdx := n, rxq := q
      hist := hs, faults := fs, refused := rf, ctx := c } ∧
    ((∀ k, i ≠ .hRd k) → ds = s.draws ∧ n = s.freeIdx ∧ m = s.mem) ∧
    ((∀ k, i ≠ .hRd k) → i ≠ .hFr → q = s.rxq)

/-- A micro-operation that leaves the inputs, memory and the FIFO changes no more than every one of them may. -/
theorem operationFrame_of_hist (i : Instr) (s : State) (hs : List Event) (rf : Option RefuseReason) (c : Ctx) :
    OperationFrame i s { s with hist := hs, refused := rf, ctx := c } :=
  ⟨s.mem, s.draws, s.freeIdx, s.rxq, hs, s.faults, rf, c, rfl, fun _ => ⟨rfl, rfl, rfl⟩, fun _ _ => rfl⟩

/-- The records and the context are no more than a micro-operation may change on top of its body. -/
theorem handlerOp_operationFrame {i : Instr} {adm : Bool} {body : State → Except (Stop × State) State} {s t : State}
    (hbody : ∀ s', body s = .ok s' ∨ (∃ e, body s = .error (e, s')) → OperationFrame i s s')
    (h : handlerOp adm body s = .next t) : OperationFrame i s t := by
  rcases handlerOp_next h with ⟨rf, rfl⟩ | ⟨s', hb, fs, rf, c, rfl⟩
  · exact operationFrame_of_hist i s s.hist rf s.ctx
  · obtain ⟨m, ds, n, q, hs, _, _, _, rfl, hkept⟩ := hbody s' hb
    exact ⟨m, ds, n, q, hs, fs, rf, c, rfl, hkept⟩

/-- The body of `h.fr`, completed or stopped, changes the FIFO and the history alone (R190). -/
theorem hFrBody_next {s s' : State} (h : hFrBody s = .ok s' ∨ ∃ e, hFrBody s = .error (e, s')) :
    ∃ q hs, s' = { s with rxq := q, hist := hs } := by
  by_cases hg : s.regs.gate = false
  · simp [hFrBody, hg] at h
    exact ⟨s.rxq, s.hist, h.symm⟩
  · simp [hFrBody, hg] at h
    exact ⟨[], _, h.symm⟩

/-- Everything a micro-operation can change. -/
theorem exec_operationFrame {i : Instr} {s t : State} (hi : isHandlerOp i = true) (h : exec i s = .next t) :
    OperationFrame i s t := by
  cases i with
  | hRd k =>
    refine handlerOp_operationFrame (fun s' hb => ?_) h
    obtain ⟨m, q, hs, ds, n, rfl, _⟩ := hRdBody_next hb
    exact ⟨m, ds, n, q, hs, s.faults, s.refused, s.ctx, rfl, fun hk => absurd rfl (hk k), fun hk => absurd rfl (hk k)⟩
  | hFr =>
    refine handlerOp_operationFrame (fun s' hb => ?_) h
    obtain ⟨q, hs, rfl⟩ := hFrBody_next hb
    exact ⟨s.mem, s.draws, s.freeIdx, q, hs, s.faults, s.refused, s.ctx, rfl, fun _ => ⟨rfl, rfl, rfl⟩,
      fun _ hfr => absurd rfl hfr⟩
  | hCall d =>
    refine handlerOp_operationFrame (body := hCallBody d) (fun s' hb => ?_) h
    simp [hCallBody] at hb
    exact hb ▸ operationFrame_of_hist _ s _ s.refused s.ctx
  | hRet =>
    cases hc : s.ctx with
    | fg =>
      cases (exec_handler_foreground rfl hc).symm.trans h
      exact operationFrame_of_hist _ s s.hist _ s.ctx
    | handler d n =>
      cases (exec_hRet hc).symm.trans h
      exact operationFrame_of_hist _ s _ s.refused _
  | _ => cases hi

/-- Settles O48: no micro-operation reaches a register field, a line or the host's position, and memory is written as
O47 says of every command. -/
theorem handlerOperationsFrame : Obligations.HandlerOperationsFrame := by
  intro i s t hi ht
  obtain ⟨hmem, hbytes⟩ := onlyTheDrainWritesMemory.1 i s t ht
  obtain ⟨m, ds, n, q, hs, fs, rf, c, rfl, hinputs, hfifo⟩ := exec_operationFrame hi ht
  exact ⟨rfl, rfl, rfl, rfl, rfl, rfl, rfl, rfl, rfl, rfl, rfl, rfl, rfl, rfl, hfifo, hinputs, hmem, hbytes⟩

/-! ### Schedules -/

/-- A turn that answers a next state, and then the others. -/
theorem runSched_cons {u : Turn} {s s' : State} (ts : List Turn) (h : runTurn u s = .next s') :
    runSched (u :: ts) s = runSched ts s' := by
  simp only [runSched, h]

/-- Turns that answer a next state, and then the others. -/
theorem runSched_append {ts : List Turn} (us : List Turn) {s s' : State} (h : runSched ts s = .next s') :
    runSched (ts ++ us) s = runSched us s' := by
  induction ts generalizing s with
  | nil => cases h; rfl
  | cons u ts ih =>
    rw [runSched] at h
    cases hu : runTurn u s with
    | next s1 =>
      rw [hu] at h
      exact (runSched_cons _ hu).trans (ih h)
    | fault | refused => rw [hu] at h; cases h

/-- The turn of a handler that has not faulted is one step of its micro-operation (R196). -/
theorem runTurn_operation {s t : State} {d : Dir} {n : Nat} {i : Instr} (hc : s.ctx = .handler d n)
    (hf : ∀ r ∈ s.faults, r.agent ≠ .handler) (hi : (microProgram d)[n]? = some i) (h : exec i s = .next t) :
    runTurn .handler s = .next t :=
  (handlerTurn_runs hc hf hi).trans h

/-- The handler's turns of a schedule, counted turn by turn. -/
theorem handlerTurns_cons (u : Turn) (ts : List Turn) :
    handlerTurns (u :: ts) = (if u = .handler then 1 else 0) + handlerTurns ts := by
  unfold handlerTurns
  rw [List.filter_cons]
  by_cases hu : u = .handler <;> simp [hu, Nat.add_comm]

/-- Settles O39: a TX run is the dispatch, the callback and the return, each of which adds its event alone. -/
theorem txHandlerRunRestoresTheForeground : Obligations.TxHandlerRunRestoresTheForeground := by
  intro s hc htx hf
  have hdispatch : runTurn (.dispatcher true .tx) s = .next (enterHandler .tx s) :=
    congrArg Host.Outcome.next (dispatcherTurn_starts hc (.inr ⟨rfl, by rw [htx]; rfl, .inr rfl⟩))
  have hcall : runTurn .handler (enterHandler .tx s) = .next
      { s with hist := s.hist ++ [.dispatch .tx] ++ [.callback .tx s.cbTx], ctx := .handler .tx 1 } :=
    runTurn_operation (i := .hCall .tx) rfl hf rfl (exec_hCall rfl)
  have hret : runTurn .handler
      { s with hist := s.hist ++ [.dispatch .tx] ++ [.callback .tx s.cbTx], ctx := .handler .tx 1 } = .next
      { s with hist := s.hist ++ [.dispatch .tx] ++ [.callback .tx s.cbTx] ++ [.ret .tx], ctx := .fg } :=
    runTurn_operation (i := .hRet) rfl hf rfl (exec_hRet rfl)
  rw [runSched_cons _ hdispatch, runSched_cons _ hcall, runSched_cons _ hret, ← hc]
  simp [runSched]

/-! ### Whole frames -/

/-- The entries of frames and of those after them. -/
theorem groupEntries_append (gs gs' : List Group) : groupEntries (gs ++ gs') = groupEntries gs ++ groupEntries gs' := by
  induction gs with
  | nil => rfl
  | cons g gs ih => simp [groupEntries, ih]

/-- A frame is three entries (R185). -/
theorem length_groupEntries (gs : List Group) : (groupEntries gs).length = 3 * gs.length := by
  induction gs with
  | nil => rfl
  | cons g gs ih => simp only [groupEntries, List.length_cons, ih]; omega

/-- What a depth leaves of entries pushed after what it left of others is what it leaves of all of them (R184). -/
theorem take_take_append (d : Nat) (l l' : List Word) : (l.take d ++ l').take d = (l ++ l').take d := by
  rw [List.take_append, List.take_append, List.take_take, Nat.min_self, List.length_take]
  congr 2
  omega

/-- A receiver step of an interleaved two-channel frame goes on holding the frames received (R185, R193). -/
theorem receiveFrame_holdsFrames {s : State} {gs : List Group} (hmap : s.params.rxStreamMap = .dummyInterleaved)
    (hC : s.regs.rcr4.frsz + 1 = 2) (h : HoldsFrames gs s) :
    ∃ g, HoldsFrames (gs ++ [g]) (receiveFrame s) ∧
      (receiveFrame s).hist = s.hist ++ [.frame [g.w0, g.w1]] ∧ g.w0.toNat < 2 ^ cfgB s ∧ g.w1.toNat < 2 ^ cfgB s := by
  obtain ⟨ws, es, q, f, ds, n, hlen, hbits, hes, hq, heq⟩ := receiveFrame_inv s
  rcases hes with ⟨w0, d, w1, rfl, _, rfl⟩ | ⟨hplain, _⟩
  · have hbound : s.rxq.length ≤ s.params.rxFifoDepth := by
      rw [h]
      exact List.length_take_le _ _
    obtain ⟨rfl, _⟩ := hq hbound
    rw [heq]
    refine ⟨⟨w0, d, w1⟩, ?_, rfl, hbits w0 (by simp), hbits w1 (by simp)⟩
    unfold HoldsFrames at h ⊢
    rw [groupEntries_append, h]
    exact take_take_append _ _ _
  · exact absurd ⟨hlen.trans hC, hmap⟩ hplain

/-- Settles O37: a frame's entries follow those held, and a depth of 8 cuts whole frames at 0, 3, 6 or 8. -/
theorem receiverKeepsWholeFrames : Obligations.ReceiverKeepsWholeFrames := by
  refine ⟨fun s gs hmap hC hre h => ?_, fun s gs hd h => ?_⟩
  · obtain ⟨g, hg⟩ := receiveFrame_holdsFrames hmap hC h
    exact ⟨_, g, congrArg Host.Outcome.next (receiverTurn_on hre), hg⟩
  · have hlen := congrArg List.length h
    rw [List.length_take, length_groupEntries, hd] at hlen
    omega

/-! ### The RX handler run

`Progress` says what the first operations of the drain have read, written and recorded, whatever happened between them;
`Draining` ties it to a state of the run. Every turn keeps a state draining, and the handler's moves it on by one. -/

/-- `t` is `s` but for the FIFO, FEF, the context, the history, memory and the inputs. -/
def SameButDrain (s t : State) : Prop :=
  ∃ q f c hs m ds n, t =
    { s with
      rxq := q, regs := { s.regs with rcsr := { s.regs.rcsr with fef := f } }
      ctx := c, hist := hs, mem := m, draws := ds, freeIdx := n }

/-- One change after another. -/
theorem SameButDrain.trans {s t u : State} (h : SameButDrain s t) (h' : SameButDrain t u) : SameButDrain s u := by
  obtain ⟨_, _, _, _, _, _, _, rfl⟩ := h
  obtain ⟨_, _, _, _, _, _, _, rfl⟩ := h'
  exact ⟨_, _, _, _, _, _, _, rfl⟩

/-- The drain can run to its end: the gate is open, the destinations are admitted and the handler has not faulted. -/
structure DrainReady (s : State) (d0 d1 : Word) : Prop where
  gate : s.regs.gate = true
  dest0 : s.dest0 = some d0
  dest1 : s.dest1 = some d1
  admitted0 : Admitted s.params d0
  admitted1 : Admitted s.params d1
  unfaulted : ∀ r ∈ s.faults, r.agent ≠ .handler

/-- What a drain can change is not what it needs. -/
theorem DrainReady.of_same {s t : State} {d0 d1 : Word} (h : DrainReady s d0 d1) (hs : SameButDrain s t) :
    DrainReady t d0 d1 := by
  obtain ⟨_, _, _, _, _, _, _, rfl⟩ := hs
  exact { h with }

/-- What the first `n` operations of a drain dispatched in `s` have come to: the events of the handler since then,
memory, and the entries held at the dispatch that are still to be read. A value read is the first of those, where one is
left (R188, R190, R194, R222). -/
inductive Progress (s : State) (d0 d1 : Word) : Nat → List Event → Memory → List Word → Prop
  | dispatched : Progress s d0 d1 0 [.dispatch .rx] s.mem s.rxq
  | readCh0 {es : List Event} {m : Memory} {q : List Word} (v : Word) (hv : ∀ a ∈ q.head?, v = a) :
      Progress s d0 d1 0 es m q → Progress s d0 d1 1 (es ++ [.regRd .rdr v, .memWr d0 4 v]) (m.writeWord d0 v) q.tail
  | skipped {es : List Event} {m : Memory} {q : List Word} (v : Word) (hv : ∀ a ∈ q.head?, v = a) :
      Progress s d0 d1 1 es m q → Progress s d0 d1 2 (es ++ [.regRd .rdr v]) m q.tail
  | readCh1 {es : List Event} {m : Memory} {q : List Word} (v : Word) (hv : ∀ a ∈ q.head?, v = a) :
      Progress s d0 d1 2 es m q → Progress s d0 d1 3 (es ++ [.regRd .rdr v, .memWr d1 4 v]) (m.writeWord d1 v) q.tail
  | emptied {es : List Event} {m : Memory} {q : List Word} :
      Progress s d0 d1 3 es m q → Progress s d0 d1 4 (es ++ [.regWr .rcsr (frImg s.params.regMap)]) m []
  | called {es : List Event} {m : Memory} {q : List Word} :
      Progress s d0 d1 4 es m q → Progress s d0 d1 5 (es ++ [.callback .rx s.cbRx]) m q

/-- What a drain has come to before its return: R197's events and the two deliveries, of the three oldest entries where
three were held. -/
theorem Progress.values {s : State} {d0 d1 : Word} {es : List Event} {m : Memory} {q : List Word}
    (h : Progress s d0 d1 5 es m q) :
    ∃ v0 v1 v2, (∀ a d b rest, s.rxq = a :: d :: b :: rest → v0 = a ∧ v1 = d ∧ v2 = b) ∧
      m = (s.mem.writeWord d0 v0).writeWord d1 v2 ∧
      es = [.dispatch .rx, .regRd .rdr v0, .memWr d0 4 v0, .regRd .rdr v1, .regRd .rdr v2, .memWr d1 4 v2,
        .regWr .rcsr (frImg s.params.regMap), .callback .rx s.cbRx] := by
  cases h with | called h4 =>
  cases h4 with | emptied h3 =>
  cases h3 with | readCh1 v2 hv2 h2 =>
  cases h2 with | skipped v1 hv1 h1 =>
  cases h1 with | readCh0 v0 hv0 h0 =>
  cases h0
  refine ⟨v0, v1, v2, fun a d b rest hq => ?_, rfl, rfl⟩
  rw [hq] at hv0 hv1 hv2
  exact ⟨hv0 a rfl, hv1 d rfl, hv2 b rfl⟩

/-- A state of the RX handler run dispatched in `s`, before its operation `n`. -/
structure Draining (s : State) (d0 d1 : Word) (n : Nat) (t : State) : Prop where
  context : t.ctx = .handler .rx n
  same : SameButDrain s t
  progress : ∃ es q, Progress s d0 d1 n es t.mem q ∧ q <+: t.rxq ∧ handlerHistory t = handlerHistory s ++ es

/-- Events added to the history, seen without the received frames. -/
theorem handlerHistory_of_append {s t : State} {es : List Event} (h : t.hist = s.hist ++ es) :
    handlerHistory t = handlerHistory s ++ es.filter (!isFrame ·) := by
  rw [handlerHistory, h, List.filter_append]
  rfl

/-- The dispatch begins the drain (R244). -/
theorem draining_enterHandler (s : State) (d0 d1 : Word) : Draining s d0 d1 0 (enterHandler .rx s) where
  context := rfl
  same := ⟨_, _, _, _, _, _, _, rfl⟩
  progress := ⟨_, _, .dispatched, List.prefix_refl _, handlerHistory_of_append (es := [.dispatch .rx]) rfl⟩

/-- The read and its event are among what a drain changes. -/
theorem sameButDrain_popped (t : State) : SameButDrain t (popped t) := ⟨_, t.regs.rcsr.fef, _, _, _, _, _, popped_eq t⟩

/-- The read takes the oldest entry off the FIFO. -/
theorem popped_rxq (t : State) : (popped t).rxq = t.rxq.tail := by rw [popped_eq]

/-- The read is recorded. -/
theorem popped_hist (t : State) : (popped t).hist = t.hist ++ [.regRd .rdr (readRdr t).1] := by rw [popped_eq]

/-- The read leaves memory. -/
theorem popped_mem (t : State) : (popped t).mem = t.mem := by rw [popped_eq]

section Run

variable {s t : State} {d0 d1 : Word} {n : Nat}

/-- Every turn of another agent keeps the drain where it is: the host and the dispatcher pass inside a handler (R57,
R244), and the receiver adds entries behind those held and frames to the history (R182, R184). -/
theorem Draining.other_turn (h : Draining s d0 d1 n t) {u : Turn} (hu : u ≠ .handler) :
    ∃ t', runTurn u t = .next t' ∧ Draining s d0 d1 n t' := by
  have hfg : t.ctx ≠ .fg := by rw [h.context]; nofun
  cases u with
  | host => exact ⟨t, hostTurn_passes (Bool.eq_false_iff.2 fun hen => hfg ((hostEnabled_iff t).1 hen).1), h⟩
  | handler => exact absurd rfl hu
  | dispatcher tx pick => exact ⟨t, congrArg Host.Outcome.next (dispatcherTurn_passes pick (.inl hfg)), h⟩
  | receiver =>
    obtain ⟨ext, ws, f, ds, k, heq⟩ := receiverTurn_grows t
    obtain ⟨es, q, hp, hq, hh⟩ := h.progress
    have hsame : SameButDrain s (receiverTurn t) := h.same.trans ⟨_, _, _, _, _, _, _, heq⟩
    refine ⟨receiverTurn t, rfl, by rw [heq]; exact h.context, hsame, es, q, ?_, ?_, ?_⟩
    · rw [heq]; exact hp
    · rw [heq]; exact hq.trans (List.prefix_append _ _)
    · have hframes : (ws.map Event.frame).filter (!isFrame ·) = [] := by
        simp [List.filter_eq_nil_iff, isFrame]
      rw [handlerHistory_of_append (congrArg State.hist heq), hframes, List.append_nil, hh]

/-- The value read is the first of the entries held at the dispatch and still to be read, where one is left (R222). -/
theorem readRdr_of_prefix {q : List Word} (hq : q <+: t.rxq) : ∀ a ∈ q.head?, (readRdr t).1 = a := by
  intro a ha
  obtain ⟨rest, rfl⟩ := List.head?_eq_some_iff.1 ha
  obtain ⟨ext, hext⟩ := hq
  rw [readRdr_cons hext.symm]

/-- The entries still to be read after it go on standing first in the FIFO. -/
theorem prefix_popped {q : List Word} (hq : q <+: t.rxq) : q.tail <+: (popped t).rxq := by
  rw [popped_rxq]
  obtain ⟨ext, hext⟩ := hq
  cases q with
  | nil => exact List.nil_prefix
  | cons a q => exact ⟨ext, by rw [← hext]; rfl⟩

/-- The discarded read of the drain (R188). -/
theorem exec_hRd_skip (hc : t.ctx = .handler .rx n) (hg : t.regs.gate = true) :
    exec (.hRd .skip) t = .next { popped t with ctx := .handler .rx (n + 1) } := by
  rw [exec_hRd, handlerOp_done hc (hRdBody_skip hg) (by rw [popped_eq])]

/-- A channel read of the drain with an admitted destination (R188). -/
theorem exec_hRd_channel {k : DrainPos} {d : Word} (hc : t.ctx = .handler .rx n) (hg : t.regs.gate = true)
    (hd : storesTo (.hRd k) t = some d) (ha : Admitted t.params d) :
    exec (.hRd k) t = .next
      { popped t with
        mem := t.mem.writeWord d (readRdr t).1
        hist := t.hist ++ [.regRd .rdr (readRdr t).1, .memWr d 4 (readRdr t).1]
        ctx := .handler .rx (n + 1) } := by
  have hparams : (popped t).params = t.params := by rw [popped_eq]
  have hbody := hRdBody_channel hg hd
  rw [writeDest_admitted _ (hparams ▸ ha)] at hbody
  rw [exec_hRd, handlerOp_done hc hbody (by rw [popped_eq]; rfl), popped_eq]
  simp

/-- A made operation moves the drain on: its events are the handler's, and the progress is as given. -/
theorem Draining.advance (h : Draining s d0 d1 n t) {t' : State} {es' : List Event}
    (hc : t'.ctx = .handler .rx (n + 1)) (hsame : SameButDrain t t') (hhist : t'.hist = t.hist ++ es')
    (hes : es'.filter (!isFrame ·) = es')
    (hp : ∀ es q, Progress s d0 d1 n es t.mem q → q <+: t.rxq →
      ∃ q', Progress s d0 d1 (n + 1) (es ++ es') t'.mem q' ∧ q' <+: t'.rxq) :
    Draining s d0 d1 (n + 1) t' := by
  obtain ⟨es, q, hprog, hq, hh⟩ := h.progress
  obtain ⟨q', hprog', hq'⟩ := hp es q hprog hq
  refine ⟨hc, h.same.trans hsame, es ++ es', q', hprog', hq', ?_⟩
  rw [handlerHistory_of_append hhist, hes, hh, List.append_assoc]

/-- The handler's turn makes the drain's next operation (R196). -/
theorem Draining.handler_turn (hr : DrainReady s d0 d1) (h : Draining s d0 d1 n t) (hn : n < 5) :
    ∃ t', runTurn .handler t = .next t' ∧ Draining s d0 d1 (n + 1) t' := by
  have ht := hr.of_same h.same
  obtain ⟨hparams, hhandle⟩ : t.params = s.params ∧ storedHandle .rx t = s.cbRx := by
    obtain ⟨_, _, _, _, _, _, _, rfl⟩ := h.same
    exact ⟨rfl, rfl⟩
  have hctx := h.context
  have hf := ht.unfaulted
  obtain rfl | rfl | rfl | rfl | rfl : n = 0 ∨ n = 1 ∨ n = 2 ∨ n = 3 ∨ n = 4 := by omega
  · refine ⟨_, runTurn_operation hctx hf rfl (exec_hRd_channel (k := .ch0) hctx ht.gate ht.dest0 ht.admitted0),
      h.advance rfl ((sameButDrain_popped t).trans ⟨_, _, _, _, _, _, _, rfl⟩) rfl rfl fun es q hp hq => ?_⟩
    exact ⟨q.tail, .readCh0 _ (readRdr_of_prefix hq) hp, prefix_popped hq⟩
  · refine ⟨_, runTurn_operation hctx hf rfl (exec_hRd_skip hctx ht.gate),
      h.advance rfl ((sameButDrain_popped t).trans ⟨_, _, _, _, _, _, _, rfl⟩) (popped_hist t) rfl fun es q hp hq => ?_⟩
    exact ⟨q.tail, .skipped _ (readRdr_of_prefix hq) (popped_mem t ▸ hp), prefix_popped hq⟩
  · refine ⟨_, runTurn_operation hctx hf rfl (exec_hRd_channel (k := .ch1) hctx ht.gate ht.dest1 ht.admitted1),
      h.advance rfl ((sameButDrain_popped t).trans ⟨_, _, _, _, _, _, _, rfl⟩) rfl rfl fun es q hp hq => ?_⟩
    exact ⟨q.tail, .readCh1 _ (readRdr_of_prefix hq) hp, prefix_popped hq⟩
  · refine ⟨_, runTurn_operation hctx hf rfl (exec_hFr_open hctx ht.gate),
      h.advance rfl ⟨_, _, _, _, _, _, _, rfl⟩ rfl rfl fun es q hp hq => ?_⟩
    exact ⟨[], hparams ▸ .emptied hp, List.nil_prefix⟩
  · refine ⟨_, runTurn_operation hctx hf rfl (exec_hCall hctx),
      h.advance rfl ⟨_, _, _, _, _, _, _, rfl⟩ rfl rfl fun es q hp hq => ?_⟩
    exact ⟨q, by rw [hhandle]; exact .called hp, hq⟩

/-- A schedule with no more handler turns than operations are left before the return moves the drain on by one for each
of them. -/
theorem Draining.runs (hr : DrainReady s d0 d1) {ts : List Turn} (h : Draining s d0 d1 n t)
    (hn : n + handlerTurns ts ≤ 5) : ∃ t', runSched ts t = .next t' ∧ Draining s d0 d1 (n + handlerTurns ts) t' := by
  induction ts generalizing n t with
  | nil => exact ⟨t, rfl, h⟩
  | cons u ts ih =>
    rw [handlerTurns_cons, ← Nat.add_assoc] at hn ⊢
    have hturn : ∃ t', runTurn u t = .next t' ∧ Draining s d0 d1 (n + if u = .handler then 1 else 0) t' := by
      by_cases hu : u = .handler
      · subst hu
        rw [if_pos rfl] at hn ⊢
        exact h.handler_turn hr (by omega)
      · rw [if_neg hu]
        exact h.other_turn hu
    obtain ⟨t', hu, h'⟩ := hturn
    rw [runSched_cons ts hu]
    exact ih h' hn

/-- After five operations the handler's turn returns to the foreground (R195, R196). -/
theorem Draining.return_turn (hr : DrainReady s d0 d1) (h : Draining s d0 d1 5 t) :
    runTurn .handler t = .next (leaveHandler .rx t) :=
  runTurn_operation h.context (hr.of_same h.same).unfaulted rfl (exec_hRet h.context)

end Run

/-- A dispatcher's turn that does not pass RX over starts its handler where it requests (R244). -/
theorem dispatcherTurn_rx {s : State} {txReq : Bool} {pick : Dir} (hc : s.ctx = .fg) (hrx : rxOk s = true)
    (hpick : txReq = true → pick = .rx) : dispatcherTurn txReq pick s = enterHandler .rx s := by
  refine dispatcherTurn_starts hc (.inl ⟨rfl, hrx, ?_⟩)
  cases txReq with
  | false => exact .inl (Bool.and_false _)
  | true => exact .inr (hpick rfl)

/-- Settles O52: the dispatch begins a drain, every turn keeps it or moves it on, and the last one returns. -/
theorem drainRunInOrderUnderAnyInterleaving : Obligations.DrainRunInOrderUnderAnyInterleaving := by
  intro s ts txReq pick d0 d1 hc hline hfrie hfifo hpick hg hd0 hd1 ha0 ha1 hf hts
  have hr : DrainReady s d0 d1 := ⟨hg, hd0, hd1, ha0, ha1, hf⟩
  have hdispatch : runTurn (.dispatcher txReq pick) s = .next (enterHandler .rx s) :=
    congrArg Host.Outcome.next (dispatcherTurn_rx hc ((rxOk_iff s).2 ⟨hline, hfrie, hfifo⟩) hpick)
  obtain ⟨t, hrun, h⟩ := (draining_enterHandler s d0 d1).runs hr (ts := ts) (by omega)
  rw [hts, Nat.zero_add] at h
  obtain ⟨es, q, hprog, _, hhist⟩ := h.progress
  obtain ⟨v0, v1, v2, hvalues, hmem, rfl⟩ := hprog.values
  have hreturn : runSched ((.dispatcher txReq pick :: ts) ++ [.handler]) s = .next (leaveHandler .rx t) := by
    rw [runSched_append _ ((runSched_cons ts hdispatch).trans hrun), runSched_cons _ (h.return_turn hr), runSched]
  have hevents : handlerHistory (leaveHandler .rx t) = handlerHistory t ++ [.ret .rx] :=
    handlerHistory_of_append (es := [.ret .rx]) rfl
  rw [hhist, List.append_assoc] at hevents
  refine ⟨leaveHandler .rx t, v0, v1, v2, hreturn, rfl, hvalues, hmem, hevents, ?_⟩
  obtain ⟨_, _, _, _, _, _, _, rfl⟩ := h.same
  exact ⟨rfl, rfl, rfl, rfl, rfl, rfl, rfl, rfl, rfl, rfl, rfl⟩

/-- Settles O53: where whole frames are held the three oldest entries are the oldest frame's. -/
theorem drainDeliversTheOldestFrame : Obligations.DrainDeliversTheOldestFrame := by
  intro s gs ts txReq pick d0 d1 hc hline hfrie hfifo hpick hg hd0 hd1 ha0 ha1 hf hts hdepth hframes
  obtain ⟨t, v0, v1, v2, hrun, _, hvalues, hmem, _⟩ :=
    drainRunInOrderUnderAnyInterleaving s ts txReq pick d0 d1 hc hline hfrie hfifo hpick hg hd0 hd1 ha0 ha1 hf hts
  cases gs with
  | nil =>
    rw [show s.rxq = [] by simpa [HoldsFrames, groupEntries] using hframes] at hfifo
    exact absurd hfifo (Nat.not_lt_zero _)
  | cons g gs' =>
    obtain ⟨n, hn⟩ := Nat.exists_eq_add_of_le' hdepth
    have hq : s.rxq = g.w0 :: g.dummy :: g.w1 :: (groupEntries gs').take n := by
      rw [hframes, hn]
      rfl
    obtain ⟨rfl, _, rfl⟩ := hvalues _ _ _ _ hq
    exact ⟨g, gs', t, rfl, hrun, hmem⟩

/-! ### Every handler run ends -/

/-- A step of a command in a handler leaves the position, moves it on by one, or returns. -/
theorem Effect.handler_position {s t : State} {i : Instr} {d : Dir} {n : Nat} (he : Effect s i t)
    (hc : s.ctx = .handler d n) : t.ctx = .handler d n ∨ t.ctx = .handler d (n + 1) ∨ t.ctx = .fg := by
  cases he with
  | @stopped s' a e hw =>
    obtain ⟨_, _, hctx, _⟩ := hw.frame
    rw [stopAgent_eq]
    exact .inl (hctx.trans hc)
  | completed hfg | continued hfg => cases hfg.symm.trans hc
  | advanced hc' =>
    cases hc.symm.trans hc'
    exact .inr (.inl rfl)
  | returned => exact .inr (.inr rfl)

/-- A turn in a handler does no more to its position: no agent but the handler writes the context there (R57, R246). -/
theorem runTurn_handler_position {u : Turn} {s t : State} {d : Dir} {n : Nat} (hc : s.ctx = .handler d n)
    (h : runTurn u s = .next t) : t.ctx = .handler d n ∨ t.ctx = .handler d (n + 1) ∨ t.ctx = .fg := by
  have hfg : s.ctx ≠ .fg := by rw [hc]; nofun
  cases u with
  | host =>
    rcases hostTurn_cases s with heq | ⟨x, heq⟩ | ⟨hfg', _⟩
    · cases heq.symm.trans h; exact .inl hc
    · cases heq.symm.trans h; exact .inl hc
    · exact absurd hfg' hfg
  | handler =>
    rcases handlerTurn_cases s with heq | ⟨_, _, _, _, ⟨_, heq⟩ | ⟨i, _, heq⟩⟩
    · cases heq.symm.trans h; exact .inl hc
    · cases heq.symm.trans h
    · exact (exec_effect (heq.symm.trans h)).handler_position hc
  | receiver =>
    cases h
    obtain ⟨_, _, _, _, _, heq⟩ := receiverTurn_grows s
    rw [heq]
    exact .inl hc
  | dispatcher tx pick =>
    cases (congrArg Host.Outcome.next (dispatcherTurn_passes pick (.inl hfg))).symm.trans h
    exact .inl hc

/-- Nor does a step: taking the turn leaves the context. -/
theorem step_handler_position {s t : State} {d : Dir} {n : Nat} (hc : s.ctx = .handler d n) (h : step s = .next t) :
    t.ctx = .handler d n ∨ t.ctx = .handler d (n + 1) ∨ t.ctx = .fg :=
  runTurn_handler_position (by rw [nextTurn_snd]; exact hc) h

section Fair

variable {r : Nat → State} (hrun : IsRun r)
include hrun

/-- Every state of a run is reached. -/
theorem IsRun.reachable (n : Nat) : Reachable (r n) := by
  induction n with
  | zero => exact .launch hrun.1
  | succ n ih => exact .step ih (hrun.2 n)

/-- At a later point of the run the handler is still at its position, or has left it by a step of its own. -/
theorem IsRun.handler_position {d : Dir} {h n m : Nat} (hc : (r n).ctx = .handler d h) (hm : n ≤ m) :
    (r m).ctx = .handler d h ∨ ∃ j, n ≤ j ∧ ((r j).ctx = .handler d (h + 1) ∨ (r j).ctx = .fg) := by
  induction m, hm using Nat.le_induction with
  | base => exact .inl hc
  | succ m hm ih =>
    rcases ih with hstay | hleft
    · exact (step_handler_position hstay (hrun.2 m)).imp_right fun hmove => ⟨m + 1, by omega, hmove⟩
    · exact .inr hleft

/-- Under weak fairness a handler with at most `k` operations left comes to its end. -/
theorem IsRun.handler_ends (hfair : FairHandler r) (k : Nat) {d : Dir} {h n : Nat} (hc : (r n).ctx = .handler d h)
    (hk : (microProgram d).length ≤ h + k) : ∃ m, n ≤ m ∧ ((r m).ctx = .fg ∨ hasFaulted .handler (r m) = true) := by
  induction k generalizing h n with
  | zero =>
    have hpos := ((runInv_of_reachable (hrun.reachable n)).handler hc).2
    omega
  | succ k ih =>
    cases hf : hasFaulted .handler (r n) with
    | true => exact ⟨n, le_refl n, .inr hf⟩
    | false =>
      obtain ⟨m, hm, hleft | hfault⟩ := hfair n d h hc hf
      · obtain ⟨j, hj, hnext | hfg⟩ := (hrun.handler_position hc hm).resolve_left hleft
        · obtain ⟨i, hi, hend⟩ := ih hnext (by omega)
          exact ⟨i, hj.trans hi, hend⟩
        · exact ⟨j, hj, .inl hfg⟩
      · exact ⟨m, hm, .inr hfault⟩

end Fair

/-- Settles O54: by induction on the operations left, each of which fairness brings about. -/
theorem fairHandlerReturns : Obligations.FairHandlerReturns := by
  intro r hrun hfair n
  cases hc : (r n).ctx with
  | fg => exact ⟨n, le_refl n, .inl hc⟩
  | handler d h => exact hrun.handler_ends hfair _ hc (Nat.le_add_left _ h)

end Sys2Proof.Machine

/-! Proofs of the register access family: the gate's check at every access, the writes register by register, the reads,
and the read-back of what was written. -/

namespace Sys2Proof.Machine

open Sys2Proof.Config

/-! ### Behind a closed gate -/

/-- A `regrd` behind a closed gate (R211). -/
theorem regrd_closed {r : Reg} {s : State} (hc : s.ctx = .fg) (hr : r ≠ .clkgate) (hg : s.regs.gate = false) :
    exec (.regrd r) s = .next (raiseFault ⟨.fGate, .host, .reg r⟩ s) :=
  hostAtomic_error (o := .regrd) (e := .fault .fGate (.reg r)) hc (by simp only [regrdBody, regRead_gate hr hg])

/-- The step at the host's position is the first of those left. -/
theorem before_of_getElem? {i : Instr} {st : MacroStep} {s : State} (hc : s.ctx = .fg)
    (hst : (expansion s.params i)[s.mpos]? = some st) :
    Before i (st :: (expansion s.params i).drop (s.mpos + 1)) s := by
  obtain ⟨hlt, rfl⟩ := List.getElem?_eq_some_iff.1 hst
  exact ⟨hc, List.drop_eq_getElem_cons hlt⟩

/-- The next register write of a command with an expansion, behind a closed gate (R103, R211). -/
theorem exec_expansion_closed {i : Instr} {st : MacroStep} {s : State} (hc : s.ctx = .fg)
    (hst : (expansion s.params i)[s.mpos]? = some st) (hcheck : st.check = true) (hr : st.reg ≠ .clkgate)
    (hg : s.regs.gate = false) : exec i s = .next (raiseFault ⟨.fGate, .host, .reg st.reg⟩ s) :=
  exec_write_stops (before_of_getElem? hc hst) hcheck
    (writeCheck_closed st.value (expansion_reg (List.mem_of_getElem? hst)) hr hg)

/-- CLKGATE is beside the gate's check and has no bits to refuse, so its own rule decides (R211 to R213). -/
theorem writeCheck_clkgate (v : Word) (s : State) : writeCheck .clkgate v s = clkgateCheck v s :=
  writeCheck_rule nofun (.inr rfl) (by simp [wmask])

/-- A write of CLKGATE that does not stop the clock under MCLK or the receiver (R213). -/
theorem writeCheck_clkgate_admitted {v : Word} {s : State}
    (h : v.getLsbD s.params.regMap.gate = true ∨ (s.regs.mcr.moe = false ∧ s.regs.rcsr.re = false)) :
    writeCheck .clkgate v s = none := by
  rw [writeCheck_clkgate]
  refine if_neg ?_
  rintro ⟨hv, hruns⟩
  rcases h with hset | ⟨hmoe, hre⟩
  · simp [hv] at hset
  · simp [hmoe, hre] at hruns

/-- A `regwr` that is admitted, of a register other than RCSR: the FIFO is left (R210, R216). -/
theorem regwr_ok_of_ne_rcsr {r : Reg} {v : Word} {s : State} (hc : s.ctx = .fg) (hr : r ≠ .rcsr)
    (h : writeCheck r v s = none) :
    exec (.regwr r v) s = .next
      { s with
        regs := regsAfter s.params.regMap r v s.regs
        hist := s.hist ++ [.regWr r v]
        hp := s.hp + 2
        mpos := 0 } := by
  rw [regwr_ok hc h, rxqAfter_eq_self s.rxq (.inl hr)]

/-- Settles O22: every access but CLKGATE's looks at the gate before its effect. -/
theorem closedGateFaultsEveryAccess : Obligations.ClosedGateFaultsEveryAccess := by
  refine fun s hg => ⟨fun hc => ⟨?regwr, ?regrd, ?expanded, ?readGate, ?setGate⟩, fun n hc => ⟨?drain, ?empty⟩⟩
  case regwr => exact fun r v hk hr => regwr_stop hc (writeCheck_closed v hr hk hg)
  case regrd => exact fun r hk => regrd_closed hc hk hg
  case expanded => exact fun i st hst hcheck hk => exec_expansion_closed hc hst hcheck hk hg
  case readGate => exact ⟨_, regrd_fields hc nofun (absurd rfl), rfl, rfl⟩
  case setGate =>
    exact fun v hv => ⟨_, regwr_ok_of_ne_rcsr hc nofun (writeCheck_clkgate_admitted (.inl hv)), rfl, hv⟩
  case drain => exact fun k => handlerOp_stop hc (hRdBody_gate k hg)
  case empty => exact handlerOp_stop (body := hFrBody) hc (if_pos hg)

/-! ### Writes, register by register -/

/-- Settles O24: CLKGATE's one check is that of R213. -/
theorem regwrClkgate : Obligations.RegwrClkgate := by
  refine ⟨rfl, ?_⟩
  rintro s _ v rfl hc
  refine ⟨fun hruns => regwr_stop hc ((writeCheck_clkgate v s).trans (if_pos hruns)), fun h => ?_⟩
  exact regwr_ok_of_ne_rcsr hc nofun (writeCheck_clkgate_admitted h)

/-- Behind an open gate, with the value's 1s in the register's fields, the register's own rule decides (R214). -/
theorem writeCheck_within {r : Reg} {v : Word} {s : State} (hr : r ≠ .rdr) (hk : r ≠ .clkgate)
    (hg : s.regs.gate = true) (hv : Within s.params.regMap r v) : writeCheck r v s = ruleCheck r v s :=
  writeCheck_rule hr (.inl hg) ((within_iff hk v).2 hv)

/-- MCR's rule lets a write through that enables the output with a legal ratio, or disables it while the receiver is off
(R215). -/
theorem mcrCheck_admitted {v : Word} {s : State}
    (h : (v.getLsbD s.params.regMap.moe = true ∧ mdrLegal s = true) ∨
      (v.getLsbD s.params.regMap.moe = false ∧ s.regs.rcsr.re = false)) : mcrCheck v s = none := by
  rcases h with ⟨hmoe, hlegal⟩ | ⟨hmoe, hre⟩ <;> simp [mcrCheck, *]

/-- MDR's rule lets a write through while the output is off, or of a legal ratio (R215). -/
theorem mdrCheck_admitted {v : Word} {s : State}
    (h : s.regs.mcr.moe = false ∨ ratioLegal s.params.mdrEncOffset (mdrOf s.params.regMap v) = true) :
    mdrCheck v s = none := by
  rcases h with hmoe | hlegal <;> simp [mdrCheck, *]

/-- Settles O25: MCR's rule checks the stored ratio and then the receiver, MDR's the written ratio. -/
theorem regwrClockRegisters : Obligations.RegwrClockRegisters := by
  refine ⟨by decide, ?_⟩
  rintro s _ v rfl hc hg
  refine ⟨fun hv => ?mcr, fun hv => ?mdr⟩
  case mcr =>
    have hrule : writeCheck .mcr v s = mcrCheck v s := writeCheck_within nofun nofun hg hv
    refine ⟨fun hmoe hlegal => regwr_stop hc (hrule.trans (if_pos ⟨hmoe, hlegal⟩)), fun hmoe hre => ?live,
      fun h => ?stores⟩
    case live => exact regwr_stop hc (e := .fault .fSeq (.reg .mcr)) (by simp [hrule, mcrCheck, hmoe, hre])
    case stores => exact regwr_ok_of_ne_rcsr hc nofun (hrule.trans (mcrCheck_admitted h))
  case mdr =>
    have hrule : writeCheck .mdr v s = mdrCheck v s := writeCheck_within nofun nofun hg hv
    exact ⟨fun hmoe hlegal => regwr_stop hc (hrule.trans (if_pos ⟨hmoe, hlegal⟩)),
      fun h => regwr_ok_of_ne_rcsr hc nofun (hrule.trans (mdrCheck_admitted h))⟩

/-- FEF after an admitted write of RCSR: cleared by a 1 (R33, R216). -/
theorem rcsrAfter_eq (m : RegMap) (v : Word) (old : Rcsr) :
    rcsrAfter m v old =
      ⟨v.getLsbD m.re, v.getLsbD m.bce, v.getLsbD m.frie, if v.getLsbD m.fef = true then false else old.fef⟩ := by
  cases h : v.getLsbD m.fef <;> simp [rcsrAfter, h]

/-- The FIFO after an admitted write of RCSR: emptied by FR (R32, R216). -/
theorem rxqAfter_rcsr (m : RegMap) (v : Word) (q : List Word) :
    rxqAfter m .rcsr v q = if v.getLsbD m.fr = true then [] else q := by
  simp [rxqAfter]

/-- Settles O26: RCSR's rule checks the clock, the mode and BCE in this order, and the write acts by its bits. -/
theorem regwrRcsr : Obligations.RegwrRcsr := by
  refine ⟨by decide, ?_⟩
  rintro s _ v rfl hc hg hv
  have hrule : writeCheck .rcsr v s = rcsrCheck v s := writeCheck_within nofun nofun hg hv
  have hbce (h : v.getLsbD s.params.regMap.re = false ∨ (clkOk s = true ∧ modeAdmitted s = true)) :
      writeCheck .rcsr v s =
        if v.getLsbD s.params.regMap.bce ≠ v.getLsbD s.params.regMap.re then some (.refuse .xMode) else none := by
    rw [hrule]
    rcases h with hre | ⟨hclk, hmode⟩ <;> simp [rcsrCheck, *]
  refine ⟨fun hre hclk => ?clock, fun hre hclk hmode => ?mode, fun h hne => ?bitClock, fun h heq => ?stores⟩
  case clock => exact regwr_stop hc (hrule.trans (if_pos ⟨hre, hclk⟩))
  case mode => exact regwr_stop hc (e := .refuse .xMode) (by simp [hrule, rcsrCheck, hre, hclk, hmode])
  case bitClock => exact regwr_stop hc ((hbce h).trans (if_pos hne))
  case stores =>
    rw [regwr_ok hc ((hbce h).trans (if_neg (not_not_intro heq))), regsAfter, rcsrAfter_eq, rxqAfter_rcsr]

/-- Settles O27: the four configuration registers have one rule, and each stores its own fields. -/
theorem regwrConfigRegisters : Obligations.RegwrConfigRegisters := by
  refine ⟨by decide, ?_⟩
  rintro s _ v rfl hc hg
  refine ⟨fun hre r hr hv => regwr_stop hc (writeCheck_config_live hr hg hre hv), fun hre => ?_⟩
  have hstores (r : Reg) (hr : r = .rcr1 ∨ r = .rcr2 ∨ r = .rcr4 ∨ r = .rcr5) (hk : r ≠ .clkgate) (hn : r ≠ .rcsr)
      (hv : Within s.params.regMap r v) :=
    regwr_ok_of_ne_rcsr hc hn (writeCheck_config r v s hr hg hre ((within_iff hk v).2 hv))
  exact ⟨hstores .rcr1 (by simp) nofun nofun, hstores .rcr2 (by simp) nofun nofun,
    hstores .rcr4 (by simp) nofun nofun, hstores .rcr5 (by simp) nofun nofun⟩

/-! ### Reads -/

/-- The fields a read shows from state, with their numbers: the view's, but for MCR's DUF (R26, R212, R221). -/
def shownFields (m : RegMap) (g : Regs) (frf : Bool) (r : Reg) : List (Field × Nat) :=
  match r with
  | .mcr => (viewFields m g frf .mcr).tail
  | r => viewFields m g frf r

/-- A shown field is one of the view's. -/
theorem viewFields_of_shown {m : RegMap} {g : Regs} {q : Bool} {r : Reg} {p : Field × Nat}
    (h : p ∈ shownFields m g q r) : p ∈ viewFields m g q r := by
  cases r with
  | mcr => exact List.mem_of_mem_tail h
  | _ => exact h

/-- A field of the view that is not shown, which is DUF, stands there as 0 (R26). -/
theorem shown_or_zero {m : RegMap} {g : Regs} {q : Bool} {r : Reg} {p : Field × Nat}
    (h : p ∈ viewFields m g q r) : p ∈ shownFields m g q r ∨ p.2 = 0 := by
  cases r with
  | mcr =>
    rcases List.mem_cons.1 h with rfl | h
    · exact .inr rfl
    · exact .inl h
  | _ => exact .inl h

/-- The read bits of registers 0 to 7 are those of the shown fields (R212). -/
theorem rmask_shown {m : RegMap} {r : Reg} (hd : r ≠ .rdr) (g : Regs) (q : Bool) {n : Nat} (hn : n < 32) :
    (rmask m r).getLsbD n = true ↔ ∃ p ∈ shownFields m g q r, InField p.1 n := by
  have hmask : rmask m r = fieldsMask ((shownFields m g q r).map Prod.fst) := by
    cases r with
    | rdr => exact absurd rfl hd
    | _ => rfl
  rw [hmask, fieldsMask_bit _ n hn]
  simp only [List.mem_map, exists_exists_and_eq_and]

/-- The view's fields are kept apart in a layout a launch may give (R11). -/
theorem viewFields_layout {m : RegMap} (hm : regMapOk m = true) (g : Regs) (q : Bool) (r : Reg) :
    layoutOk ((viewFields m g q r).map Prod.fst) = true := by
  rw [viewFields_fst]
  exact regMapOk_layout hm r

/-- Outside the read bits the view has no 1 (R221). -/
theorem regFields_outside {m : RegMap} (hm : regMapOk m = true) {r : Reg} (hd : r ≠ .rdr) (g : Regs) (q : Bool)
    {n : Nat} (hn : n < 32) (hout : (rmask m r).getLsbD n = false) : (regFields m g q r).getLsbD n = false := by
  by_contra hbit
  obtain ⟨p, hp, hin⟩ := packFields_within (Bool.eq_true_of_not_eq_false hbit)
  rcases shown_or_zero hp with hshown | hzero
  · simp [(rmask_shown hd g q hn).2 ⟨p, hshown, hin⟩] at hout
  · refine hbit ((packFields_bit (viewFields_layout hm g q r) hp hin).trans ?_)
    rw [hzero, Nat.zero_testBit]

/-- Outside the read bits a read is the draw (R221). -/
theorem readFields_outside {r : Reg} {s : State} (hm : regMapOk s.params.regMap = true) (hd : r ≠ .rdr) {n : Nat}
    (hn : n < 32) (hout : (rmask s.params.regMap r).getLsbD n = false) :
    (readFields r s).1.getLsbD n = (draw s).1.getLsbD n := by
  simp [readFields_bit r s n hn, regFields_outside hm hd s.regs (frf s) hn hout, hout]

section Shown

variable {r : Reg} {s : State} (hm : regMapOk s.params.regMap = true) (hd : r ≠ .rdr)
include hm hd

/-- A read shows each number that fits its field (R221). -/
theorem readFields_shows {f : Field} {x : Nat} (h : (f, x) ∈ shownFields s.params.regMap s.regs (frf s) r)
    (hx : x < 2 ^ f.width) : getField f (readFields r s).1 = x :=
  readFields_field hm (viewFields_of_shown h) (fun _ hn hin => (rmask_shown hd _ _ hn).2 ⟨_, h, hin⟩) hx

/-- A read shows each flag (R221). -/
theorem readFields_shows_flag {i : Nat} {b : Bool}
    (h : (Field.bit i, b.toNat) ∈ shownFields s.params.regMap s.regs (frf s) r) : (readFields r s).1.getLsbD i = b :=
  readFields_flag hm (viewFields_of_shown h) fun _ hn hin => (rmask_shown hd _ _ hn).2 ⟨_, h, hin⟩

end Shown

/-- What a read of RCSR shows: FR is 0 and FRF computed (R32, R34, R221). -/
theorem readFields_rcsr {s : State} (hm : regMapOk s.params.regMap = true) :
    (readFields .rcsr s).1.getLsbD s.params.regMap.re = s.regs.rcsr.re ∧
    (readFields .rcsr s).1.getLsbD s.params.regMap.bce = s.regs.rcsr.bce ∧
    (readFields .rcsr s).1.getLsbD s.params.regMap.fr = false ∧
    (readFields .rcsr s).1.getLsbD s.params.regMap.fef = s.regs.rcsr.fef ∧
    (readFields .rcsr s).1.getLsbD s.params.regMap.frf = decide (s.rxq.length > s.regs.rcr1.rfw) ∧
    (readFields .rcsr s).1.getLsbD s.params.regMap.frie = s.regs.rcsr.frie := by
  have hflag {i : Nat} {b : Bool} := readFields_shows_flag (i := i) (b := b) hm (r := .rcsr) nofun
  simp only [shownFields, viewFields] at hflag
  exact ⟨hflag (by simp), hflag (by simp), hflag (by simp), hflag (by simp), hflag (by simp [frf]), hflag (by simp)⟩

/-- Settles O28: a read is the shown fields in the read bits, and the draw in the others. -/
theorem regrdReadsTheFields : Obligations.RegrdReadsTheFields := by
  rintro s _ r rfl hm hfit hc hd hg
  refine ⟨(readFields r s).1, regrd_fields hc hd hg, fun n hn hout => readFields_outside hm hd hn hout, ?_⟩
  obtain ⟨hmics, hfract, hdivide, hrfw, hsync, hmsel, hdiv, hfrsz, hsywd, hwnw, hw0w, hfbt⟩ := hfit
  have hnum {f : Field} {x : Nat} := readFields_shows (f := f) (x := x) hm hd
  have hflag {i : Nat} {b : Bool} := readFields_shows_flag (i := i) (b := b) hm hd
  cases r with
  | clkgate => exact hflag (by simp [shownFields, viewFields])
  | mcr => exact ⟨hflag (by simp [shownFields, viewFields]), hnum (by simp [shownFields, viewFields]) hmics⟩
  | mdr => exact ⟨hnum (by simp [shownFields, viewFields]) hfract, hnum (by simp [shownFields, viewFields]) hdivide⟩
  | rcsr => exact readFields_rcsr hm
  | rcr1 => exact hnum (by simp [shownFields, viewFields]) hrfw
  | rcr2 =>
    simp only [shownFields, viewFields] at hnum hflag
    exact ⟨hnum (by simp) hsync, hnum (by simp) hmsel, hflag (by simp), hflag (by simp), hnum (by simp) hdiv⟩
  | rcr4 =>
    simp only [shownFields, viewFields] at hnum hflag
    exact ⟨hnum (by simp) hfrsz, hnum (by simp) hsywd, hflag (by simp), hflag (by simp), hflag (by simp),
      hflag (by simp)⟩
  | rcr5 =>
    simp only [shownFields, viewFields] at hnum
    exact ⟨hnum (by simp) hwnw, hnum (by simp) hw0w, hnum (by simp) hfbt⟩
  | rdr => trivial

/-- Settles O29: both reads are one read of RDR, which takes the oldest entry or a draw. -/
theorem rdrReadTakesTheOldestEntry : Obligations.RdrReadTakesTheOldestEntry := by
  refine fun s hg => ⟨fun v rest hq => ⟨fun hc => ?_, fun n hc => ?_⟩, fun hq => ⟨fun hc => ?_, fun n hc => ?_⟩⟩
  · rw [regrd_rdr hc hg, readRdr_cons hq]
    rfl
  · rw [exec_hRd_skip hc hg, popped, readRdr_cons hq]
    rfl
  · rw [regrd_rdr hc hg, readRdr_nil hq, draw_snd]
    rfl
  · rw [exec_hRd_skip hc hg, popped, readRdr_nil hq, draw_snd]
    rfl

/-! ### Read-back -/

/-- After an admitted write of a register other than RCSR each shown field holds the number written into it (R213, R215,
R217). -/
theorem shownFields_regsAfter {m : RegMap} {r : Reg} (hr : r ≠ .rcsr) (v : Word) (g : Regs) (q : Bool) :
    ∀ p ∈ shownFields m (regsAfter m r v g) q r, p.2 = getField p.1 v := by
  cases r with
  | rcsr => exact absurd rfl hr
  | clkgate => simp [shownFields, viewFields, regsAfter, getField_bit]
  | mcr => simp [shownFields, viewFields, regsAfter, mcrOf, getField_bit]
  | mdr => simp [shownFields, viewFields, regsAfter, mdrOf]
  | rcr1 => simp [shownFields, viewFields, regsAfter, rcr1Of]
  | rcr2 => simp [shownFields, viewFields, regsAfter, rcr2Of, getField_bit]
  | rcr4 => simp [shownFields, viewFields, regsAfter, rcr4Of, getField_bit]
  | rcr5 => simp [shownFields, viewFields, regsAfter, rcr5Of]
  | rdr => exact nofun

/-- A register whose fields hold what a value has in them reads as that value in the read bits (R223). -/
theorem readFields_and_rmask {r : Reg} {v : Word} {s : State} (hm : regMapOk s.params.regMap = true) (hd : r ≠ .rdr)
    (h : ∀ p ∈ shownFields s.params.regMap s.regs (frf s) r, p.2 = getField p.1 v) :
    (readFields r s).1 &&& rmask s.params.regMap r = v &&& rmask s.params.regMap r := by
  refine and_eq_of fun n hn hin => ?_
  obtain ⟨p, hp, hlo, hhi⟩ := (rmask_shown hd _ _ hn).1 hin
  calc (readFields r s).1.getLsbD n
      = (regFields s.params.regMap s.regs (frf s) r).getLsbD n := readFields_masked r s n hn hin
    _ = p.2.testBit (n - p.1.lo) :=
        packFields_bit (viewFields_layout hm s.regs (frf s) r) (viewFields_of_shown hp) ⟨hlo, hhi⟩
    _ = v.getLsbD n := by
        rw [h p hp, getField_testBit, Nat.add_sub_cancel' hlo, decide_eq_true (by omega), Bool.true_and]

/-- An admitted write leaves the gate open, but for one of CLKGATE (R211). -/
theorem regsAfter_gate_open {r : Reg} {v : Word} {s : State} (h : writeCheck r v s = none) (hr : r ≠ .clkgate) :
    (regsAfter s.params.regMap r v s.regs).gate = true := by
  obtain ⟨_, hopen, _, _⟩ := (writeCheck_none r v s).1 h
  obtain ⟨hgate, _⟩ := regsAfter_agreeBut s.params.regMap r v s.regs
  exact (hgate hr).trans (hopen hr)

/-- Settles O30: the write stores its fields with the gate left open, and the read after it shows them. -/
theorem registerReadsBackWhatWasWritten : Obligations.RegisterReadsBackWhatWasWritten := by
  rintro s _ r v rfl hm hc hw
  obtain ⟨hd, _, _, _⟩ := (writeCheck_none r v s).1 hw
  have hopen := regsAfter_gate_open hw
  refine ⟨_, _, _, regwr_ok hc hw, rfl, rfl, ?gate, regrd_fields hc hd hopen, rfl, fun hr => ?fields, ?rcsr⟩
  case gate => exact (em (r = .clkgate)).symm.imp_left hopen
  case fields => exact readFields_and_rmask hm hd (shownFields_regsAfter hr v s.regs _)
  case rcsr =>
    rintro rfl
    obtain ⟨hre, hbce, hfr, hfef, hfrf, hfrie⟩ := readFields_rcsr (s := { s with
      regs := regsAfter s.params.regMap .rcsr v s.regs, rxq := _, hist := _, hp := _, mpos := _ }) hm
    exact ⟨hre, hbce, hfrie, hfr, hfef, hfrf⟩

end Sys2Proof.Machine

/-! Proofs of the reset family: the derived predicates where a field they need is 0, and the values every launch state
holds. -/

namespace Sys2Proof.Machine

/-! ### The derived predicates at cleared fields -/

/-- The mode is not admitted unless MSEL = 1 (R62). -/
theorem modeAdmitted_of_msel {s : State} (h : s.regs.rcr2.msel ≠ 1) : modeAdmitted s = false := by
  simp [modeAdmitted, h]

/-- The clock is not running while the gate is closed (R61). -/
theorem clkOk_of_gate_closed {s : State} (h : s.regs.gate = false) : clkOk s = false := by
  simp [clkOk, h]

/-- The receiver requests nothing while FRIE = 0 (R63). -/
theorem rxReq_of_frie_clear {s : State} (h : s.regs.rcsr.frie = false) : rxReq s = false := by
  simp [rxReq, h]

/-- With both raw fields 0 the logical ratio is the offset over itself, legal for the offset 1 alone (R27, R28). -/
theorem ratioLegal_zero_iff (off : Fin 2) : ratioLegal off ⟨0, 0⟩ = true ↔ off = 1 := by
  match off with
  | 0 => decide
  | 1 => decide

/-! ### The launch states -/

/-- Settles O40: a launch gives the parameters, the program, the memory and the inputs; every other field is reset's, and
each derived predicate is decided by one cleared field. -/
theorem resetState : Obligations.ResetState := by
  refine ⟨launch_reset, ?_⟩
  rintro _ ⟨p, _, _, _, _, _, _, _, rfl⟩
  refine ⟨rfl, rfl, rfl, rfl, rfl, rfl, rfl, rfl, rfl, rfl, rfl, rfl, rfl, rfl, rfl,
    ?mode, ?clock, ?request, rfl, ?ratio⟩
  case mode => exact modeAdmitted_of_msel nofun
  case clock => exact clkOk_of_gate_closed rfl
  case request => exact rxReq_of_frie_clear rfl
  case ratio => exact ratioLegal_zero_iff p.mdrEncOffset

end Sys2Proof.Machine
